-- ==== Sys2Proof/Word.lean ====
section
/-! DEFINITION. The words of the block (spec/00_scope.md rule R7): bytes, 16-bit and 32-bit unsigned values,
and buffers (rule R8), which are finite sequences of bytes indexed from 0. -/

namespace Sys2Proof

/-- `u8` of rule R7. -/
abbrev Byte := BitVec 8

/-- `u16` of rule R7. -/
abbrev Word16 := BitVec 16

/-- `u32` of rule R7. -/
abbrev Word32 := BitVec 32

/-- A buffer of rule R8: a frame, a payload or a datagram. -/
abbrev Buffer := List Byte

end Sys2Proof
end

