-- ==== Sys2Proof/Config.lean ====
section
/-! DEFINITION. The implementation parameters of spec/00_scope.md rule R6: the fixed ones as constants, the ones the
spec leaves OPEN and the block itself reads as a record that is configured for a run and never changed (rules R22,
R122). The host-only parameters stand in Machine/HostAgent.lean. -/

namespace Sys2Proof

namespace Config

/-- `RX_LEN`, fixed: the length of every datagram the block accepts. -/
def rxLen : Nat := 138

/-- `SEQ_INIT`, fixed (rule R13). -/
def seqInit : Word16 := 1#16

/-- `SEQ_MAX`, fixed (rule R57). -/
def seqMax : Nat := 65535

/-- `THR_MAX`, fixed: the bound of commands 0x05 and 0x07. -/
def thrMax : Nat := 4095

/-- `TIME_MAX`, fixed: the bound of commands 0x06 and 0x08. -/
def timeMax : Nat := 65535

/-- `RETRY_WINDOW`, fixed, in milliseconds; only the host uses it (rule R101). -/
def retryWindowMs : Nat := 1000

end Config

/-- `SEQ_ORDER`: which counter value a frame carries (rule R57, decision D5). -/
inductive SeqOrder where
  | post  -- the value before the increment (the default)
  | pre   -- the value after the increment
deriving DecidableEq, Repr

/-- The OPEN parameters of rule R6 that the block reads. `none` in a bound means unbounded. -/
structure Params where
  /-- `SEQ_ORDER` (decision D5). -/
  seqOrder : SeqOrder
  /-- `CRC_CHECK_ON_RECEIVE` (rule R81, decision D10). -/
  crcCheckOnReceive : Bool
  /-- `SEQ_ECHO_CHECK` (rule R81, decision D11). -/
  seqEchoCheck : Bool
  /-- `ACK_GATE_DATA` (rule R78, decision D9). -/
  ackGateData : Bool
  /-- `MAX_PAYLOAD_LEN` (rule R59, decision D26). -/
  maxPayloadLen : Option Nat
  /-- `RXQ_DEPTH` (rule R32, decision D31). -/
  rxqDepth : Option Nat
deriving DecidableEq, Repr

/-- The default of every parameter, as rule R6 gives it. -/
def Params.default : Params :=
  { seqOrder := .post, crcCheckOnReceive := false, seqEchoCheck := false, ackGateData := false
    maxPayloadLen := none, rxqDepth := none }

end Sys2Proof
end

