-- ==== Sys2Proof/Syntax.lean ====
section
/-! DEFINITION. The block's inputs and its instructions (spec/30_encoding.md, spec/opcode_table.json): the items of the
inbound queue, and ONE inductive with a constructor for every row of the opcode table. The table has four formats:
host commands (CMD), inbound datagrams (RX), outbound frames (TX.…) and datagram classes (RX.…). -/

namespace Sys2Proof

/-- The four acquisition modes (spec/10_state.md rule R15). -/
inductive AcqMode where
  | shortPacket | longPacket | clusterCount | hitCount
deriving DecidableEq, Repr

/-- The value of the register `MODE`: `UNSET`, or an acquisition mode (rule R15). -/
inductive Mode where
  | unset
  | active (m : AcqMode)
deriving DecidableEq, Repr

/-- The classes of a 138-byte datagram (spec/30_encoding.md rules R44, R45, R48). -/
inductive RxClass where
  | hsReady | hsZero | hsFormat | hsFail | ack | dataZero | dataShort | dataFull | malformed
deriving DecidableEq, Repr

/-- A verdict on an ack code (rule R77). -/
inductive Verdict where
  | accepted | rejected
deriving DecidableEq, Repr

/-- The notes of rule R77. -/
inductive AckNote where
  | possibleLostCommand | deviceBusy | crcFaultTolerated
deriving DecidableEq, Repr

/-- A typed operand of a host command (rule R49). -/
inductive Operand where
  | u8 (b : Byte)
  | nat (n : Nat)
  | buf (d : Buffer)
deriving DecidableEq, Repr

/-- A host command as the CMD port carries it: an operation number and its operands (rule R49). -/
structure Command where
  op : Byte
  args : List Operand
deriving DecidableEq, Repr

/-- An item of the inbound queue (spec/20_memory.md rule R31): a host command, the window expiry notice among them
(EXPIRE is CMD op 0x0D, rule R93), or a datagram the Transport delivered, of any length and content. -/
inductive Item where
  | cmd (c : Command)
  | rx (b : Buffer)
deriving DecidableEq, Repr

/-- The instructions: one constructor for each row of spec/opcode_table.json, in the table's order. -/
inductive Instr where
  -- format CMD: the host operations of rule R49
  | build (cmd : Byte) (p : Buffer)
  | looptest (p : Buffer)
  | ctrlrd
  | fpgarst
  | chthr (p : Buffer)
  | cntrst (p : Buffer)
  | ctrlwr (tc ft sr tse dm wm : Nat)
  | setthr (v : Nat)
  | setacq (v : Nat)
  | setdac (v : Nat)
  | setint (v : Nat)
  | trig
  | expire
  | setmode (m : Nat)
  | stat
  | reset
  | crc (d : Buffer)
  -- format RX: an inbound datagram, not classified yet
  | rx (b : Buffer)
  -- format TX frame: an outbound frame by the fields its row names (the CRC field is computed, rule R37)
  | txBuild (seq : Word16) (cmd : Byte) (p : Buffer)
  | txLooptest (seq : Word16) (p : Buffer)
  | txCtrlrd (seq : Word16)
  | txFpgarst (seq : Word16)
  | txChthr (seq : Word16) (p : Buffer)
  | txCntrst (seq : Word16) (p : Buffer)
  | txCtrlwr (seq : Word16) (tc ft : BitVec 2) (sr : BitVec 4) (tse : BitVec 1) (dm wm : BitVec 2)
  | txSetthr (seq : Word16) (v : Word16)
  | txSetacq (seq : Word16) (v : Word16)
  | txSetdac (seq : Word16) (v : Word16)
  | txSetint (seq : Word16) (v : Word16)
  | txTrigger
  -- format RX class: a datagram of a class of rule R74
  | rxHsZero (b : Buffer)
  | rxHsReady (b : Buffer)
  | rxHsFormat (b : Buffer)
  | rxHsFail (b : Buffer)
  | rxDataZero (b : Buffer)
  | rxAck (b : Buffer)
  | rxDataShort (b : Buffer)
  | rxDataFull (b : Buffer)
  | rxMalformed (b : Buffer)
deriving DecidableEq, Repr

end Sys2Proof
end

