-- ==== Sys2Proof/Machine/State.lean ====
section
/-! DEFINITION. The architectural state of the block (spec/10_state.md): six registers, three append-only output streams and
the inbound queue, with the parameters the run is configured with; the records the streams hold (spec/60_exceptions.md
rules R111 to R114); the outcomes that stop a step; and the state after reset (spec/70_reset_and_hazards.md rule R122). -/

namespace Sys2Proof.Machine

/-- The register `HS_STATE` (rule R16). -/
inductive HsState where
  | idle | awaitingReply | abnormal | readyToAcquire
deriving DecidableEq, Repr

/-- The reply info record of spec/42_rx_classifier.md rule R78. -/
structure ReplyInfo where
  cls : RxClass
  seqEcho : Word16
  deviceId : Byte
  ackCode : Byte
  extra : Buffer
  crcField : Word16
  crcCalc : Word16
deriving DecidableEq, Repr

/-- The field ids of `VALUE_OUT_OF_RANGE` (rule R112). -/
inductive FieldId where
  | threshold | acqTime | scaleDac | scaleInterval
  | ctrlTc | ctrlFt | ctrlSr | ctrlTse | ctrlDm | ctrlWm
  | payloadLen | mode
deriving DecidableEq, Repr

/-- The cause `HS_ABNORMAL` records (spec/44_trigger_handshake.md rule R90). -/
inductive AbnormalCause where
  | allZeros | failSignal
deriving DecidableEq, Repr

/-- The reason `ACK_REJECTED` records (rule R78). -/
inductive RejectReason where
  | code | crc | seq
deriving DecidableEq, Repr

/-- The error events of rule R112, each with the information it records. -/
inductive BlockError where
  | framingLen (n : Nat)
  | framingHeader (bytes : Buffer)
  | hsFormatErr (bytes : Buffer)
  | seqOverflow (seq : Word16)
  | valueOutOfRange (field : FieldId) (v : Nat)
  | hsAbnormal (cause : AbnormalCause)
  | hsTimeout
  | ackRejected (reason : RejectReason) (info : ReplyInfo)
  | modeUnset
deriving DecidableEq, Repr

/-- What STAT reports (spec/45_control.md rule R98). -/
structure StatusRecord where
  seq : Word16
  lastSeq : Option Word16
  mode : Byte
  hs : Byte
  attempt : Fin 2
  replyFlag : Bool
deriving DecidableEq, Repr

/-- The items of the event stream: the informational events of rule R114, and error events `ERR(code, E, info)`. -/
inductive Event where
  | frameSent (s : Word16) (cmd : Byte) (n : Nat)
  | trigSent (a : Fin 2)
  | hsReadyToAcquire (x : Byte)
  | hsUnsolicited (c : RxClass) (st : HsState)
  | expireIgnored (st : HsState)
  | ackNote (x : Byte) (note : AckNote)
  | ackAccepted (info : ReplyInfo)
  | dataDecoded (info : ReplyInfo) (n : Nat)
  | crcValue (r : Word16)
  | status (st : StatusRecord)
  | modeSet (m : Nat)
  | resetDone
  | err (code : Byte) (e : BlockError)
deriving DecidableEq, Repr

/-- The state of the block. -/
structure State where
  /-- The parameters of spec/00_scope.md rule R6, configured for the run; no operation writes them (rule R22). -/
  params : Params
  /-- `SEQ`, the sequence counter (rule R13). -/
  seq : Word16
  /-- `LAST_SEQ`, the number of the last instruction frame, or `NONE` (rule R14). -/
  lastSeq : Option Word16
  /-- `MODE`, the active acquisition mode, or `UNSET` (rule R15). -/
  mode : Mode
  /-- `HS_STATE` (rule R16). -/
  hsState : HsState
  /-- `HS_ATTEMPT`, 0 or 1 (rule R17). -/
  hsAttempt : Fin 2
  /-- `REPLY_FLAG`, the block's only flag (rule R18). -/
  replyFlag : Bool
  /-- The `TX` stream, oldest frame first (rule R19). -/
  tx : List Buffer
  /-- The `EVT` stream, oldest event first (rule R19). -/
  evt : List Event
  /-- The `DATA` stream, oldest vector first (rule R19). -/
  data : List (List Word32)
  /-- The inbound queue, the item taken next first (spec/20_memory.md rule R31). -/
  queue : List Item
deriving DecidableEq, Repr

/-- What stops the machine with a fault: nothing does. An error never stops the block (rule R111): it is an event, and the
block takes the next item. There is no trap and no fault state (rule R118). -/
inductive Fault where
deriving DecidableEq, Repr

/-- Why a step has no meaning. -/
inductive Refusal where
  /-- Raised by an arm of exec whose instruction has no meaning yet; no arm raises it. Safe. -/
  | notModelled (mnemonic : String)
  /-- Raised by step when the next item is a command whose operation number is not in rule R49's table: "An operation
  number not in this table is not an operation: a model refuses it". Safe. -/
  | unknownOperation (op : Byte)
  /-- Raised by step when the next item is a command whose operands are not those rule R49 gives its operation number: it
  is no command of the CMD port. Safe. -/
  | badOperands (op : Byte)
deriving DecidableEq, Repr

/-- The state after power-on (rules R122, R123), with every parameter at its default (rule R6). -/
def State.reset : State :=
  { params := Params.default
    seq := Config.seqInit
    lastSeq := none
    mode := .unset
    hsState := .idle
    hsAttempt := 0
    replyFlag := false
    tx := []
    evt := []
    data := []
    queue := [] }

end Sys2Proof.Machine
end

