-- ==== Sys2Proof/Machine/Flags.lean ====
section
/-! DEFINITION. The block's only flag, `REPLY_FLAG` (spec/10_state.md rule R18); the block has no condition codes. -/

namespace Sys2Proof.Machine

/-- `REPLY_FLAG <- true`, by an EB90 reply (spec/42_rx_classifier.md rule R79). -/
def setReply (s : State) : State := { s with replyFlag := true }

/-- `REPLY_FLAG <- false`, by every frame the block emits (rule R79). -/
def clearReply (s : State) : State := { s with replyFlag := false }

end Sys2Proof.Machine
end

