-- ==== Sys2Proof/Machine/Bytes.lean ====
section
/-! DEFINITION. Buffers and byte order (spec/00_scope.md rules R8, R9; spec/20_memory.md rules R26, R29, R30): reads of a
buffer at a fixed offset, all big-endian, with no alignment requirement. Byte order is decided here and nowhere else. -/

namespace Sys2Proof.Machine

/-- `b[i]` (rule R8), `MemRead(i, 1)`. A rule reads only offsets inside its buffer; past the end this total function
gives 0, which no rule of the spec reads (log entry 4). -/
def byteAt (b : Buffer) (i : Nat) : Byte := b.getD i 0

/-- `b[a..c)` (rule R8). -/
def slice (b : Buffer) (a c : Nat) : Buffer := (b.drop a).take (c - a)

/-- `rep(v, n)` (rule R8). -/
def rep (v : Byte) (n : Nat) : Buffer := List.replicate n v

/-- `be16(b, i)` (rule R9), `MemRead(i, 2)`: the byte at the lower offset is the high one. -/
def be16 (b : Buffer) (i : Nat) : Word16 := byteAt b i ++ byteAt b (i + 1)

/-- `be32(b, i)` (rule R9), `MemRead(i, 4)`. -/
def be32 (b : Buffer) (i : Nat) : Word32 :=
  (byteAt b i ++ byteAt b (i + 1)) ++ (byteAt b (i + 2) ++ byteAt b (i + 3))

/-- The high byte `v[15:8]`. -/
def hiByte (v : Word16) : Byte := v.extractLsb' 8 8

/-- The low byte `v[7:0]`. -/
def loByte (v : Word16) : Byte := v.extractLsb' 0 8

/-- `bytes16(v)` (rule R9): the two-byte big-endian image of a 16-bit value. -/
def bytes16 (v : Word16) : Buffer := [hiByte v, loByte v]

end Sys2Proof.Machine
end

