-- ==== Sys2Proof/Machine/Crc.lean ====
section
/-! DEFINITION. The CRC-16 generator (spec/40_crc.md rules R53, R54): width 16, init 0xFFFF, polynomial 0x1021, no
reflection, no final exclusive-or, most significant bit first. -/

namespace Sys2Proof.Machine

/-- One turn of the inner loop of rule R53. -/
def crcBit (reg : Word16) : Word16 :=
  if reg.getLsbD 15 then (reg <<< 1) ^^^ 0x1021#16 else reg <<< 1

/-- `crc_step(reg, x)` of rule R54: the byte into the high half, then eight turns. -/
def crcStep (reg : Word16) (x : Byte) : Word16 :=
  Nat.repeat crcBit 8 (reg ^^^ (x.zeroExtend 16 <<< 8))

/-- `k r`, written so that an evaluator computes `r` before it goes on (Laws/Crc.lean: `evalFirst r k = k r`). -/
def evalFirst {α : Type} (r : Word16) (k : Word16 → α) : α :=
  match r.toNat with
  | 0 => k 0
  | n + 1 => k (BitVec.ofNat 16 (n + 1))

/-- The outer loop of rule R53 from register value `reg`: bytes in buffer order. -/
def crcFold (reg : Word16) : Buffer → Word16
  | [] => reg
  | x :: xs => evalFirst (crcStep reg x) fun r => crcFold r xs

/-- `crc16(d)` of rule R53. -/
def crc16 (d : Buffer) : Word16 := crcFold 0xFFFF#16 d

end Sys2Proof.Machine
end

