-- ==== Sys2Proof/Machine/Frame.lean ====
section
/-! DEFINITION. Outbound frames (spec/30_encoding.md rules R37, R39, R42): the instruction frame, the trigger literal and the
device control word. -/

namespace Sys2Proof.Machine

/-- The bytes of an instruction frame its CRC covers (rule R37): sequence, reserved byte 0x00, command code, payload. -/
def crcSpan (seq : Word16) (cmd : Byte) (p : Buffer) : Buffer := bytes16 seq ++ [0x00#8] ++ [cmd] ++ p

/-- `frame(seq, cmd, p)` of rule R37. -/
def frame (seq : Word16) (cmd : Byte) (p : Buffer) : Buffer :=
  [0xEB#8, 0x90#8] ++ crcSpan seq cmd p ++ bytes16 (crc16 (crcSpan seq cmd p))

/-- The trigger frame of rule R39, the same bytes in every state. -/
def triggerFrame : Buffer :=
  [0xEB#8, 0x90#8, 0x00#8, 0x00#8, 0x00#8, 0x0C#8, 0xAE#8, 0x00#8, 0x00#8, 0x00#8]

/-- `ctrl` of rule R42: the device control word; bits 7..5 are written 0. -/
def ctrlWord (tc ft sr tse dm wm : Nat) : Word16 :=
  BitVec.ofNat 16 (tc <<< 14 ||| ft <<< 12 ||| sr <<< 8 ||| tse <<< 4 ||| dm <<< 2 ||| wm)

/-- `bytes16(v)` of a natural operand that its range check let pass (rule R41). -/
def valueBytes (v : Nat) : Buffer := bytes16 (BitVec.ofNat 16 v)

end Sys2Proof.Machine
end

