-- ==== Sys2Proof/Machine/Ops.lean ====
section
/-! DEFINITION. The named operations every meaning is written with (spec/00_scope.md rule R10): register writes, the three
emits, `raise`, sequence allocation, and the arrival of items at the inbound queue. The block has no data memory (spec/20_memory.md rule
R25), so there is no operation over one. -/

namespace Sys2Proof.Machine

/-! Registers. -/

/-- `SEQ <- n`. -/
def writeSeq (n : Word16) (s : State) : State := { s with seq := n }

/-- `LAST_SEQ <- n`. -/
def writeLastSeq (n : Word16) (s : State) : State := { s with lastSeq := some n }

/-- `MODE <- m`. -/
def writeMode (m : Mode) (s : State) : State := { s with mode := m }

/-- `HS_STATE <- h`, `HS_ATTEMPT <- a`. -/
def writeHs (h : HsState) (a : Fin 2) (s : State) : State := { s with hsState := h, hsAttempt := a }

/-- The six registers at their reset values (spec/70_reset_and_hazards.md rule R122). -/
def resetRegisters (s : State) : State :=
  { s with seq := Config.seqInit, lastSeq := none, mode := .unset, hsState := .idle, hsAttempt := 0, replyFlag := false }

/-! Output streams (rule R19): each emit appends. -/

/-- `emit TX(f)`. -/
def emitTx (f : Buffer) (s : State) : State := { s with tx := s.tx ++ [f] }

/-- `emit EVT(e)`. -/
def emitEvt (e : Event) (s : State) : State := { s with evt := s.evt ++ [e] }

/-- `emit DATA(v)`. -/
def emitData (v : List Word32) (s : State) : State := { s with data := s.data ++ [v] }

/-! Errors: the block's whole exception entry (spec/60_exceptions.md rules R111, R118). No state is saved, no mode changes and
nothing returns, so there is no return operation beside it. -/

/-- `code(E)` of rule R112. -/
def errorCode : BlockError → Byte
  | .framingLen _ => 0x01#8
  | .framingHeader _ => 0x02#8
  | .hsFormatErr _ => 0x03#8
  | .seqOverflow _ => 0x04#8
  | .valueOutOfRange _ _ => 0x05#8
  | .hsAbnormal _ => 0x06#8
  | .hsTimeout => 0x07#8
  | .ackRejected _ _ => 0x08#8
  | .modeUnset => 0x09#8

/-- `raise E(info)` (rule R111): the error event is appended and the step ends; the writes made before it stand. -/
def raise (e : BlockError) (s : State) : State := emitEvt (.err (errorCode e) e) s

/-! Sequence numbers. -/

/-- `alloc_seq()` of spec/41_frame_encoder.md rule R57: the number the next frame carries and the new `SEQ`, or `none` when
it fails with `SEQ_OVERFLOW`. -/
def allocSeq (s : State) : Option (Word16 × Word16) :=
  if s.seq.toNat + 1 > Config.seqMax then none
  else
    let next := s.seq + 1#16
    match s.params.seqOrder with
    | .post => some (s.seq, next)
    | .pre => some (next, next)

/-! The inbound queue (spec/20_memory.md rules R31, R32). -/

/-- Whether an item is a datagram. -/
def isDatagram : Item → Bool
  | .cmd _ => false
  | .rx _ => true

/-- How many datagrams a queue holds. -/
def datagramCount : List Item → Nat
  | [] => 0
  | i :: rest => (if isDatagram i then 1 else 0) + datagramCount rest

/-- A host command, or the host's window expiry notice, arrives. -/
def arriveCommand (c : Command) (s : State) : State := { s with queue := s.queue ++ [.cmd c] }

/-- Whether the queue holds `RXQ_DEPTH` datagrams already (rule R32); an unbounded queue is never full. -/
def queueFull (s : State) : Bool :=
  match s.params.rxqDepth with
  | none => false
  | some d => d ≤ datagramCount s.queue

/-- A datagram arrives; it is lost when the queue is full (rule R32). -/
def arriveDatagram (b : Buffer) (s : State) : State :=
  if queueFull s then s else { s with queue := s.queue ++ [.rx b] }

/-- An item arrives. -/
def arrive (i : Item) (s : State) : State :=
  match i with
  | .cmd c => arriveCommand c s
  | .rx b => arriveDatagram b s

/-- The state with `rest` left in the inbound queue. -/
def withQueue (rest : List Item) (s : State) : State := { s with queue := rest }

end Sys2Proof.Machine
end

