-- ==== Sys2Proof/Machine/Operands.lean ====
section
/-! DEFINITION. Operands of the host operations: the range check (spec/41_frame_encoder.md rule R58), mode numbers (spec/10_state.md
rule R15) and the codes STAT reports (spec/45_control.md rule R98). -/

namespace Sys2Proof.Machine

/-- `check(field, v, max)` of rule R58, then the rest of the operation `k`: nothing of `k` happens when it raises. -/
def checked (field : FieldId) (v max : Nat) (k : State → State) (s : State) : State :=
  if v > max then raise (.valueOutOfRange field v) s else k s

/-- The mode an operand selects: 0 = ShortPacket, 1 = LongPacket, 2 = ClusterCount, 3 = HitCount (rule R15). -/
def modeOfNat : Nat → Option AcqMode
  | 0 => some .shortPacket
  | 1 => some .longPacket
  | 2 => some .clusterCount
  | 3 => some .hitCount
  | _ + 4 => none

/-- `code(MODE)` (rule R98): 0 to 3, and 0xFF for `UNSET`. -/
def modeCode : Mode → Byte
  | .active .shortPacket => 0
  | .active .longPacket => 1
  | .active .clusterCount => 2
  | .active .hitCount => 3
  | .unset => 0xFF#8

/-- `code(HS_STATE)` (rules R16, R98). -/
def hsCode : HsState → Byte
  | .idle => 0
  | .awaitingReply => 1
  | .abnormal => 2
  | .readyToAcquire => 3

/-- The status record of the state (rule R98). -/
def statusOf (s : State) : StatusRecord :=
  { seq := s.seq, lastSeq := s.lastSeq, mode := modeCode s.mode, hs := hsCode s.hsState
    attempt := s.hsAttempt, replyFlag := s.replyFlag }

end Sys2Proof.Machine
end

