-- ==== Sys2Proof/Machine/Control.lean ====
section
/-! DEFINITION. The control operations (spec/45_control.md) and the CRC operation (spec/40_crc.md rule R55). None emits a frame. -/

namespace Sys2Proof.Machine

/-- `SETMODE m` of rule R97. -/
def selectMode (m : Nat) (s : State) : State :=
  match modeOfNat m with
  | none => raise (.valueOutOfRange .mode m) s
  | some a => emitEvt (.modeSet m) (writeMode (.active a) s)

/-- SETMODE (rule R97). -/
def execSetmode (m : Nat) (s : State) : Host.Outcome State Fault Refusal := .next (selectMode m s)

/-- STAT (rule R98). -/
def execStat (s : State) : Host.Outcome State Fault Refusal := .next (emitEvt (.status (statusOf s)) s)

/-- RESET (rule R99): the registers only; the streams and the inbound queue stay. -/
def execReset (s : State) : Host.Outcome State Fault Refusal := .next (emitEvt .resetDone (resetRegisters s))

/-- CRC (rule R55). -/
def execCrc (d : Buffer) (s : State) : Host.Outcome State Fault Refusal := .next (emitEvt (.crcValue (crc16 d)) s)

end Sys2Proof.Machine
end

