-- ==== Sys2Proof/Machine/Encoder.lean ====
section
/-! DEFINITION. The instruction frame encoder (spec/41_frame_encoder.md): BUILD and the typed builders, each BUILD with a fixed
command code after its range check (spec/30_encoding.md rule R51); and the TX rows of the opcode table. A TX row is the
outbound frame of one of these operations, written by its fields: its meaning is that operation on the operands the
frame carries. The sequence number and the CRC are the block's own to supply (rules R57, R37), so a row's frame is the
one sent exactly when its number is the one allocated (log entry 1). -/

namespace Sys2Proof.Machine

/-- Whether a payload is longer than `MAX_PAYLOAD_LEN` (rule R59). -/
def payloadTooLong (p : Buffer) (s : State) : Bool :=
  match s.params.maxPayloadLen with
  | none => false
  | some m => m < p.length

/-- The body of rule R59 once a number is allocated: registers, then the frame, then its event. -/
def sendFrame (n next : Word16) (cmd : Byte) (p : Buffer) (s : State) : State :=
  emitEvt (.frameSent n cmd (frame n cmd p).length)
    (emitTx (frame n cmd p) (clearReply (writeLastSeq n (writeSeq next s))))

/-- `BUILD cmd, p` of rule R59. -/
def buildFrame (cmd : Byte) (p : Buffer) (s : State) : State :=
  if payloadTooLong p s then raise (.valueOutOfRange .payloadLen p.length) s
  else
    match allocSeq s with
    | none => raise (.seqOverflow s.seq) s
    | some (n, next) => sendFrame n next cmd p s

/-- `CTRLWR` of rule R65: the checks in the order written, then BUILD 0x04 with the packed word. -/
def buildCtrl (tc ft sr tse dm wm : Nat) (s : State) : State :=
  checked .ctrlTc tc 3
    (checked .ctrlFt ft 3
      (checked .ctrlSr sr 15
        (checked .ctrlTse tse 1
          (checked .ctrlDm dm 3
            (checked .ctrlWm wm 3
              (buildFrame 0x04#8 (bytes16 (ctrlWord tc ft sr tse dm wm)))))))) s

/-- A builder of a 16-bit value (rules R66 to R69): its check, then BUILD with `bytes16(v)`. -/
def buildValue (cmd : Byte) (field : FieldId) (max v : Nat) (s : State) : State :=
  checked field v max (buildFrame cmd (valueBytes v)) s

/-! Meanings of the CMD rows. -/

/-- BUILD (rule R59). -/
def execBuild (cmd : Byte) (p : Buffer) (s : State) : Host.Outcome State Fault Refusal := .next (buildFrame cmd p s)

/-- LOOPTEST (rule R60). -/
def execLooptest (p : Buffer) (s : State) : Host.Outcome State Fault Refusal := .next (buildFrame 0x01#8 p s)

/-- CTRLRD (rule R61). -/
def execCtrlrd (s : State) : Host.Outcome State Fault Refusal := .next (buildFrame 0x01#8 [0x02#8, 0x00#8] s)

/-- FPGARST (rule R62). -/
def execFpgarst (s : State) : Host.Outcome State Fault Refusal := .next (buildFrame 0x01#8 [0x01#8, 0x00#8] s)

/-- CHTHR (rule R63). -/
def execChthr (p : Buffer) (s : State) : Host.Outcome State Fault Refusal := .next (buildFrame 0x02#8 p s)

/-- CNTRST (rule R64). -/
def execCntrst (p : Buffer) (s : State) : Host.Outcome State Fault Refusal := .next (buildFrame 0x03#8 p s)

/-- CTRLWR (rule R65). -/
def execCtrlwr (tc ft sr tse dm wm : Nat) (s : State) : Host.Outcome State Fault Refusal :=
  .next (buildCtrl tc ft sr tse dm wm s)

/-- SETTHR (rule R66). -/
def execSetthr (v : Nat) (s : State) : Host.Outcome State Fault Refusal :=
  .next (buildValue 0x05#8 .threshold Config.thrMax v s)

/-- SETACQ (rule R67). -/
def execSetacq (v : Nat) (s : State) : Host.Outcome State Fault Refusal :=
  .next (buildValue 0x06#8 .acqTime Config.timeMax v s)

/-- SETDAC (rule R68). -/
def execSetdac (v : Nat) (s : State) : Host.Outcome State Fault Refusal :=
  .next (buildValue 0x07#8 .scaleDac Config.thrMax v s)

/-- SETINT (rule R69). -/
def execSetint (v : Nat) (s : State) : Host.Outcome State Fault Refusal :=
  .next (buildValue 0x08#8 .scaleInterval Config.timeMax v s)

/-! Meanings of the TX rows. -/

/-- TX.BUILD: the frame of rule R59. -/
def execTxBuild (_seq : Word16) (cmd : Byte) (p : Buffer) (s : State) : Host.Outcome State Fault Refusal :=
  .next (buildFrame cmd p s)

/-- TX.LOOPTEST: the frame of rule R60. -/
def execTxLooptest (_seq : Word16) (p : Buffer) (s : State) : Host.Outcome State Fault Refusal :=
  .next (buildFrame 0x01#8 p s)

/-- TX.CTRLRD: the frame of rule R61. -/
def execTxCtrlrd (_seq : Word16) (s : State) : Host.Outcome State Fault Refusal :=
  .next (buildFrame 0x01#8 [0x02#8, 0x00#8] s)

/-- TX.FPGARST: the frame of rule R62. -/
def execTxFpgarst (_seq : Word16) (s : State) : Host.Outcome State Fault Refusal :=
  .next (buildFrame 0x01#8 [0x01#8, 0x00#8] s)

/-- TX.CHTHR: the frame of rule R63. -/
def execTxChthr (_seq : Word16) (p : Buffer) (s : State) : Host.Outcome State Fault Refusal := .next (buildFrame 0x02#8 p s)

/-- TX.CNTRST: the frame of rule R64. -/
def execTxCntrst (_seq : Word16) (p : Buffer) (s : State) : Host.Outcome State Fault Refusal := .next (buildFrame 0x03#8 p s)

/-- TX.CTRLWR: the frame of rule R65. -/
def execTxCtrlwr (_seq : Word16) (tc ft : BitVec 2) (sr : BitVec 4) (tse : BitVec 1) (dm wm : BitVec 2) (s : State) :
    Host.Outcome State Fault Refusal :=
  .next (buildCtrl tc.toNat ft.toNat sr.toNat tse.toNat dm.toNat wm.toNat s)

/-- TX.SETTHR: the frame of rule R66. -/
def execTxSetthr (_seq v : Word16) (s : State) : Host.Outcome State Fault Refusal :=
  .next (buildValue 0x05#8 .threshold Config.thrMax v.toNat s)

/-- TX.SETACQ: the frame of rule R67. -/
def execTxSetacq (_seq v : Word16) (s : State) : Host.Outcome State Fault Refusal :=
  .next (buildValue 0x06#8 .acqTime Config.timeMax v.toNat s)

/-- TX.SETDAC: the frame of rule R68. -/
def execTxSetdac (_seq v : Word16) (s : State) : Host.Outcome State Fault Refusal :=
  .next (buildValue 0x07#8 .scaleDac Config.thrMax v.toNat s)

/-- TX.SETINT: the frame of rule R69. -/
def execTxSetint (_seq v : Word16) (s : State) : Host.Outcome State Fault Refusal :=
  .next (buildValue 0x08#8 .scaleInterval Config.timeMax v.toNat s)

end Sys2Proof.Machine
end

