-- ==== Sys2Proof/Machine/Channels.lean ====
section
/-! DEFINITION. The bitfield channel decoder (spec/43_channel_decoder.md): the channel vector of a data reply, by acquisition mode
alone. -/

namespace Sys2Proof.Machine

/-- `decode_short(b)` of rule R83: 32 two-byte counts from byte 8. -/
def decodeShort (b : Buffer) : List Word32 := (List.range 32).map fun j => (be16 b (8 + 2 * j)).zeroExtend 32

/-- `decode_long(b)` of rule R84: 32 four-byte counts from byte 8. -/
def decodeLong (b : Buffer) : List Word32 := (List.range 32).map fun j => be32 b (8 + 4 * j)

/-- `decode_cluster(b)` of rule R85: 63 two-byte counts from byte 8. -/
def decodeCluster (b : Buffer) : List Word32 := (List.range 63).map fun j => (be16 b (8 + 2 * j)).zeroExtend 32

/-- The words `w[0..15]` of rule R86, big-endian (decision D14). -/
def hitWords (b : Buffer) : List Word32 := (List.range 16).map fun i => be32 b (8 + 4 * i)

/-- How many of the words have bit `j` set. -/
def bitCount (ws : List Word32) (j : Nat) : Nat := (ws.filter fun w => w.getLsbD j).length

/-- `decode_hit(b)` of rule R86: channel `j` counts the words whose bit `j` is set. -/
def decodeHit (b : Buffer) : List Word32 := (List.range 32).map fun j => BitVec.ofNat 32 (bitCount (hitWords b) j)

/-- `decode(b, m)` of rule R82. -/
def decodeChannels (b : Buffer) : AcqMode → List Word32
  | .shortPacket => decodeShort b
  | .longPacket => decodeLong b
  | .clusterCount => decodeCluster b
  | .hitCount => decodeHit b

end Sys2Proof.Machine
end

