-- ==== Sys2Proof/Machine/Classifier.lean ====
section
/-! DEFINITION. The packet type classifier (spec/42_rx_classifier.md rule R74) and the ack codes (rule R77). -/

namespace Sys2Proof.Machine

/-- The modes of step 3c of rule R74. `UNSET` is none of them. -/
def isShortMode : Mode → Bool
  | .active .shortPacket => true
  | .active .hitCount => true
  | .active .longPacket => false
  | .active .clusterCount => false
  | .unset => false

/-- `classify(b, m)` of rule R74, testing in the priority order given there. -/
def classify (b : Buffer) (m : Mode) : RxClass :=
  if slice b 0 5 = rep 0x11#8 5 then
    if slice b 5 10 = rep 0x00#8 5 then .hsZero
    else if slice b 5 10 = rep 0x22#8 5 then .hsReady
    else .hsFormat
  else if slice b 0 5 = rep 0x00#8 5 then .hsFail
  else if byteAt b 0 = 0xEB#8 ∧ byteAt b 1 = 0x90#8 then
    if slice b 9 138 = rep 0x00#8 129 then .dataZero
    else if slice b 10 138 = rep (byteAt b 9) 128 then .ack
    else if isShortMode m = true ∧ slice b 74 138 = rep (byteAt b 73) 64 then .dataShort
    else .dataFull
  else .malformed

/-- `ack_verdict(x)` of rule R77: 0xF1 to 0xF4 are Accepted, every other value is Rejected. -/
def ackVerdict (x : Byte) : Verdict :=
  if x = 0xF1#8 ∨ x = 0xF2#8 ∨ x = 0xF3#8 ∨ x = 0xF4#8 then .accepted else .rejected

/-- `ack_note(x)` of rule R77. -/
def ackNote (x : Byte) : Option AckNote :=
  if x = 0xF2#8 then some .possibleLostCommand
  else if x = 0xF3#8 then some .deviceBusy
  else if x = 0xF4#8 then some .crcFaultTolerated
  else none

end Sys2Proof.Machine
end

