-- ==== Sys2Proof/Machine/Handshake.lean ====
section
/-! DEFINITION. The trigger handshake state machine (spec/44_trigger_handshake.md): TRIG, EXPIRE, the handshake-class datagrams,
and the row TX.TRIGGER, the literal TRIG sends. -/

namespace Sys2Proof.Machine

/-- A trigger frame goes out and the send `a` of this handshake is reported (rules R89, R93): `HS_STATE`, `HS_ATTEMPT`, the
flag, the literal, the event. No sequence number is allocated. -/
def sendTrigger (a : Fin 2) (s : State) : State :=
  emitEvt (.trigSent a) (emitTx triggerFrame (clearReply (writeHs .awaitingReply a s)))

/-- The window expiry of rule R93: the escalation re-send, then the timeout; outside AwaitingReply only an event. -/
def expireWindow (s : State) : State :=
  if s.hsState = .awaitingReply then
    if s.hsAttempt = 0 then sendTrigger 1 s else raise .hsTimeout (writeHs .idle 0 s)
  else emitEvt (.expireIgnored s.hsState) s

/-- Rule R92: a handshake datagram outside AwaitingReply changes no state; `ifAwaiting` is what it does in AwaitingReply. -/
def hsReply (c : RxClass) (ifAwaiting : State → State) (s : State) : State :=
  if s.hsState = .awaitingReply then ifAwaiting s else emitEvt (.hsUnsolicited c s.hsState) s

/-- `hs_reply(HS_READY, b)` of rule R90. -/
def hsReadyReply (b : Buffer) (s : State) : State :=
  hsReply .hsReady (fun s => emitEvt (.hsReadyToAcquire (byteAt b 5)) (writeHs .readyToAcquire 0 s)) s

/-- `hs_reply(HS_ZERO, b)` of rule R90. -/
def hsZeroReply (s : State) : State :=
  hsReply .hsZero (fun s => raise (.hsAbnormal .allZeros) (writeHs .abnormal 0 s)) s

/-- `hs_reply(HS_FAIL, b)` of rule R90. -/
def hsFailReply (s : State) : State :=
  hsReply .hsFail (fun s => raise (.hsAbnormal .failSignal) (writeHs .abnormal 0 s)) s

/-- TRIG (rule R89). -/
def execTrig (s : State) : Host.Outcome State Fault Refusal := .next (sendTrigger 0 s)

/-- EXPIRE (rule R93). -/
def execExpire (s : State) : Host.Outcome State Fault Refusal := .next (expireWindow s)

/-- TX.TRIGGER: the frame of rule R89. -/
def execTxTrigger (s : State) : Host.Outcome State Fault Refusal := .next (sendTrigger 0 s)

end Sys2Proof.Machine
end

