-- ==== Sys2Proof/Machine/Receive.lean ====
section
/-! DEFINITION. The RX operation (spec/42_rx_classifier.md): the length check, the class rows of the opcode table, and the
processing of EB90 replies. Every step is one datagram; `MODE` is read when the step begins (rule R75). -/

namespace Sys2Proof.Machine

/-- The reply info record of rule R78; `k` is the offset of the CRC field. -/
def replyInfo (c : RxClass) (b : Buffer) (k : Nat) : ReplyInfo :=
  { cls := c, seqEcho := be16 b 2, deviceId := byteAt b 4, ackCode := byteAt b 5
    extra := slice b 6 8, crcField := be16 b k, crcCalc := crc16 (slice b 2 k) }

/-- Whether the ack code of a reply counts: on an ack-only reply, and on a data reply under `ACK_GATE_DATA` (rule R78). -/
def ackGated (c : RxClass) (s : State) : Bool := c == .ack || s.params.ackGateData

/-- The `ACK_NOTE` of rule R78, when the ack code counts and has a note. -/
def noteAck (info : ReplyInfo) (s : State) : State :=
  if ackGated info.cls s then
    match ackNote info.ackCode with
    | some n => emitEvt (.ackNote info.ackCode n) s
    | none => s
  else s

/-- The checks of rule R78 in the order CODE, CRC, SEQ: the reason of the first that rejects. -/
def rejection (info : ReplyInfo) (s : State) : Option RejectReason :=
  if ackGated info.cls s ∧ ackVerdict info.ackCode = .rejected then some .code
  else if s.params.crcCheckOnReceive ∧ info.crcField ≠ info.crcCalc then some .crc
  else if s.params.seqEchoCheck ∧ s.lastSeq ≠ some info.seqEcho then some .seq
  else none

/-- An EB90 reply past the `MODE_UNSET` check (rules R78, R79): the flag, then the note, then the first rejection or
`accept`. A noted code is Accepted, so no note comes before a `CODE` rejection. -/
def eb90Reply (info : ReplyInfo) (accept : State → State) (s : State) : State :=
  match rejection info s with
  | some r => raise (.ackRejected r info) (noteAck info (setReply s))
  | none => accept (noteAck info (setReply s))

/-- `eb90(ACK, b, 8)` of rule R78. -/
def eb90Ack (b : Buffer) (s : State) : State :=
  eb90Reply (replyInfo .ack b 8) (emitEvt (.ackAccepted (replyInfo .ack b 8))) s

/-- `eb90(c, b, k)` of rule R78 for a data class. -/
def eb90Data (c : RxClass) (b : Buffer) (k : Nat) (s : State) : State :=
  match s.mode with
  | .unset => raise .modeUnset s
  | .active m =>
    eb90Reply (replyInfo c b k)
      (fun s => emitEvt (.dataDecoded (replyInfo c b k) (decodeChannels b m).length) (emitData (decodeChannels b m) s)) s

/-- The datagram `b` processed as class `c` (rule R72). -/
def receiveClass (c : RxClass) (b : Buffer) (s : State) : State :=
  match c with
  | .hsReady => hsReadyReply b s
  | .hsZero => hsZeroReply s
  | .hsFail => hsFailReply s
  | .hsFormat => raise (.hsFormatErr (slice b 5 10)) s
  | .malformed => raise (.framingHeader (slice b 0 5)) s
  | .ack => eb90Ack b s
  | .dataShort => eb90Data .dataShort b 72 s
  | .dataZero => eb90Data .dataZero b 136 s
  | .dataFull => eb90Data .dataFull b 136 s

/-- `RX b` of rule R72: a datagram of another length is dropped before any byte of it is read (rule R73). -/
def receive (b : Buffer) (s : State) : State :=
  if b.length ≠ Config.rxLen then raise (.framingLen b.length) s
  else receiveClass (classify b s.mode) b s

/-- RX (rule R72). -/
def execRx (b : Buffer) (s : State) : Host.Outcome State Fault Refusal := .next (receive b s)

/-- RX.HS_ZERO (rule R90). -/
def execRxHsZero (b : Buffer) (s : State) : Host.Outcome State Fault Refusal := .next (receiveClass .hsZero b s)

/-- RX.HS_READY (rule R90). -/
def execRxHsReady (b : Buffer) (s : State) : Host.Outcome State Fault Refusal := .next (receiveClass .hsReady b s)

/-- RX.HS_FORMAT (rule R91). -/
def execRxHsFormat (b : Buffer) (s : State) : Host.Outcome State Fault Refusal := .next (receiveClass .hsFormat b s)

/-- RX.HS_FAIL (rule R90). -/
def execRxHsFail (b : Buffer) (s : State) : Host.Outcome State Fault Refusal := .next (receiveClass .hsFail b s)

/-- RX.DATA_ZERO (rule R78). -/
def execRxDataZero (b : Buffer) (s : State) : Host.Outcome State Fault Refusal := .next (receiveClass .dataZero b s)

/-- RX.ACK (rule R78). -/
def execRxAck (b : Buffer) (s : State) : Host.Outcome State Fault Refusal := .next (receiveClass .ack b s)

/-- RX.DATA_SHORT (rule R78). -/
def execRxDataShort (b : Buffer) (s : State) : Host.Outcome State Fault Refusal := .next (receiveClass .dataShort b s)

/-- RX.DATA_FULL (rule R78). -/
def execRxDataFull (b : Buffer) (s : State) : Host.Outcome State Fault Refusal := .next (receiveClass .dataFull b s)

/-- RX.MALFORMED (rule R72). -/
def execRxMalformed (b : Buffer) (s : State) : Host.Outcome State Fault Refusal := .next (receiveClass .malformed b s)

end Sys2Proof.Machine
end

