-- ==== Sys2Proof/Machine/Dispatch.lean ====
section
/-! DEFINITION. The dispatch: one arm per row of spec/opcode_table.json, each one call of that row's meaning. -/

namespace Sys2Proof.Machine

def exec (i : Instr) (s : State) : Host.Outcome State Fault Refusal :=
  match i with
  | .build cmd p => Sys2Proof.Machine.execBuild cmd p s
  | .looptest p => Sys2Proof.Machine.execLooptest p s
  | .ctrlrd => Sys2Proof.Machine.execCtrlrd s
  | .fpgarst => Sys2Proof.Machine.execFpgarst s
  | .chthr p => Sys2Proof.Machine.execChthr p s
  | .cntrst p => Sys2Proof.Machine.execCntrst p s
  | .ctrlwr tc ft sr tse dm wm => Sys2Proof.Machine.execCtrlwr tc ft sr tse dm wm s
  | .setthr v => Sys2Proof.Machine.execSetthr v s
  | .setacq v => Sys2Proof.Machine.execSetacq v s
  | .setdac v => Sys2Proof.Machine.execSetdac v s
  | .setint v => Sys2Proof.Machine.execSetint v s
  | .trig => Sys2Proof.Machine.execTrig s
  | .expire => Sys2Proof.Machine.execExpire s
  | .setmode m => Sys2Proof.Machine.execSetmode m s
  | .stat => Sys2Proof.Machine.execStat s
  | .reset => Sys2Proof.Machine.execReset s
  | .crc d => Sys2Proof.Machine.execCrc d s
  | .rx b => Sys2Proof.Machine.execRx b s
  | .txBuild seq cmd p => Sys2Proof.Machine.execTxBuild seq cmd p s
  | .txLooptest seq p => Sys2Proof.Machine.execTxLooptest seq p s
  | .txCtrlrd seq => Sys2Proof.Machine.execTxCtrlrd seq s
  | .txFpgarst seq => Sys2Proof.Machine.execTxFpgarst seq s
  | .txChthr seq p => Sys2Proof.Machine.execTxChthr seq p s
  | .txCntrst seq p => Sys2Proof.Machine.execTxCntrst seq p s
  | .txCtrlwr seq tc ft sr tse dm wm => Sys2Proof.Machine.execTxCtrlwr seq tc ft sr tse dm wm s
  | .txSetthr seq v => Sys2Proof.Machine.execTxSetthr seq v s
  | .txSetacq seq v => Sys2Proof.Machine.execTxSetacq seq v s
  | .txSetdac seq v => Sys2Proof.Machine.execTxSetdac seq v s
  | .txSetint seq v => Sys2Proof.Machine.execTxSetint seq v s
  | .txTrigger => Sys2Proof.Machine.execTxTrigger s
  | .rxHsZero b => Sys2Proof.Machine.execRxHsZero b s
  | .rxHsReady b => Sys2Proof.Machine.execRxHsReady b s
  | .rxHsFormat b => Sys2Proof.Machine.execRxHsFormat b s
  | .rxHsFail b => Sys2Proof.Machine.execRxHsFail b s
  | .rxDataZero b => Sys2Proof.Machine.execRxDataZero b s
  | .rxAck b => Sys2Proof.Machine.execRxAck b s
  | .rxDataShort b => Sys2Proof.Machine.execRxDataShort b s
  | .rxDataFull b => Sys2Proof.Machine.execRxDataFull b s
  | .rxMalformed b => Sys2Proof.Machine.execRxMalformed b s

end Sys2Proof.Machine
end

