-- ==== Sys2Proof/WellFormed.lean ====
section
/-! DEFINITION. Which terms of Instr stand for words of the opcode table. A host command and a datagram are always well formed:
their operands are unbounded naturals and buffers, checked when the operation runs (spec/30_encoding.md rule R49). A TX
row is well formed when its values are within the row's bounds and no narrower row of the table names the same frame;
a class row is well formed when its datagram has 138 bytes and the classifier can give it that class. -/

namespace Sys2Proof

open Machine

/-- The 16-bit value a two-byte payload carries (rule R41). -/
def payloadValue (p : Buffer) : Word16 := be16 p 0

/-- Whether the instruction frame with command `cmd` and payload `p` is named by a row narrower than TX.BUILD. -/
def namedFrame (cmd : Byte) (p : Buffer) : Bool :=
  if cmd = 0x01#8 ∨ cmd = 0x02#8 ∨ cmd = 0x03#8 then true
  else if cmd = 0x04#8 then p.length == 2 && (payloadValue p).extractLsb' 5 3 == 0#3
  else if cmd = 0x05#8 ∨ cmd = 0x07#8 then p.length == 2 && decide ((payloadValue p).toNat ≤ Config.thrMax)
  else if cmd = 0x06#8 ∨ cmd = 0x08#8 then p.length == 2
  else false

/-- A 138-byte datagram that the classifier gives class `c` in mode `m` (rules R43, R74). -/
def isClass (c : RxClass) (m : Mode) (b : Buffer) : Bool := b.length == Config.rxLen && classify b m == c

/-- The well-formedness check, one line for each row of the table. -/
def Instr.wf : Instr → Bool
  | .build _ _ => true
  | .looptest _ => true
  | .ctrlrd => true
  | .fpgarst => true
  | .chthr _ => true
  | .cntrst _ => true
  | .ctrlwr _ _ _ _ _ _ => true
  | .setthr _ => true
  | .setacq _ => true
  | .setdac _ => true
  | .setint _ => true
  | .trig => true
  | .expire => true
  | .setmode _ => true
  | .stat => true
  | .reset => true
  | .crc _ => true
  | .rx _ => true
  | .txBuild _ cmd p => !namedFrame cmd p
  | .txLooptest _ p => p != [0x02#8, 0x00#8] && p != [0x01#8, 0x00#8]
  | .txCtrlrd _ => true
  | .txFpgarst _ => true
  | .txChthr _ _ => true
  | .txCntrst _ _ => true
  | .txCtrlwr _ _ _ _ _ _ _ => true
  | .txSetthr _ v => decide (v.toNat ≤ Config.thrMax)
  | .txSetacq _ _ => true
  | .txSetdac _ v => decide (v.toNat ≤ Config.thrMax)
  | .txSetint _ _ => true
  | .txTrigger => true
  | .rxHsZero b => isClass .hsZero .unset b
  | .rxHsReady b => isClass .hsReady .unset b
  | .rxHsFormat b => isClass .hsFormat .unset b
  | .rxHsFail b => isClass .hsFail .unset b
  | .rxDataZero b => isClass .dataZero .unset b
  | .rxAck b => isClass .ack .unset b
  | .rxDataShort b => isClass .dataShort (.active .shortPacket) b
  | .rxDataFull b => isClass .dataFull .unset b
  | .rxMalformed b => isClass .malformed .unset b

/-- Whether the classifier, reading mode `m`, gives a class row's datagram that row's class. Only the two rows of step 3c
and 3d of rule R74 depend on the mode; a row of another format does not depend on it. -/
def Instr.modeOk (i : Instr) (m : Mode) : Bool :=
  match i with
  | .rxDataShort b => classify b m == .dataShort
  | .rxDataFull b => classify b m == .dataFull
  | _ => true

end Sys2Proof
end

