-- ==== Sys2Proof/Decode.lean ====
section
/-! DEFINITION. The decoder of the opcode table's four formats, total, rejecting by name, and after it the encoder
(spec/30_encoding.md). A queue item decodes by decodeItem, an outbound frame by decodeFrame (the offset slicing of
spec/41_frame_encoder.md rule R70), a datagram to its class row by decodeClass (spec/42_rx_classifier.md rule R74). -/

namespace Sys2Proof

open Machine

/-- Why the decoder rejects: an operation number that is not in rule R49's table, operands that are not that
operation's, or a buffer that is no frame of rule R37 or no 138-byte datagram (rule R43). -/
inductive DecodeError where
  | unknownOperation | badOperands | badHeader | badReserved | badCrc | tooShort | badLength
deriving DecidableEq, Repr

/-- A host command (rule R49): operation numbers 0x01 to 0x11 with the operands of the table. -/
def decodeCommand (c : Command) : Except DecodeError Instr :=
  match c.op.toNat with
  | 0x01 => match c.args with | [.u8 cmd, .buf p] => .ok (.build cmd p) | _ => .error .badOperands
  | 0x02 => match c.args with | [.buf p] => .ok (.looptest p) | _ => .error .badOperands
  | 0x03 => match c.args with | [] => .ok .ctrlrd | _ => .error .badOperands
  | 0x04 => match c.args with | [] => .ok .fpgarst | _ => .error .badOperands
  | 0x05 => match c.args with | [.buf p] => .ok (.chthr p) | _ => .error .badOperands
  | 0x06 => match c.args with | [.buf p] => .ok (.cntrst p) | _ => .error .badOperands
  | 0x07 => match c.args with
    | [.nat tc, .nat ft, .nat sr, .nat tse, .nat dm, .nat wm] => .ok (.ctrlwr tc ft sr tse dm wm)
    | _ => .error .badOperands
  | 0x08 => match c.args with | [.nat v] => .ok (.setthr v) | _ => .error .badOperands
  | 0x09 => match c.args with | [.nat v] => .ok (.setacq v) | _ => .error .badOperands
  | 0x0A => match c.args with | [.nat v] => .ok (.setdac v) | _ => .error .badOperands
  | 0x0B => match c.args with | [.nat v] => .ok (.setint v) | _ => .error .badOperands
  | 0x0C => match c.args with | [] => .ok .trig | _ => .error .badOperands
  | 0x0D => match c.args with | [] => .ok .expire | _ => .error .badOperands
  | 0x0E => match c.args with | [.nat m] => .ok (.setmode m) | _ => .error .badOperands
  | 0x0F => match c.args with | [] => .ok .stat | _ => .error .badOperands
  | 0x10 => match c.args with | [] => .ok .reset | _ => .error .badOperands
  | 0x11 => match c.args with | [.buf d] => .ok (.crc d) | _ => .error .badOperands
  | _ => .error .unknownOperation

/-- An item of the inbound queue. A datagram is the RX operation, whatever its length and content (rule R72). -/
def decodeItem : Item → Except DecodeError Instr
  | .cmd c => decodeCommand c
  | .rx b => .ok (.rx b)

/-- The narrowest TX row that names the instruction frame of sequence `seq`, command `cmd` and payload `p`
(spec/opcode_table.json, rows TX.BUILD to TX.SETINT; rule R40). -/
def txRow (seq : Word16) (cmd : Byte) (p : Buffer) : Instr :=
  let v := payloadValue p
  if cmd = 0x01#8 then
    if p = [0x02#8, 0x00#8] then .txCtrlrd seq
    else if p = [0x01#8, 0x00#8] then .txFpgarst seq
    else .txLooptest seq p
  else if cmd = 0x02#8 then .txChthr seq p
  else if cmd = 0x03#8 then .txCntrst seq p
  else if namedFrame cmd p = false then .txBuild seq cmd p
  else if cmd = 0x04#8 then
    .txCtrlwr seq (v.extractLsb' 14 2) (v.extractLsb' 12 2) (v.extractLsb' 8 4) (v.extractLsb' 4 1)
      (v.extractLsb' 2 2) (v.extractLsb' 0 2)
  else if cmd = 0x05#8 then .txSetthr seq v
  else if cmd = 0x06#8 then .txSetacq seq v
  else if cmd = 0x07#8 then .txSetdac seq v
  else .txSetint seq v

/-- An outbound frame: the trigger literal (rule R39), or the fields of an instruction frame by offset slicing, its last
two bytes checked against the CRC of the middle span (rules R37, R70). -/
def decodeFrame (f : Buffer) : Except DecodeError Instr :=
  if f = triggerFrame then .ok .txTrigger
  else if f.length < 8 then .error .tooShort
  else if be16 f 0 ≠ 0xEB90#16 then .error .badHeader
  else if byteAt f 4 ≠ 0x00#8 then .error .badReserved
  else if be16 f (f.length - 2) ≠ crc16 (slice f 2 (f.length - 2)) then .error .badCrc
  else .ok (txRow (be16 f 2) (byteAt f 5) (slice f 6 (f.length - 2)))

/-- The class row of class `c` with datagram `b`. -/
def classRow (c : RxClass) (b : Buffer) : Instr :=
  match c with
  | .hsZero => .rxHsZero b
  | .hsReady => .rxHsReady b
  | .hsFormat => .rxHsFormat b
  | .hsFail => .rxHsFail b
  | .dataZero => .rxDataZero b
  | .ack => .rxAck b
  | .dataShort => .rxDataShort b
  | .dataFull => .rxDataFull b
  | .malformed => .rxMalformed b

/-- A datagram read as its class row, in mode `m` (rules R43, R74). -/
def decodeClass (m : Mode) (b : Buffer) : Except DecodeError Instr :=
  if b.length ≠ Config.rxLen then .error .badLength else .ok (classRow (classify b m) b)

/-- Words in one of the table's formats. -/
inductive Wire where
  | item (x : Item)
  | frame (f : Buffer)
  | datagram (b : Buffer)
deriving DecidableEq, Repr

/-- The decoder over the four formats; only a class row reads the mode. -/
def decode (m : Mode) : Wire → Except DecodeError Instr
  | .item x => decodeItem x
  | .frame f => decodeFrame f
  | .datagram b => decodeClass m b

/-! The encoder. -/

/-- The two payload bytes of TX.CTRLWR, from the table's row: `tc` byte 6 bits 7-6, `ft` bits 5-4, `sr` bits 3-0; byte 7
bits 7-5 zero, `tse` bit 4, `dm` bits 3-2, `wm` bits 1-0. -/
def ctrlBytes (tc ft : BitVec 2) (sr : BitVec 4) (tse : BitVec 1) (dm wm : BitVec 2) : Buffer :=
  [tc ++ ft ++ sr, 0#3 ++ tse ++ dm ++ wm]

/-- A command with operation number `op`. -/
def command (op : Byte) (args : List Operand) : Item := .cmd { op := op, args := args }

/-- The words of a well-formed instruction, in its row's format. -/
def encode : Instr → Wire
  | .build cmd p => .item (command 0x01#8 [.u8 cmd, .buf p])
  | .looptest p => .item (command 0x02#8 [.buf p])
  | .ctrlrd => .item (command 0x03#8 [])
  | .fpgarst => .item (command 0x04#8 [])
  | .chthr p => .item (command 0x05#8 [.buf p])
  | .cntrst p => .item (command 0x06#8 [.buf p])
  | .ctrlwr tc ft sr tse dm wm => .item (command 0x07#8 [.nat tc, .nat ft, .nat sr, .nat tse, .nat dm, .nat wm])
  | .setthr v => .item (command 0x08#8 [.nat v])
  | .setacq v => .item (command 0x09#8 [.nat v])
  | .setdac v => .item (command 0x0A#8 [.nat v])
  | .setint v => .item (command 0x0B#8 [.nat v])
  | .trig => .item (command 0x0C#8 [])
  | .expire => .item (command 0x0D#8 [])
  | .setmode m => .item (command 0x0E#8 [.nat m])
  | .stat => .item (command 0x0F#8 [])
  | .reset => .item (command 0x10#8 [])
  | .crc d => .item (command 0x11#8 [.buf d])
  | .rx b => .item (.rx b)
  | .txBuild seq cmd p => .frame (frame seq cmd p)
  | .txLooptest seq p => .frame (frame seq 0x01#8 p)
  | .txCtrlrd seq => .frame (frame seq 0x01#8 [0x02#8, 0x00#8])
  | .txFpgarst seq => .frame (frame seq 0x01#8 [0x01#8, 0x00#8])
  | .txChthr seq p => .frame (frame seq 0x02#8 p)
  | .txCntrst seq p => .frame (frame seq 0x03#8 p)
  | .txCtrlwr seq tc ft sr tse dm wm => .frame (frame seq 0x04#8 (ctrlBytes tc ft sr tse dm wm))
  | .txSetthr seq v => .frame (frame seq 0x05#8 (bytes16 v))
  | .txSetacq seq v => .frame (frame seq 0x06#8 (bytes16 v))
  | .txSetdac seq v => .frame (frame seq 0x07#8 (bytes16 v))
  | .txSetint seq v => .frame (frame seq 0x08#8 (bytes16 v))
  | .txTrigger => .frame triggerFrame
  | .rxHsZero b => .datagram b
  | .rxHsReady b => .datagram b
  | .rxHsFormat b => .datagram b
  | .rxHsFail b => .datagram b
  | .rxDataZero b => .datagram b
  | .rxAck b => .datagram b
  | .rxDataShort b => .datagram b
  | .rxDataFull b => .datagram b
  | .rxMalformed b => .datagram b

/-- The queue item by which the block comes to run an instruction: a command or a datagram is itself an item; a TX row runs
when the command that sends its frame is taken (rule R51), a class row when its datagram is taken (rule R72). -/
def queueItem : Instr → Item
  | .build cmd p => command 0x01#8 [.u8 cmd, .buf p]
  | .looptest p => command 0x02#8 [.buf p]
  | .ctrlrd => command 0x03#8 []
  | .fpgarst => command 0x04#8 []
  | .chthr p => command 0x05#8 [.buf p]
  | .cntrst p => command 0x06#8 [.buf p]
  | .ctrlwr tc ft sr tse dm wm => command 0x07#8 [.nat tc, .nat ft, .nat sr, .nat tse, .nat dm, .nat wm]
  | .setthr v => command 0x08#8 [.nat v]
  | .setacq v => command 0x09#8 [.nat v]
  | .setdac v => command 0x0A#8 [.nat v]
  | .setint v => command 0x0B#8 [.nat v]
  | .trig => command 0x0C#8 []
  | .expire => command 0x0D#8 []
  | .setmode m => command 0x0E#8 [.nat m]
  | .stat => command 0x0F#8 []
  | .reset => command 0x10#8 []
  | .crc d => command 0x11#8 [.buf d]
  | .rx b => .rx b
  | .txBuild _ cmd p => command 0x01#8 [.u8 cmd, .buf p]
  | .txLooptest _ p => command 0x02#8 [.buf p]
  | .txCtrlrd _ => command 0x03#8 []
  | .txFpgarst _ => command 0x04#8 []
  | .txChthr _ p => command 0x05#8 [.buf p]
  | .txCntrst _ p => command 0x06#8 [.buf p]
  | .txCtrlwr _ tc ft sr tse dm wm =>
    command 0x07#8 [.nat tc.toNat, .nat ft.toNat, .nat sr.toNat, .nat tse.toNat, .nat dm.toNat, .nat wm.toNat]
  | .txSetthr _ v => command 0x08#8 [.nat v.toNat]
  | .txSetacq _ v => command 0x09#8 [.nat v.toNat]
  | .txSetdac _ v => command 0x0A#8 [.nat v.toNat]
  | .txSetint _ v => command 0x0B#8 [.nat v.toNat]
  | .txTrigger => command 0x0C#8 []
  | .rxHsZero b => .rx b
  | .rxHsReady b => .rx b
  | .rxHsFormat b => .rx b
  | .rxHsFail b => .rx b
  | .rxDataZero b => .rx b
  | .rxAck b => .rx b
  | .rxDataShort b => .rx b
  | .rxDataFull b => .rx b
  | .rxMalformed b => .rx b

/-! The table's words as the host numbers them. -/

/-- The operands of value zero (0, the empty buffer) of an operation number: what a table word of 8 bits stands for when
everything after the operation number is zero. -/
def zeroOperands (op : Byte) : List Operand :=
  match op.toNat with
  | 0x01 => [.u8 0, .buf []]
  | 0x02 => [.buf []]
  | 0x05 => [.buf []]
  | 0x06 => [.buf []]
  | 0x07 => [.nat 0, .nat 0, .nat 0, .nat 0, .nat 0, .nat 0]
  | 0x08 => [.nat 0]
  | 0x09 => [.nat 0]
  | 0x0A => [.nat 0]
  | 0x0B => [.nat 0]
  | 0x0E => [.nat 0]
  | 0x11 => [.buf []]
  | _ => []

/-- The first `n` bytes of `w`, byte 0 in its bits 7..0. -/
def wordBytes : Nat → Nat → Buffer
  | 0, _ => []
  | n + 1, w => BitVec.ofNat 8 w :: wordBytes n (w / 256)

/-- Fills a buffer with bytes 0x00 up to length `n`. -/
def padTo (n : Nat) (b : Buffer) : Buffer := b ++ rep 0x00#8 (n - b.length)

/-- A TX row's frame from the bytes its row fixes: zero operands after them, and the CRC, which the block computes. -/
def sealFrame (b : Buffer) : Buffer :=
  let body := padTo (if 4 ≤ (byteAt b 5).toNat then 8 else 6) b
  if body.length = 10 then body else body ++ bytes16 (crc16 (body.drop 2))

/-- The instruction a table word of `nbits` bits stands for: one byte is an operation number; longer words are bytes from
offset 0 of a frame (first byte 0xEB, five bytes or more) or of a datagram, read before any mode is set. -/
def decodeTableWord (nbits w : Nat) : Option Instr :=
  let bytes := wordBytes (nbits / 8) w
  let wire : Wire :=
    if nbits = 8 then .item (command (byteAt bytes 0) (zeroOperands (byteAt bytes 0)))
    else if byteAt bytes 0 = 0xEB#8 ∧ 5 ≤ bytes.length then .frame (sealFrame bytes)
    else .datagram (padTo Config.rxLen bytes)
  match decode .unset wire with
  | .ok i => some i
  | .error _ => none

end Sys2Proof
end

