-- ==== Sys2Proof/Machine/Fetch.lean ====
section
/-! DEFINITION. Taking the next item of the inbound queue (spec/20_memory.md rule R31). The block has no program counter (spec/10_state.md
rule R20): the head of the queue is what runs next. -/

namespace Sys2Proof.Machine

/-- The refusal of a command that the decoder rejects. Only its first two reasons concern a command (rule R49); the others
are a frame's or a datagram's, and no command meets them. -/
def refusalOf (c : Command) : DecodeError → Refusal
  | .unknownOperation => .unknownOperation c.op
  | .badOperands => .badOperands c.op
  | .badHeader => .badOperands c.op
  | .badReserved => .badOperands c.op
  | .badCrc => .badOperands c.op
  | .tooShort => .badOperands c.op
  | .badLength => .badOperands c.op

/-- The instruction of an item, or why it has none. Every datagram has one. -/
def itemInstr : Item → Except Refusal Instr
  | .rx b => .ok (.rx b)
  | .cmd c =>
    match decodeItem (.cmd c) with
    | .ok i => .ok i
    | .error e => .error (refusalOf c e)

/-- Puts an item at the head of the inbound queue, to be taken by the very next step. -/
def placeNext (x : Item) (s : State) : State := { s with queue := x :: s.queue }

/-- The item a table word stands for: its instruction's, or, where the decoder rejects the word, a command with the word's
low byte as its operation number and no operands. -/
def tableItem (nbits w : Nat) : Item :=
  match decodeTableWord nbits w with
  | some i => queueItem i
  | none => command (BitVec.ofNat 8 w) []

end Sys2Proof.Machine
end

