-- ==== Sys2Proof/Machine/Step.lean ====
section
/-! DEFINITION. One step of the block (spec/00_scope.md rule R3, spec/20_memory.md rules R30, R31): the next item of the inbound
queue is taken and its instruction runs, whole. With an empty queue there is no step to take and the block waits. -/

namespace Sys2Proof.Machine

/-- The step. A refusal leaves no next state: a command that is no operation cannot be run (rule R49). -/
def step (s : State) : Host.Outcome State Fault Refusal :=
  match s.queue with
  | [] => .next s
  | x :: rest =>
    match itemInstr x with
    | .ok i => exec i (withQueue rest s)
    | .error r => .refused r

/-- `s` with a table word's item at the head of the inbound queue, where step takes its next item. -/
def State.withFetchWord (s : State) (nbits w : Nat) : State := placeNext (tableItem nbits w) s

end Sys2Proof.Machine
end

