-- ==== Sys2Proof/Machine/HostAgent.lean ====
section
/-! DEFINITION. The host agent of spec/48_host_protocol.md (rules R101 to R110): the retry orchestrator and the acquisition
sequencer, as the contract of the one agent that drives the block. It is no part of the block (spec/00_scope.md rule
R5). It acts only through operations placed in the inbound queue and reads only the streams and STAT. Time is not
measured: what happens while the host waits, and around each operation it issues, in which order, is given from outside, so
that every interleaving of rule R31 is some run; a run whose script is used up is still going on (`running`), which is how a
retry that never ends is represented (spec/70_reset_and_hazards.md rule R130). What the rules leave to the host is log entries
13 and 17. -/

namespace Sys2Proof.Machine

/-- The host-only parameters of spec/00_scope.md rule R6, all OPEN but for their defaults. -/
structure HostParams where
  /-- `CNTRST_PAYLOAD`. -/
  cntRstPayload : Buffer
  /-- `LOOPTEST_PAYLOAD`. -/
  loopTestPayload : Buffer
  /-- `CHTHR_PAYLOAD`. -/
  chThrPayload : Buffer
  /-- `CHTHR_CHANNEL_MAX`, the host's to enforce (spec/41_frame_encoder.md rule R63). -/
  chThrChannelMax : Nat
  /-- `DATA_READ_CMD`. -/
  dataReadCmd : Byte
  /-- `DATA_READ_PAYLOAD`. -/
  dataReadPayload : Buffer
  /-- `RETRY_CAP`; `none` is unbounded, the default. -/
  retryCap : Option Nat
  /-- `HS_WINDOW`. -/
  hsWindow : Nat
  /-- `INTER_CYCLE_DELAY`. -/
  interCycleDelay : Nat
deriving DecidableEq, Repr

/-- What can happen beside the host's own operations (rules R31, R133, R135): the Transport delivers a datagram, the block takes
an item, the operator asks to cancel, or a wait's time is over. -/
inductive Happening where
  | arrives (b : Buffer)
  | takes
  | cancels
  | elapses
deriving DecidableEq, Repr

/-- What happens around one operation of the host (rule R31): before it is put on the queue, and while it is queued and not yet
taken. With the wait's script this lets a datagram arrive, and a cancel request be made, before or after any step. -/
structure Gap where
  before : List Happening
  pending : List Happening
deriving DecidableEq, Repr

/-- Nothing happens around the operation. -/
def Gap.quiet : Gap := { before := [], pending := [] }

/-- The frame-emitting operations that the host may retry, and set the device with (rules R101, R124): BUILD and the typed
builders of spec/41_frame_encoder.md. -/
inductive Builder where
  | build (cmd : Byte) (p : Buffer)
  | looptest (p : Buffer)
  | ctrlrd
  | fpgarst
  | chthr (p : Buffer)
  | cntrst (p : Buffer)
  | ctrlwr (tc ft sr tse dm wm : Nat)
  | setthr (v : Nat)
  | setacq (v : Nat)
  | setdac (v : Nat)
  | setint (v : Nat)
deriving DecidableEq, Repr

/-- The operation of rule R49 that a builder is. -/
def Builder.instr : Builder → Instr
  | .build cmd p => .build cmd p
  | .looptest p => .looptest p
  | .ctrlrd => .ctrlrd
  | .fpgarst => .fpgarst
  | .chthr p => .chthr p
  | .cntrst p => .cntrst p
  | .ctrlwr tc ft sr tse dm wm => .ctrlwr tc ft sr tse dm wm
  | .setthr v => .setthr v
  | .setacq v => .setacq v
  | .setdac v => .setdac v
  | .setint v => .setint v

/-- How a retry ends (rule R101). -/
inductive RetryResult where
  | ok
  | refused (e : BlockError)
  | gaveUp
  | running
deriving DecidableEq, Repr

/-- How a handshake run ends (rule R102). -/
inductive HandshakeResult where
  | ended (h : HsState)
  | running
deriving DecidableEq, Repr

/-- Why a campaign step fails (rules R103 to R105). -/
inductive AbortReason where
  | retry (r : RetryResult)
  | handshake (h : HsState)
  | noData
deriving DecidableEq, Repr

/-- What the host passes to the operator console (rule R108) or does with time (rule R134). -/
inductive HostLine where
  | success
  | failure
  | blockError (e : BlockError)
  | waited (length : Nat)
  | aborted (step : Nat) (why : AbortReason)
deriving DecidableEq, Repr

/-- The columns of a history, keyed by threshold or cycle (rule R109). -/
abbrev History := List (Nat × List Word32)

/-- What a campaign owns (rule R106): its cancellation flag, its current step, and the columns so far. -/
structure CampaignRun where
  cancel : Bool
  stepIndex : Nat
  history : History
deriving DecidableEq, Repr

/-- A campaign at its start. -/
def CampaignRun.fresh : CampaignRun := { cancel := false, stepIndex := 0, history := [] }

/-- A run of the host: the block it drives, what is still to happen during its waits, what happens around its operations, the
next one first (nothing when the list is used up), the active campaign, of which there is at most one (rule R107), and its
lines. -/
structure HostRun where
  block : State
  script : List Happening
  gaps : List Gap
  campaign : Option CampaignRun
  lines : List HostLine
deriving DecidableEq, Repr

/-- How a campaign step ends. -/
inductive StepResult where
  | vector (v : List Word32)
  | failed (why : AbortReason)
  | running
deriving DecidableEq, Repr

/-- How a campaign ends (rules R104, R105, R107); `notStarted` when a setting of its snapshot could not be made (log entry
17). -/
inductive CampaignResult where
  | completed (history : History)
  | cancelled (history : History)
  | aborted (step : Nat) (why : AbortReason) (history : History)
  | refused
  | notStarted (r : RetryResult)
  | running
deriving DecidableEq, Repr

/-! Driving the block. -/

/-- One step of the block; a run of the host never meets a refusal, since it issues only operations of rule R49. -/
def advance (s : State) : State :=
  match step s with
  | .next t => t
  | .fault _ => s
  | .refused _ => s

/-- The block takes `n` items. -/
def takeItems : Nat → State → State
  | 0, s => s
  | n + 1, s => takeItems n (advance s)

/-- The error an event reports. -/
def errorOf : Event → Option BlockError
  | .err _ e => some e
  | .frameSent _ _ _ => none
  | .trigSent _ => none
  | .hsReadyToAcquire _ => none
  | .hsUnsolicited _ _ => none
  | .expireIgnored _ => none
  | .ackNote _ _ => none
  | .ackAccepted _ => none
  | .dataDecoded _ _ => none
  | .crcValue _ => none
  | .status _ => none
  | .modeSet _ => none
  | .resetDone => none

/-- The errors reported after the first `n` events. -/
def errorsSince (n : Nat) (s : State) : List BlockError := (s.evt.drop n).filterMap errorOf

/-- A line for the console. -/
def say (l : HostLine) (h : HostRun) : HostRun := { h with lines := h.lines ++ [l] }

/-- The block moves on to `t`, and every error it reported meanwhile goes to the console (rule R108). -/
def follow (t : State) (h : HostRun) : HostRun :=
  { h with block := t, lines := h.lines ++ (errorsSince h.block.evt.length t).map .blockError }

/-- The active campaign's flag is set (rule R106); with no campaign there is no flag to set. -/
def requestCancel (h : HostRun) : HostRun := { h with campaign := h.campaign.map fun c => { c with cancel := true } }

/-- One happening. -/
def happen : Happening → HostRun → HostRun
  | .arrives b, h => { h with block := arriveDatagram b h.block }
  | .takes, h => follow (advance h.block) h
  | .cancels, h => requestCancel h
  | .elapses, h => h

/-- Happenings in their order. -/
def happenAll (xs : List Happening) (h : HostRun) : HostRun := xs.foldl (fun g x => happen x g) h

/-- What happens while an operation is queued behind `n` items, until it is the next to be taken: the block takes those items,
and no more of them than there are. -/
def untilTurn : List Happening → Nat → HostRun → HostRun
  | [], n, h => follow (takeItems n h.block) h
  | x :: rest, n, h =>
    if x ≠ .takes then untilTurn rest n (happen x h)
    else if n = 0 then untilTurn rest 0 h
    else untilTurn rest (n - 1) (happen .takes h)

/-- The host puts operation `i` on the queue, and it is the next item to be taken: with what happens before it is queued and
while it is (rule R31). -/
def offer (i : Instr) (h : HostRun) : HostRun :=
  let g := h.gaps.headD Gap.quiet
  let h1 := happenAll g.before { h with gaps := h.gaps.tail }
  untilTurn g.pending h1.block.queue.length { h1 with block := arrive (queueItem i) h1.block }

/-- The host issues operation `i`, and it is taken. With it, the error it raised. -/
def issue (i : Instr) (h : HostRun) : Option BlockError × HostRun :=
  let h1 := offer i h
  let after := advance h1.block
  ((errorsSince h1.block.evt.length after).head?, follow after h1)

/-- What happens, of the script `h` has, until `stop` holds or the time is over, whichever is first, and whether the wait is
over: it is still going on when neither is in the script. What the wait does not reach stays for the next one. -/
def waitOn (stop : State → Bool) : List Happening → HostRun → Bool × HostRun
  | [], h => (stop h.block, h)
  | x :: rest, h =>
    if stop h.block then (true, h)
    else if x = .elapses then (true, { h with script := rest })
    else waitOn stop rest (happen x { h with script := rest })

/-- A wait of the host, of length `w`, that ends early when `stop` holds, and whether it is over; when it is, the host reads
the block's state with STAT (rule R135). What happens between that STAT and the host's next operation is the operation's gap. -/
def wait (w : Nat) (stop : State → Bool) (h : HostRun) : Bool × HostRun :=
  match waitOn stop h.script h with
  | (true, h1) => (true, (issue .stat (say (.waited w) h1)).2)
  | (false, h1) => (false, h1)

/-! The procedures. -/

/-- The loop of `retryUntilAck` (rule R101); `attempts` counts the actions issued before. -/
def retryLoop (hp : HostParams) (action : Builder) : Nat → Nat → HostRun → RetryResult × HostRun
  | 0, _, h => (.running, h)
  | fuel + 1, attempts, h =>
    match issue action.instr h with
    | (some e, h1) => (.refused e, h1)
    | (none, h1) =>
      match wait Config.retryWindowMs State.replyFlag h1 with
      | (false, h2) => (.running, h2)
      | (true, h2) =>
        if h2.block.replyFlag then (.ok, say .success h2)
        else if hp.retryCap = some (attempts + 1) then (.gaveUp, say .failure h2)
        else retryLoop hp action fuel (attempts + 1) (say .failure h2)

/-- `retryUntilAck(action)` (rule R101): a wait without a reply uses up an `elapses` of the script, so the script's length
bounds the attempts of this run. -/
def retryUntilAck (hp : HostParams) (action : Builder) (h : HostRun) : RetryResult × HostRun :=
  retryLoop hp action (h.script.length + 1) 0 h

/-- Whether the handshake's wait is over (rule R102). -/
def handshakeOver (s : State) : Bool := s.hsState != .awaitingReply

/-- `repeat n times: wait; break unless AwaitingReply; EXPIRE` of rule R102. -/
def handshakeLoop (hp : HostParams) : Nat → HostRun → HandshakeResult × HostRun
  | 0, h => (.ended h.block.hsState, h)
  | n + 1, h =>
    match wait hp.hsWindow handshakeOver h with
    | (false, h1) => (.running, h1)
    | (true, h1) =>
      if handshakeOver h1.block then (.ended h1.block.hsState, h1)
      else handshakeLoop hp n (issue .expire h1).2

/-- `runHandshake()` (rule R102). -/
def runHandshake (hp : HostParams) (h : HostRun) : HandshakeResult × HostRun := handshakeLoop hp 2 (issue .trig h).2

/-- `readData()` (rule R103): the first vector decoded after the read frame (decision D38). The vectors are counted when the
read operation is next to be taken, so one decoded from a datagram queued before it is not the result (log entry 13). -/
def readData (hp : HostParams) (h : HostRun) : StepResult × HostRun :=
  let read : Builder := .build hp.dataReadCmd hp.dataReadPayload
  let n := (offer read.instr h).block.data.length
  match retryUntilAck hp read h with
  | (.running, h1) => (.running, h1)
  | (.refused e, h1) => (.failed (.retry (.refused e)), h1)
  | (.gaveUp, h1) => (.failed (.retry .gaveUp), h1)
  | (.ok, h1) =>
    match h1.block.data.drop n with
    | v :: _ => (.vector v, h1)
    | [] => (.failed .noData, h1)

/-- A retried action of a campaign step, then the rest `k` of the step. -/
def afterRetry (hp : HostParams) (action : Builder) (k : HostRun → StepResult × HostRun) (h : HostRun) :
    StepResult × HostRun :=
  match retryUntilAck hp action h with
  | (.ok, h1) => k h1
  | (.running, h1) => (.running, h1)
  | (.refused e, h1) => (.failed (.retry (.refused e)), h1)
  | (.gaveUp, h1) => (.failed (.retry .gaveUp), h1)

/-- Counter reset, handshake, data read: what the steps of both campaigns share (rules R104, R105). -/
def acquire (hp : HostParams) (h : HostRun) : StepResult × HostRun :=
  afterRetry hp (.cntrst hp.cntRstPayload)
    (fun h1 =>
      match runHandshake hp h1 with
      | (.ended .readyToAcquire, h2) => readData hp h2
      | (.ended .abnormal, h2) => (.failed (.handshake .abnormal), h2)
      | (.ended .idle, h2) => (.failed (.handshake .idle), h2)
      | (.ended .awaitingReply, h2) => (.failed (.handshake .awaitingReply), h2)
      | (.running, h2) => (.running, h2)) h

/-! Campaigns. -/

/-- Whether the active campaign's flag is set. -/
def cancelRequested (h : HostRun) : Bool :=
  match h.campaign with
  | some c => c.cancel
  | none => false

/-- The columns of the active campaign. -/
def historyOf (h : HostRun) : History :=
  match h.campaign with
  | some c => c.history
  | none => []

/-- The active campaign goes to step `i`. -/
def atStep (i : Nat) (h : HostRun) : HostRun :=
  { h with campaign := h.campaign.map fun c => { c with stepIndex := i } }

/-- A column is added to the active campaign's history. -/
def record (key : Nat) (v : List Word32) (h : HostRun) : HostRun :=
  { h with campaign := h.campaign.map fun c => { c with history := c.history ++ [(key, v)] } }

/-- `abort(step)`: the campaign ends with a diagnostic, which goes to the console (rule R108). -/
def abort (step : Nat) (why : AbortReason) (h : HostRun) : CampaignResult × HostRun :=
  (.aborted step why (historyOf h), say (.aborted step why) h)

/-- The loop of the S-curve campaign (rule R104) from step offset `offset`; the flag is checked once in each iteration (rule
R106). -/
def scurveLoop (hp : HostParams) (stepSize totalLength initialThreshold : Nat) : Nat → Nat → HostRun → CampaignResult × HostRun
  | 0, _, h => (.running, h)
  | fuel + 1, offset, h =>
    if offset < totalLength then
      if cancelRequested h then (.cancelled (historyOf h), h)
      else
        match afterRetry hp (.setthr (initialThreshold + offset)) (acquire hp) (atStep offset h) with
        | (.vector v, h1) =>
          scurveLoop hp stepSize totalLength initialThreshold fuel (offset + stepSize) (record (initialThreshold + offset) v h1)
        | (.failed why, h1) => abort offset why h1
        | (.running, h1) => (.running, h1)
    else (.completed (historyOf h), h)

/-- The S-curve campaign (rule R104); a zero step size is refused, and every other one ends within `totalLength` steps. -/
def scurve (hp : HostParams) (stepSize totalLength initialThreshold : Nat) (h : HostRun) : CampaignResult × HostRun :=
  if stepSize = 0 then (.refused, h)
  else scurveLoop hp stepSize totalLength initialThreshold (totalLength + 1) 0 h

/-- The loop of the periodic campaign (rule R105): `left` cycles to go, the next one is cycle `i`. -/
def periodicLoop (hp : HostParams) : Nat → Nat → HostRun → CampaignResult × HostRun
  | 0, _, h => (.completed (historyOf h), h)
  | left + 1, i, h =>
    if cancelRequested h then (.cancelled (historyOf h), h)
    else
      match acquire hp (atStep i h) with
      | (.vector v, h1) =>
        match wait hp.interCycleDelay (fun _ => false) (record i v h1) with
        | (false, h2) => (.running, h2)
        | (true, h2) => periodicLoop hp left (i + 1) h2
      | (.failed why, h1) => abort i why h1
      | (.running, h1) => (.running, h1)

/-- The periodic campaign (rule R105). -/
def periodic (hp : HostParams) (cycleCount : Nat) (h : HostRun) : CampaignResult × HostRun := periodicLoop hp cycleCount 0 h

/-- Which campaign runs, with its parameters (rules R104, R105). -/
inductive Plan where
  | scurve (stepSize totalLength initialThreshold : Nat)
  | periodic (cycleCount : Nat)
deriving DecidableEq, Repr

/-- The configuration snapshot a campaign is started with (rule R110): the mode, the device settings the operator chose
(threshold and acquisition time among them) as builders, and the campaign's parameters. -/
structure Snapshot where
  mode : AcqMode
  settings : List Builder
  plan : Plan
deriving DecidableEq, Repr

/-- The operand SETMODE takes for a mode (spec/10_state.md rule R15). -/
def modeNumber : AcqMode → Nat
  | .shortPacket => 0
  | .longPacket => 1
  | .clusterCount => 2
  | .hitCount => 3

/-- The device settings in their order, each through a retry (rule R124). The first retry that does not end in success ends
this with its result and the settings after it are not made: rules R110 and R124 do not say what the host does then, and this
is the model's choice (log entry 17). -/
def applySettings (hp : HostParams) : List Builder → HostRun → RetryResult × HostRun
  | [], h => (.ok, h)
  | a :: rest, h =>
    match retryUntilAck hp a h with
    | (.ok, h1) => applySettings hp rest h1
    | (.refused e, h1) => (.refused e, h1)
    | (.gaveUp, h1) => (.gaveUp, h1)
    | (.running, h1) => (.running, h1)

/-- The host applies its snapshot (rules R110, R124): the mode first, then the settings. -/
def applySnapshot (hp : HostParams) (c : Snapshot) (h : HostRun) : RetryResult × HostRun :=
  applySettings hp c.settings (issue (.setmode (modeNumber c.mode)) h).2

/-- The steps of a plan. -/
def runPlan (hp : HostParams) : Plan → HostRun → CampaignResult × HostRun
  | .scurve stepSize totalLength initialThreshold, h => scurve hp stepSize totalLength initialThreshold h
  | .periodic cycleCount, h => periodic hp cycleCount h

/-- A campaign that ended is no longer active: its flag and its history go with it. -/
def endCampaign (r : CampaignResult × HostRun) : CampaignResult × HostRun := (r.1, { r.2 with campaign := none })

/-- What follows the snapshot (rule R124): the plan's steps when every setting was made. A campaign that is still running
stays the active one. -/
def afterSnapshot (hp : HostParams) (plan : Plan) : RetryResult × HostRun → CampaignResult × HostRun
  | (.running, h) => (.running, h)
  | (.refused e, h) => endCampaign (.notStarted (.refused e), h)
  | (.gaveUp, h) => endCampaign (.notStarted .gaveUp, h)
  | (.ok, h) =>
    match runPlan hp plan h with
    | (.running, h1) => (.running, h1)
    | r => endCampaign r

/-- A campaign from its snapshot to its end (rules R110, R124): it begins with a flag of its own, not set (rule R106); the
snapshot is applied before the first step, and no step changes the mode or a setting but the S-curve's threshold. While a
campaign is active another is refused (rule R107, log entry 17). -/
def runCampaign (hp : HostParams) (c : Snapshot) (h : HostRun) : CampaignResult × HostRun :=
  match h.campaign with
  | some _ => (.refused, h)
  | none => afterSnapshot hp c.plan (applySnapshot hp c { h with campaign := some CampaignRun.fresh })

/-- What a campaign hands to the Spectrum Sink (rules R104, R106, R109): on completion, on cancellation, and, with the
diagnostic, on an abort (decision D39). -/
def exportedHistory : CampaignResult → Option History
  | .completed history => some history
  | .cancelled history => some history
  | .aborted _ _ history => some history
  | .refused => none
  | .notStarted _ => none
  | .running => none

/-- The row of channel `j` of an exported history: one value for each column (rule R109). -/
def exportedRow (history : History) (j : Nat) : List (Option Word32) := history.map fun column => column.2[j]?

/-- The host's loop test (rule R60), with its payload parameter. That the host retries it on silence is the model's choice (log
entry 13): rule R60 gives the operation, and no rule a host procedure for it. -/
def loopTest (hp : HostParams) (h : HostRun) : RetryResult × HostRun := retryUntilAck hp (.looptest hp.loopTestPayload) h

/-- The host's single-channel threshold tuning (rule R63): the channel bound is checked here, since the block cannot.
That the host retries it on silence is the model's choice (log entry 13): no rule gives a host procedure for it. -/
def tuneChannel (hp : HostParams) (channel : Nat) (h : HostRun) : Option (RetryResult × HostRun) :=
  if channel > hp.chThrChannelMax then none else some (retryUntilAck hp (.chthr hp.chThrPayload) h)

end Sys2Proof.Machine
end

