-- ==== Sys2Proof/Safety.lean ====
section
/-! DEFINITION. The terms claims about runs of the block use: what a frame-sending operation leaves, what a reply's checks see,
counts over the streams, the invariant every step keeps, and when a queue runs without a refusal. -/

namespace Sys2Proof.Machine

/-! Sending. -/

/-- An instruction frame with command `cmd` and payload `p` can go out: the payload fits and a number is left (rules R57,
R59). -/
def canSend (p : Buffer) (s : State) : Prop :=
  (∀ m, s.params.maxPayloadLen = some m → p.length ≤ m) ∧ s.seq ≠ 65535#16

/-- The number the next instruction frame carries (rule R57). -/
def nextNumber (s : State) : Word16 :=
  match s.params.seqOrder with
  | .post => s.seq
  | .pre => s.seq + 1#16

/-- The state rule R59 gives when the frame goes out; everything not named is as before. -/
def afterBuild (cmd : Byte) (p : Buffer) (s : State) : State :=
  { s with
    seq := s.seq + 1#16
    lastSeq := some (nextNumber s)
    replyFlag := false
    tx := s.tx ++ [frame (nextNumber s) cmd p]
    evt := s.evt ++ [.frameSent (nextNumber s) cmd (8 + p.length)] }

/-- The state after an error with no write before it (rule R111): only the error event is new. -/
def afterError (e : BlockError) (s : State) : State := { s with evt := s.evt ++ [.err (errorCode e) e] }

/-- The state after an informational event and nothing else. -/
def afterEvent (e : Event) (s : State) : State := { s with evt := s.evt ++ [e] }

/-! Instructions by what they are. -/

/-- The operations that build an instruction frame: BUILD and the typed builders, as commands (rule R51). -/
def isBuilder : Instr → Bool
  | .build _ _ | .looptest _ | .ctrlrd | .fpgarst | .chthr _ | .cntrst _ | .ctrlwr _ _ _ _ _ _ | .setthr _ | .setacq _
  | .setdac _ | .setint _ => true
  | .trig | .expire | .setmode _ | .stat | .reset | .crc _ | .rx _ => false
  | .txBuild _ _ _ | .txLooptest _ _ | .txCtrlrd _ | .txFpgarst _ | .txChthr _ _ | .txCntrst _ _
  | .txCtrlwr _ _ _ _ _ _ _ | .txSetthr _ _ | .txSetacq _ _ | .txSetdac _ _ | .txSetint _ _ | .txTrigger => false
  | .rxHsZero _ | .rxHsReady _ | .rxHsFormat _ | .rxHsFail _ | .rxDataZero _ | .rxAck _ | .rxDataShort _ | .rxDataFull _
  | .rxMalformed _ => false

/-- The rows of the frames the builders send. -/
def isFrameRow : Instr → Bool
  | .txBuild _ _ _ | .txLooptest _ _ | .txCtrlrd _ | .txFpgarst _ | .txChthr _ _ | .txCntrst _ _
  | .txCtrlwr _ _ _ _ _ _ _ | .txSetthr _ _ | .txSetacq _ _ | .txSetdac _ _ | .txSetint _ _ => true
  | .txTrigger => false
  | .build _ _ | .looptest _ | .ctrlrd | .fpgarst | .chthr _ | .cntrst _ | .ctrlwr _ _ _ _ _ _ | .setthr _ | .setacq _
  | .setdac _ | .setint _ => false
  | .trig | .expire | .setmode _ | .stat | .reset | .crc _ | .rx _ => false
  | .rxHsZero _ | .rxHsReady _ | .rxHsFormat _ | .rxHsFail _ | .rxDataZero _ | .rxAck _ | .rxDataShort _ | .rxDataFull _
  | .rxMalformed _ => false

/-- A datagram's instruction: the RX operation, or a class row. -/
def isReceive : Instr → Bool
  | .rx _ => true
  | .rxHsZero _ | .rxHsReady _ | .rxHsFormat _ | .rxHsFail _ | .rxDataZero _ | .rxAck _ | .rxDataShort _ | .rxDataFull _
  | .rxMalformed _ => true
  | .build _ _ | .looptest _ | .ctrlrd | .fpgarst | .chthr _ | .cntrst _ | .ctrlwr _ _ _ _ _ _ | .setthr _ | .setacq _
  | .setdac _ | .setint _ => false
  | .trig | .expire | .setmode _ | .stat | .reset | .crc _ => false
  | .txBuild _ _ _ | .txLooptest _ _ | .txCtrlrd _ | .txFpgarst _ | .txChthr _ _ | .txCntrst _ _
  | .txCtrlwr _ _ _ _ _ _ _ | .txSetthr _ _ | .txSetacq _ _ | .txSetdac _ _ | .txSetint _ _ | .txTrigger => false

/-- The classes of EB90 replies that carry data (spec/00_scope.md, glossary). -/
def isDataClass : RxClass → Bool
  | .dataZero | .dataShort | .dataFull => true
  | .hsReady | .hsZero | .hsFormat | .hsFail | .ack | .malformed => false

/-- The datagram with class `c`: its length and its class in mode `m` (rules R43, R74). -/
def hasClass (b : Buffer) (m : Mode) (c : RxClass) : Prop := b.length = 138 ∧ classify b m = c

/-- The offset of the CRC field of an EB90 reply (rule R78). -/
def crcOffset : RxClass → Nat
  | .ack => 8
  | .dataShort => 72
  | .dataZero | .dataFull | .hsReady | .hsZero | .hsFormat | .hsFail | .malformed => 136

/-! Replies. -/

/-- The note events of an EB90 reply whose ack code `x` counts or not (rules R77, R78). -/
def noteEvents (counts : Bool) (x : Byte) : List Event :=
  match counts, ackNote x with
  | true, some n => [.ackNote x n]
  | true, none => []
  | false, _ => []

/-- The state past the `MODE_UNSET` check: the flag is set (rule R79), and the events `es` are reported. -/
def afterReply (es : List Event) (s : State) : State := { s with replyFlag := true, evt := s.evt ++ es }

/-- Whether the ack code of a reply of class `c` counts under the parameters (rule R78). -/
def codeCounts (c : RxClass) (s : State) : Bool := c == .ack || s.params.ackGateData

/-- The CRC check is on and fails. -/
def crcFails (info : ReplyInfo) (s : State) : Prop := s.params.crcCheckOnReceive = true ∧ info.crcField ≠ info.crcCalc

/-- The sequence-echo check is on and fails: no frame was sent yet, or the last one had another number. -/
def echoFails (info : ReplyInfo) (s : State) : Prop :=
  s.params.seqEchoCheck = true ∧ (s.lastSeq = none ∨ ∃ n, s.lastSeq = some n ∧ info.seqEcho ≠ n)

/-- Bytes `a` to `c - 1` of a buffer all equal `v`. -/
def allBytes (b : Buffer) (a c : Nat) (v : Byte) : Prop := ∀ i, a ≤ i → i < c → byteAt b i = v

/-- The first two bytes are EB 90 (so the first five are neither all 0x11 nor all 0x00): an EB90 reply (rule R74). -/
def isEb90 (b : Buffer) : Prop := byteAt b 0 = 0xEB#8 ∧ byteAt b 1 = 0x90#8

/-- Whether an EB90 reply of class `c` passes the `MODE_UNSET` check in mode `m` (rules R78, R79). -/
def passesModeCheck (c : RxClass) (m : Mode) : Prop := c = .ack ∨ (isDataClass c = true ∧ m ≠ .unset)

/-! The handshake's transition table (spec/44_trigger_handshake.md rule R94). -/

/-- The table's columns. -/
inductive HsInput where
  | trig | ready (x : Byte) | zero | fail | format (status : Buffer) | expire
deriving DecidableEq, Repr

/-- A cell of the table: `HS_STATE` and `HS_ATTEMPT` after, whether a trigger frame goes out, and the event. -/
structure HsCell where
  state : HsState
  attempt : Fin 2
  trigger : Bool
  event : Event
deriving DecidableEq, Repr

/-- The cells of the three rows other than AwaitingReply, for the state `h`. -/
def heldCell (h : HsState) : HsInput → HsCell
  | .trig => ⟨.awaitingReply, 0, true, .trigSent 0⟩
  | .ready _ => ⟨h, 0, false, .hsUnsolicited .hsReady h⟩
  | .zero => ⟨h, 0, false, .hsUnsolicited .hsZero h⟩
  | .fail => ⟨h, 0, false, .hsUnsolicited .hsFail h⟩
  | .format st => ⟨h, 0, false, .err 0x03#8 (.hsFormatErr st)⟩
  | .expire => ⟨h, 0, false, .expireIgnored h⟩

/-- The cells of the row AwaitingReply, for the attempt `a`. -/
def awaitingCell (a : Fin 2) : HsInput → HsCell
  | .trig => ⟨.awaitingReply, 0, true, .trigSent 0⟩
  | .ready x => ⟨.readyToAcquire, 0, false, .hsReadyToAcquire x⟩
  | .zero => ⟨.abnormal, 0, false, .err 0x06#8 (.hsAbnormal .allZeros)⟩
  | .fail => ⟨.abnormal, 0, false, .err 0x06#8 (.hsAbnormal .failSignal)⟩
  | .format st => ⟨.awaitingReply, a, false, .err 0x03#8 (.hsFormatErr st)⟩
  | .expire => if a = 0 then ⟨.awaitingReply, 1, true, .trigSent 1⟩ else ⟨.idle, 0, false, .err 0x07#8 .hsTimeout⟩

/-- The transition table. -/
def handshakeTable (h : HsState) (a : Fin 2) (x : HsInput) : HsCell :=
  match h with
  | .idle => heldCell .idle x
  | .awaitingReply => awaitingCell a x
  | .abnormal => heldCell .abnormal x
  | .readyToAcquire => heldCell .readyToAcquire x

/-- `t` is `s` after the handshake input of a cell: the cell's entries, and nothing else but the flag a trigger frame clears. -/
def followsCell (s : State) (c : HsCell) : State :=
  { s with
    hsState := c.state
    hsAttempt := c.attempt
    replyFlag := if c.trigger then false else s.replyFlag
    tx := if c.trigger then s.tx ++ [triggerFrame] else s.tx
    evt := s.evt ++ [c.event] }

/-! Counts over the streams. -/

/-- An instruction frame was sent. -/
def isFrameSent : Event → Bool
  | .frameSent _ _ _ => true
  | .trigSent _ | .hsReadyToAcquire _ | .hsUnsolicited _ _ | .expireIgnored _ | .ackNote _ _ | .ackAccepted _
  | .dataDecoded _ _ | .crcValue _ | .status _ | .modeSet _ | .resetDone | .err _ _ => false

/-- A trigger frame was sent. -/
def isTrigSent : Event → Bool
  | .trigSent _ => true
  | .frameSent _ _ _ | .hsReadyToAcquire _ | .hsUnsolicited _ _ | .expireIgnored _ | .ackNote _ _ | .ackAccepted _
  | .dataDecoded _ _ | .crcValue _ | .status _ | .modeSet _ | .resetDone | .err _ _ => false

/-- A data reply was decoded. -/
def isDataDecoded : Event → Bool
  | .dataDecoded _ _ => true
  | .frameSent _ _ _ | .trigSent _ | .hsReadyToAcquire _ | .hsUnsolicited _ _ | .expireIgnored _ | .ackNote _ _
  | .ackAccepted _ | .crcValue _ | .status _ | .modeSet _ | .resetDone | .err _ _ => false

/-- An error event. -/
def isError : Event → Bool
  | .err _ _ => true
  | .frameSent _ _ _ | .trigSent _ | .hsReadyToAcquire _ | .hsUnsolicited _ _ | .expireIgnored _ | .ackNote _ _
  | .ackAccepted _ | .dataDecoded _ _ | .crcValue _ | .status _ | .modeSet _ | .resetDone => false

/-- How many instruction frames a stream of events reports. -/
def framesReported (es : List Event) : Nat := es.countP isFrameSent

/-- How many trigger frames a stream of events reports. -/
def triggersReported (es : List Event) : Nat := es.countP isTrigSent

/-- How many decoded replies a stream of events reports. -/
def repliesDecoded (es : List Event) : Nat := es.countP isDataDecoded

/-- How many trigger literals a TX stream holds. -/
def triggerFrames (fs : List Buffer) : Nat := fs.countP (· == triggerFrame)

/-- The events a step adds hold an error only at their end (spec/60_exceptions.md rule R115). -/
def errorOnlyLast (es : List Event) : Prop := ∀ e ∈ es.dropLast, isError e = false

/-! The invariant. -/

/-- A frame of the TX stream: the trigger literal, or an instruction frame of rule R37 with a number of rule R13. -/
def sentFrame (f : Buffer) : Prop := f = triggerFrame ∨ ∃ n cmd p, n ≠ 0#16 ∧ f = frame n cmd p

/-- `LAST_SEQ` and `SEQ` agree (rules R13, R14, R57): nothing sent and the counter at its start, or the last number sent
just below the counter (`POST`) or equal to it (`PRE`). -/
def lastSeqAgrees (s : State) : Prop :=
  match s.lastSeq, s.params.seqOrder with
  | none, _ => s.seq = 1#16
  | some n, .post => 1 ≤ n.toNat ∧ n.toNat + 1 = s.seq.toNat
  | some n, .pre => 2 ≤ n.toNat ∧ n = s.seq

/-- What the spec's rules promise of every state of a run. -/
structure Inv (s : State) : Prop where
  /-- `SEQ` is in 1..65535 (rule R13). -/
  seqPositive : s.seq ≠ 0#16
  /-- `HS_ATTEMPT = 1` only in AwaitingReply (rules R17, R95 (c)). -/
  attemptAwaiting : s.hsAttempt ≠ 0 → s.hsState = .awaitingReply
  /-- `LAST_SEQ` is the number before the counter (rules R14, R57). -/
  lastSeq : lastSeqAgrees s
  /-- Every frame sent is the literal or an instruction frame (rules R19, R37, R39). -/
  frames : ∀ f ∈ s.tx, sentFrame f
  /-- Every decoded vector has a mode's length (rule R82). -/
  vectors : ∀ v ∈ s.data, v.length = 32 ∨ v.length = 63
  /-- Each frame has its event (rules R59, R89, R93). -/
  txReported : s.tx.length = framesReported s.evt + triggersReported s.evt
  /-- Each vector has its event (rules R78, R87). -/
  dataReported : s.data.length = repliesDecoded s.evt
  /-- An error event carries its code (rules R111, R112). -/
  errorCodes : ∀ code e, Event.err code e ∈ s.evt → code = errorCode e

/-! Runs. -/

/-- A queue none of whose items is refused. -/
def runnable (s : State) : Prop := ∀ x ∈ s.queue, ∃ i, itemInstr x = .ok i

/-- A command that starts or ends a handshake from outside: TRIG or RESET (rule R95 (b)). -/
def startsOrResets : Item → Bool
  | .cmd c => c.op == 0x0C#8 || c.op == 0x10#8
  | .rx _ => false

/-- A RESET command. -/
def isReset : Item → Bool
  | .cmd c => c.op == 0x10#8
  | .rx _ => false

/-- `s` with its three streams emptied: what an operation may read of them is nothing (rule R19). -/
def withoutStreams (s : State) : State := { s with tx := [], evt := [], data := [] }

/-- `t` with the streams of `s` before its own. -/
def afterStreams (s t : State) : State := { t with tx := s.tx ++ t.tx, evt := s.evt ++ t.evt, data := s.data ++ t.data }

end Sys2Proof.Machine
end

