-- ==== Sys2Proof/Certificates/Slice0/Obligations.lean ====
section
/-! DEFINITION. The statements about the block for the provers. `exec i s = .next t` is written out with the whole state t
wherever the spec gives it, so such a statement is the instruction's result, its completion and its frame at once. -/

open Sys2Proof Sys2Proof.Machine

/-! The CRC generator. -/

/-- Rule R54: the byte step, the fold, and the two consequences (a) and (b). -/
def Obligations.CrcIsTheFoldOfItsByteStep : Prop :=
  (∀ (reg : Word16) (x : Byte),
    let turn : Word16 → Word16 := fun r => if r.getLsbD 15 then (r <<< 1) ^^^ 0x1021#16 else r <<< 1
    crcStep reg x = turn (turn (turn (turn (turn (turn (turn (turn (reg ^^^ (x.zeroExtend 16 <<< 8)))))))))) ∧
  (∀ d : Buffer, crc16 d = d.foldl crcStep 0xFFFF#16) ∧
  (∀ d e : Buffer, crc16 (d ++ e) = e.foldl crcStep (crc16 d)) ∧
  (∀ d : Buffer, (bytes16 (crc16 d)).foldl crcStep (crc16 d) = 0x0000#16) ∧
  crcStep 0x0000#16 0x00#8 = 0x0000#16

/-- The source's two check values (rule R53). -/
def Obligations.CrcCheckValues : Prop :=
  crc16 [] = 0xFFFF#16 ∧
  crc16 [0x31#8, 0x32#8, 0x33#8, 0x34#8, 0x35#8, 0x36#8, 0x37#8, 0x38#8, 0x39#8] = 0x29B1#16

/-- Rule R55: CRC reports the value and changes no register. -/
def Obligations.CrcReportsItsValue : Prop :=
  ∀ s : State,
    (∀ d : Buffer, exec (.crc d) s = .next { s with evt := s.evt ++ [.crcValue (crc16 d)] }) ∧
    exec (.crc []) s = .next { s with evt := s.evt ++ [.crcValue 0xFFFF#16] } ∧
    exec (.crc [0x31#8, 0x32#8, 0x33#8, 0x34#8, 0x35#8, 0x36#8, 0x37#8, 0x38#8, 0x39#8]) s =
      .next { s with evt := s.evt ++ [.crcValue 0x29B1#16] }

/-! Frames. -/

/-- Rule R70: the fields of an emitted frame come back by offset slicing, and its CRC residue is zero. -/
def Obligations.FrameFieldsComeBackBySlicing : Prop :=
  ∀ (cmd : Byte) (p : Buffer) (s : State), canSend p s →
    ∃ t f, exec (.build cmd p) s = .next t ∧ t.tx = s.tx ++ [f] ∧
      slice f 0 2 = [0xEB#8, 0x90#8] ∧ be16 f 2 = nextNumber s ∧ byteAt f 4 = 0x00#8 ∧ byteAt f 5 = cmd ∧
      slice f 6 (6 + p.length) = p ∧
      be16 f (f.length - 2) = crc16 (slice f 2 (f.length - 2)) ∧ crc16 (slice f 2 f.length) = 0x0000#16

/-- Rule R38: an instruction frame has 8 bytes and its payload; a 16-bit value makes it 10. -/
def Obligations.FrameLengthIsEightAndThePayload : Prop :=
  ∀ (seq : Word16) (cmd : Byte),
    (∀ p : Buffer, (frame seq cmd p).length = 8 + p.length) ∧
    (∀ v : Word16, (frame seq cmd (bytes16 v)).length = 10) ∧
    (frame seq cmd []).length = 8

/-- Rule R39: the trigger literal is no instruction frame; the CRC of its bytes 2 to 7 would be 0x4500. -/
def Obligations.TriggerLiteralIsNoInstructionFrame : Prop :=
  triggerFrame = [0xEB#8, 0x90#8, 0x00#8, 0x00#8, 0x00#8, 0x0C#8, 0xAE#8, 0x00#8, 0x00#8, 0x00#8] ∧
  crc16 (slice triggerFrame 2 8) = 0x4500#16 ∧
  ∀ (seq : Word16) (cmd : Byte) (p : Buffer), frame seq cmd p ≠ triggerFrame

/-- Rule R42: every field of the control word lies where the table puts it, and bits 7 to 5 are 0. -/
def Obligations.ControlWordHoldsItsFields : Prop :=
  ∀ tc ft sr tse dm wm : Nat, tc ≤ 3 → ft ≤ 3 → sr ≤ 15 → tse ≤ 1 → dm ≤ 3 → wm ≤ 3 →
    let w := ctrlWord tc ft sr tse dm wm
    (w.extractLsb' 14 2).toNat = tc ∧ (w.extractLsb' 12 2).toNat = ft ∧ (w.extractLsb' 8 4).toNat = sr ∧
    w.extractLsb' 5 3 = 0#3 ∧ (w.extractLsb' 4 1).toNat = tse ∧ (w.extractLsb' 2 2).toNat = dm ∧
    (w.extractLsb' 0 2).toNat = wm ∧
    bytes16 w = ctrlBytes (BitVec.ofNat 2 tc) (BitVec.ofNat 2 ft) (BitVec.ofNat 4 sr) (BitVec.ofNat 1 tse)
      (BitVec.ofNat 2 dm) (BitVec.ofNat 2 wm)

/-! The encoder. -/

/-- Rule R59, with the allocation of rule R57: BUILD sends, or reports the first error it tests and changes no register. -/
def Obligations.BuildSendsOrReports : Prop :=
  ∀ (cmd : Byte) (p : Buffer) (s : State),
    (canSend p s → exec (.build cmd p) s = .next (afterBuild cmd p s)) ∧
    ((∃ m, s.params.maxPayloadLen = some m ∧ m < p.length) →
      exec (.build cmd p) s = .next (afterError (.valueOutOfRange .payloadLen p.length) s)) ∧
    ((∀ m, s.params.maxPayloadLen = some m → p.length ≤ m) → s.seq = 65535#16 →
      exec (.build cmd p) s = .next (afterError (.seqOverflow 65535#16) s))

/-- Rule R51: every builder is BUILD with its command code and payload, after its range check. -/
def Obligations.BuildersExpandToBuild : Prop :=
  ∀ s : State,
    (∀ p, exec (.looptest p) s = exec (.build 0x01#8 p) s) ∧
    exec .ctrlrd s = exec (.build 0x01#8 [0x02#8, 0x00#8]) s ∧
    exec .fpgarst s = exec (.build 0x01#8 [0x01#8, 0x00#8]) s ∧
    (∀ p, exec (.chthr p) s = exec (.build 0x02#8 p) s) ∧
    (∀ p, exec (.cntrst p) s = exec (.build 0x03#8 p) s) ∧
    (∀ tc ft sr tse dm wm, tc ≤ 3 → ft ≤ 3 → sr ≤ 15 → tse ≤ 1 → dm ≤ 3 → wm ≤ 3 →
      exec (.ctrlwr tc ft sr tse dm wm) s = exec (.build 0x04#8 (bytes16 (ctrlWord tc ft sr tse dm wm))) s) ∧
    (∀ v, v ≤ 4095 → exec (.setthr v) s = exec (.build 0x05#8 (bytes16 (BitVec.ofNat 16 v))) s) ∧
    (∀ v, v ≤ 65535 → exec (.setacq v) s = exec (.build 0x06#8 (bytes16 (BitVec.ofNat 16 v))) s) ∧
    (∀ v, v ≤ 4095 → exec (.setdac v) s = exec (.build 0x07#8 (bytes16 (BitVec.ofNat 16 v))) s) ∧
    (∀ v, v ≤ 65535 → exec (.setint v) s = exec (.build 0x08#8 (bytes16 (BitVec.ofNat 16 v))) s)

/-- What LOOPTEST, CTRLRD, FPGARST, CHTHR and CNTRST send, what they report, and all they change (spec/41_frame_encoder.md
section 3). That CTRLRD and FPGARST report a too long payload, when `MAX_PAYLOAD_LEN` is below 2, is the model's choice (log
entry 16): their rules name `SEQ_OVERFLOW` only. -/
def Obligations.PlainBuildersSendTheirFrames : Prop :=
  ∀ s : State,
    let builds (i : Instr) (cmd : Byte) (p : Buffer) : Prop :=
      (canSend p s → exec i s = .next (afterBuild cmd p s)) ∧
      ((∃ m, s.params.maxPayloadLen = some m ∧ m < p.length) →
        exec i s = .next (afterError (.valueOutOfRange .payloadLen p.length) s)) ∧
      ((∀ m, s.params.maxPayloadLen = some m → p.length ≤ m) → s.seq = 65535#16 →
        exec i s = .next (afterError (.seqOverflow 65535#16) s))
    (∀ p, builds (.looptest p) 0x01#8 p) ∧
    builds .ctrlrd 0x01#8 [0x02#8, 0x00#8] ∧
    builds .fpgarst 0x01#8 [0x01#8, 0x00#8] ∧
    (∀ p, builds (.chthr p) 0x02#8 p) ∧
    (∀ p, builds (.cntrst p) 0x03#8 p)

/-- Rules R66 to R69 (with R58): each value builder sends `bytes16(v)`, or reports the first error it tests and changes no
register. -/
def Obligations.ValueBuildersCheckThenSend : Prop :=
  ∀ (v : Nat) (s : State),
    let p : Buffer := bytes16 (BitVec.ofNat 16 v)
    let builds (i : Instr) (cmd : Byte) (field : FieldId) (max : Nat) : Prop :=
      (max < v → exec i s = .next (afterError (.valueOutOfRange field v) s)) ∧
      (v ≤ max → canSend p s → exec i s = .next (afterBuild cmd p s)) ∧
      (v ≤ max → (∃ m, s.params.maxPayloadLen = some m ∧ m < 2) →
        exec i s = .next (afterError (.valueOutOfRange .payloadLen 2) s)) ∧
      (v ≤ max → (∀ m, s.params.maxPayloadLen = some m → 2 ≤ m) → s.seq = 65535#16 →
        exec i s = .next (afterError (.seqOverflow 65535#16) s))
    builds (.setthr v) 0x05#8 .threshold 4095 ∧ builds (.setacq v) 0x06#8 .acqTime 65535 ∧
    builds (.setdac v) 0x07#8 .scaleDac 4095 ∧ builds (.setint v) 0x08#8 .scaleInterval 65535

/-- Rule R65: CTRLWR sends the packed word, or reports the first field that is too wide, in operand order. -/
def Obligations.CtrlwrChecksInOrderThenSends : Prop :=
  ∀ (tc ft sr tse dm wm : Nat) (s : State),
    let w : Word16 := BitVec.ofNat 16 (tc <<< 14 ||| ft <<< 12 ||| sr <<< 8 ||| tse <<< 4 ||| dm <<< 2 ||| wm)
    let refuses (f : FieldId) (v : Nat) : Prop :=
      exec (.ctrlwr tc ft sr tse dm wm) s = .next (afterError (.valueOutOfRange f v) s)
    (3 < tc → refuses .ctrlTc tc) ∧
    (tc ≤ 3 → 3 < ft → refuses .ctrlFt ft) ∧
    (tc ≤ 3 → ft ≤ 3 → 15 < sr → refuses .ctrlSr sr) ∧
    (tc ≤ 3 → ft ≤ 3 → sr ≤ 15 → 1 < tse → refuses .ctrlTse tse) ∧
    (tc ≤ 3 → ft ≤ 3 → sr ≤ 15 → tse ≤ 1 → 3 < dm → refuses .ctrlDm dm) ∧
    (tc ≤ 3 → ft ≤ 3 → sr ≤ 15 → tse ≤ 1 → dm ≤ 3 → 3 < wm → refuses .ctrlWm wm) ∧
    (tc ≤ 3 → ft ≤ 3 → sr ≤ 15 → tse ≤ 1 → dm ≤ 3 → wm ≤ 3 → canSend (bytes16 w) s →
      exec (.ctrlwr tc ft sr tse dm wm) s = .next (afterBuild 0x04#8 (bytes16 w) s)) ∧
    (tc ≤ 3 → ft ≤ 3 → sr ≤ 15 → tse ≤ 1 → dm ≤ 3 → wm ≤ 3 → (∃ m, s.params.maxPayloadLen = some m ∧ m < 2) →
      exec (.ctrlwr tc ft sr tse dm wm) s = .next (afterError (.valueOutOfRange .payloadLen 2) s)) ∧
    (tc ≤ 3 → ft ≤ 3 → sr ≤ 15 → tse ≤ 1 → dm ≤ 3 → wm ≤ 3 →
      (∀ m, s.params.maxPayloadLen = some m → 2 ≤ m) → s.seq = 65535#16 →
      exec (.ctrlwr tc ft sr tse dm wm) s = .next (afterError (.seqOverflow 65535#16) s))

/-- Rules R57, R129: at `SEQ = 65535` no builder sends or changes a register; TRIG still sends. That the rows of the frames
do the same is the model's choice of what such a row runs (log entry 1). -/
def Obligations.ExhaustedSequenceStopsEveryBuilder : Prop :=
  ∀ (i : Instr) (s : State), s.seq = 65535#16 →
    ((isBuilder i = true ∨ isFrameRow i = true) →
      ∃ e, exec i s = .next (afterError e s) ∧ (e = .seqOverflow 65535#16 ∨ ∃ f v, e = .valueOutOfRange f v)) ∧
    ∃ t, exec .trig s = .next t ∧ t.seq = 65535#16 ∧ t.tx = s.tx ++ [triggerFrame]

/-- The TX rows (log entry 1, the model's choice): a row's instruction is the operation whose frame it is, on the operands
the frame carries; a payload longer than `MAX_PAYLOAD_LEN` is reported first, then the exhausted counter, as by BUILD. -/
def Obligations.FrameRowsRunTheirOperation : Prop :=
  ∀ (seq : Word16) (s : State),
    let runs (i : Instr) (cmd : Byte) (p : Buffer) : Prop :=
      (canSend p s → exec i s = .next (afterBuild cmd p s)) ∧
      ((∃ m, s.params.maxPayloadLen = some m ∧ m < p.length) →
        exec i s = .next (afterError (.valueOutOfRange .payloadLen p.length) s)) ∧
      ((∀ m, s.params.maxPayloadLen = some m → p.length ≤ m) → s.seq = 65535#16 →
        exec i s = .next (afterError (.seqOverflow 65535#16) s))
    (∀ cmd p, runs (.txBuild seq cmd p) cmd p) ∧
    (∀ p, runs (.txLooptest seq p) 0x01#8 p) ∧
    runs (.txCtrlrd seq) 0x01#8 [0x02#8, 0x00#8] ∧
    runs (.txFpgarst seq) 0x01#8 [0x01#8, 0x00#8] ∧
    (∀ p, runs (.txChthr seq p) 0x02#8 p) ∧
    (∀ p, runs (.txCntrst seq p) 0x03#8 p) ∧
    (∀ tc ft sr tse dm wm, runs (.txCtrlwr seq tc ft sr tse dm wm) 0x04#8 (ctrlBytes tc ft sr tse dm wm)) ∧
    (∀ v, v.toNat ≤ 4095 → runs (.txSetthr seq v) 0x05#8 (bytes16 v)) ∧
    (∀ v, runs (.txSetacq seq v) 0x06#8 (bytes16 v)) ∧
    (∀ v, v.toNat ≤ 4095 → runs (.txSetdac seq v) 0x07#8 (bytes16 v)) ∧
    (∀ v, runs (.txSetint seq v) 0x08#8 (bytes16 v)) ∧
    (∀ v, 4095 < v.toNat →
      exec (.txSetthr seq v) s = .next (afterError (.valueOutOfRange .threshold v.toNat) s) ∧
      exec (.txSetdac seq v) s = .next (afterError (.valueOutOfRange .scaleDac v.toNat) s)) ∧
    exec .txTrigger s = .next { s with
      hsState := .awaitingReply, hsAttempt := 0, replyFlag := false, tx := s.tx ++ [triggerFrame]
      evt := s.evt ++ [.trigSent 0] }

/-- A TX row whose number is the one allocated next sends exactly the frame it names (what a row runs: log entry 1). -/
def Obligations.FrameRowSendsItsOwnEncoding : Prop :=
  ∀ (i : Instr) (f : Buffer) (s : State), isFrameRow i = true → i.wf = true → encode i = .frame f →
    be16 f 2 = nextNumber s → s.seq ≠ 65535#16 → (∀ m, s.params.maxPayloadLen = some m → f.length ≤ 8 + m) →
    ∃ t, exec i s = .next t ∧ t.tx = s.tx ++ [f]

/-- Every frame a builder sends decodes to a well-formed TX row, and that row's meaning is what the builder did. What a row runs
(log entry 1), and that a frame's row is the narrowest (log entry 12), are the model's choices. -/
def Obligations.SentFrameDecodesToItsRow : Prop :=
  ∀ (i : Instr) (s t : State) (f : Buffer), isBuilder i = true → exec i s = .next t → t.tx = s.tx ++ [f] →
    ∃ j, decodeFrame f = .ok j ∧ isFrameRow j = true ∧ j.wf = true ∧ exec j s = .next t

/-- Rule R71: only BUILD moves `SEQ`, by exactly 1 for each frame it sends (frame rows run their operation, log entry 1). -/
def Obligations.OnlySuccessfulBuildsMoveSeq : Prop :=
  ∀ (i : Instr) (s t : State), exec i s = .next t → i ≠ .reset →
    t.seq.toNat + framesReported s.evt = s.seq.toNat + framesReported t.evt ∧
    (isBuilder i = false → isFrameRow i = false → t.seq = s.seq ∧ framesReported t.evt = framesReported s.evt) ∧
    (t.seq ≠ s.seq → t.seq = s.seq + 1#16 ∧ ∃ n cmd p, t.tx = s.tx ++ [frame n cmd p] ∧ t.lastSeq = some n)

/-- The counter over a run without RESET: after `n` more frames `SEQ` is `n` higher; from the reset state it is `1 + n`. -/
def Obligations.SeqCountsTheFramesOfARun : Prop :=
  (∀ (k : Nat) (s t : State), (∀ x ∈ s.queue, isReset x = false) → Host.Core.run Sys2Proof.core k s = .next t →
    t.seq.toNat + framesReported s.evt = s.seq.toNat + framesReported t.evt) ∧
  (∀ (k : Nat) (q : List Item) (t : State), (∀ x ∈ q, isReset x = false) →
    Host.Core.run Sys2Proof.core k (withQueue q State.reset) = .next t → t.seq.toNat = 1 + framesReported t.evt)

/-! The handshake. -/

/-- Rule R89: TRIG, in every state. -/
def Obligations.TrigSendsTheLiteral : Prop :=
  ∀ s : State, exec .trig s = .next { s with
    hsState := .awaitingReply, hsAttempt := 0, replyFlag := false
    tx := s.tx ++ [[0xEB#8, 0x90#8, 0x00#8, 0x00#8, 0x00#8, 0x0C#8, 0xAE#8, 0x00#8, 0x00#8, 0x00#8]]
    evt := s.evt ++ [.trigSent 0] }

/-- Rule R93: EXPIRE re-sends once, then times out; outside AwaitingReply it is only an event. -/
def Obligations.ExpireEscalatesThenTimesOut : Prop :=
  ∀ s : State,
    (s.hsState = .awaitingReply → s.hsAttempt = 0 →
      exec .expire s = .next { s with
        hsAttempt := 1, replyFlag := false, tx := s.tx ++ [triggerFrame], evt := s.evt ++ [.trigSent 1] }) ∧
    (s.hsState = .awaitingReply → s.hsAttempt ≠ 0 →
      exec .expire s = .next { s with
        hsState := .idle, hsAttempt := 0, evt := s.evt ++ [.err 0x07#8 .hsTimeout] }) ∧
    (s.hsState ≠ .awaitingReply → exec .expire s = .next (afterEvent (.expireIgnored s.hsState) s))

/-- The handshake-class rows, in AwaitingReply and outside it (rules R90, R91, R92; that a row runs its class's processing is log
entry 9, the model's choice). -/
def Obligations.HandshakeRepliesMoveOnlyAwaitingReply : Prop :=
  ∀ (b : Buffer) (s : State),
    (s.hsState = .awaitingReply →
      exec (.rxHsReady b) s = .next { s with
        hsState := .readyToAcquire, hsAttempt := 0, evt := s.evt ++ [.hsReadyToAcquire (byteAt b 5)] } ∧
      exec (.rxHsZero b) s = .next { s with
        hsState := .abnormal, hsAttempt := 0, evt := s.evt ++ [.err 0x06#8 (.hsAbnormal .allZeros)] } ∧
      exec (.rxHsFail b) s = .next { s with
        hsState := .abnormal, hsAttempt := 0, evt := s.evt ++ [.err 0x06#8 (.hsAbnormal .failSignal)] }) ∧
    (s.hsState ≠ .awaitingReply →
      exec (.rxHsReady b) s = .next (afterEvent (.hsUnsolicited .hsReady s.hsState) s) ∧
      exec (.rxHsZero b) s = .next (afterEvent (.hsUnsolicited .hsZero s.hsState) s) ∧
      exec (.rxHsFail b) s = .next (afterEvent (.hsUnsolicited .hsFail s.hsState) s)) ∧
    exec (.rxHsFormat b) s = .next (afterError (.hsFormatErr (slice b 5 10)) s)

/-- Rule R94: the transition table, every cell of it, for the operations and for datagrams by their class. -/
def Obligations.HandshakeFollowsItsTable : Prop :=
  ∀ (b : Buffer) (s : State), (s.hsAttempt ≠ 0 → s.hsState = .awaitingReply) →
    exec .trig s = .next (followsCell s (handshakeTable s.hsState s.hsAttempt .trig)) ∧
    exec .expire s = .next (followsCell s (handshakeTable s.hsState s.hsAttempt .expire)) ∧
    (hasClass b s.mode .hsReady →
      exec (.rx b) s = .next (followsCell s (handshakeTable s.hsState s.hsAttempt (.ready 0x22#8)))) ∧
    (hasClass b s.mode .hsZero → exec (.rx b) s = .next (followsCell s (handshakeTable s.hsState s.hsAttempt .zero))) ∧
    (hasClass b s.mode .hsFail → exec (.rx b) s = .next (followsCell s (handshakeTable s.hsState s.hsAttempt .fail))) ∧
    (hasClass b s.mode .hsFormat →
      exec (.rx b) s = .next (followsCell s (handshakeTable s.hsState s.hsAttempt (.format (slice b 5 10))))) ∧
    ∃ t, exec .reset s = .next t ∧ t.hsState = .idle ∧ t.hsAttempt = 0

/-- The only events that move `HS_STATE` (rules R88 to R95): no other instruction of the table does (what exec of a row of a frame or
a class does is log entries 1 and 9). -/
def Obligations.OnlyHandshakeInputsMoveTheHandshake : Prop :=
  ∀ (i : Instr) (s t : State), exec i s = .next t →
    (t.hsState = s.hsState ∧ t.hsAttempt = s.hsAttempt) ∨
    ((i = .trig ∨ i = .txTrigger) ∧ t.hsState = .awaitingReply ∧ t.hsAttempt = 0) ∨
    (i = .reset ∧ t.hsState = .idle ∧ t.hsAttempt = 0) ∨
    (s.hsState = .awaitingReply ∧
      ((i = .expire ∧ s.hsAttempt = 0 ∧ t.hsState = .awaitingReply ∧ t.hsAttempt = 1) ∨
       (i = .expire ∧ s.hsAttempt ≠ 0 ∧ t.hsState = .idle ∧ t.hsAttempt = 0) ∨
       (∃ b, (i = .rxHsReady b ∨ (i = .rx b ∧ hasClass b s.mode .hsReady)) ∧
          t.hsState = .readyToAcquire ∧ t.hsAttempt = 0) ∨
       (∃ b, (i = .rxHsZero b ∨ i = .rxHsFail b ∨
            (i = .rx b ∧ (hasClass b s.mode .hsZero ∨ hasClass b s.mode .hsFail))) ∧
          t.hsState = .abnormal ∧ t.hsAttempt = 0)))

/-- Rule R95 (a): no handshake input changes `SEQ` or `LAST_SEQ` (what exec of a class row does is log entry 9). -/
def Obligations.HandshakeInputsKeepTheSequence : Prop :=
  ∀ (i : Instr) (s t : State), (i = .trig ∨ i = .txTrigger ∨ i = .expire ∨ isReceive i = true) → exec i s = .next t →
    t.seq = s.seq ∧ t.lastSeq = s.lastSeq ∧ t.mode = s.mode

/-- Rule R95 (b): between one TRIG and the next TRIG or RESET, whatever else is taken, at most two trigger frames go out. -/
def Obligations.OneHandshakeSendsAtMostTwoTriggers : Prop :=
  ∀ (k : Nat) (s t u : State), exec .trig s = .next t → (∀ x ∈ t.queue, startsOrResets x = false) →
    Host.Core.run Sys2Proof.core k t = .next u → triggerFrames u.tx ≤ triggerFrames s.tx + 2

/-! Receiving. -/

/-- Rule R73: a datagram of another length is dropped with `FRAMING_LEN` and changes no register. -/
def Obligations.WrongLengthIsDropped : Prop :=
  ∀ (b : Buffer) (s : State), b.length ≠ 138 → exec (.rx b) s = .next (afterError (.framingLen b.length) s)

/-- A 138-byte datagram runs its class's row, read in the mode of the step's start; a malformed one is dropped (rule R72). What
exec of a class row does is the model's choice (log entry 9). -/
def Obligations.DatagramRunsItsClassRow : Prop :=
  ∀ (b : Buffer) (s : State),
    (b.length = 138 → ∃ i, decodeClass s.mode b = .ok i ∧ exec (.rx b) s = exec i s) ∧
    exec (.rxMalformed b) s = .next (afterError (.framingHeader (slice b 0 5)) s)

/-- Rule R74: the nine classes, each by its bytes. -/
def Obligations.ClassesByTheirBytes : Prop :=
  ∀ (b : Buffer) (m : Mode), b.length = 138 →
    let ones := allBytes b 0 5 0x11#8
    let zeros := allBytes b 0 5 0x00#8
    let eb := isEb90 b
    let tailZero := allBytes b 9 138 0x00#8
    let tailNine := allBytes b 10 138 (byteAt b 9)
    let short := (m = .active .shortPacket ∨ m = .active .hitCount) ∧ allBytes b 74 138 (byteAt b 73)
    (classify b m = .hsZero ↔ ones ∧ allBytes b 5 10 0x00#8) ∧
    (classify b m = .hsReady ↔ ones ∧ allBytes b 5 10 0x22#8) ∧
    (classify b m = .hsFormat ↔ ones ∧ ¬ allBytes b 5 10 0x00#8 ∧ ¬ allBytes b 5 10 0x22#8) ∧
    (classify b m = .hsFail ↔ zeros) ∧
    (classify b m = .dataZero ↔ eb ∧ tailZero) ∧
    (classify b m = .ack ↔ eb ∧ ¬ tailZero ∧ tailNine) ∧
    (classify b m = .dataShort ↔ eb ∧ ¬ tailZero ∧ ¬ tailNine ∧ short) ∧
    (classify b m = .dataFull ↔ eb ∧ ¬ tailZero ∧ ¬ tailNine ∧ ¬ short) ∧
    (classify b m = .malformed ↔ ¬ ones ∧ ¬ zeros ∧ ¬ eb)

/-- Rule R76 (f), through a whole step: two handshake replies that agree in their first ten bytes do the same. -/
def Obligations.HandshakeReplyIsItsFirstTenBytes : Prop :=
  ∀ (b b' : Buffer) (s : State), b.length = 138 → b'.length = 138 → (∀ i, i < 10 → byteAt b i = byteAt b' i) →
    allBytes b 0 5 0x11#8 → exec (.rx b) s = exec (.rx b') s

/-- Rule R77: the ack codes. -/
def Obligations.AckCodeVerdictsAndNotes : Prop :=
  (∀ x : Byte, ackVerdict x = .accepted ↔ 0xF1 ≤ x.toNat ∧ x.toNat ≤ 0xF4) ∧
  ackNote 0xF2#8 = some .possibleLostCommand ∧ ackNote 0xF3#8 = some .deviceBusy ∧ ackNote 0xF4#8 = some .crcFaultTolerated ∧
  (∀ x : Byte, x ≠ 0xF2#8 → x ≠ 0xF3#8 → x ≠ 0xF4#8 → ackNote x = none)

/-- What a reply of each EB90 class does, on every path (rule R78), as its row and as a datagram. That exec of a class row is
that class's processing, for any buffer and mode, is the model's choice (log entry 9). `classRow` gives `.rxAck b`,
`.rxDataZero b`, `.rxDataShort b` and `.rxDataFull b` for the four classes; from `afterReply` and the record updates everything
not named is unchanged. -/
def Obligations.Eb90ReplyOutcomes : Prop :=
  ∀ (c : RxClass) (b : Buffer) (s : State), (c = .ack ∨ isDataClass c = true) →
    let k := crcOffset c
    let info : ReplyInfo :=
      { cls := c, seqEcho := be16 b 2, deviceId := byteAt b 4, ackCode := byteAt b 5, extra := slice b 6 8
        crcField := be16 b k, crcCalc := crc16 (slice b 2 k) }
    let notes := noteEvents (codeCounts c s) (byteAt b 5)
    let codeFails := codeCounts c s = true ∧ ackVerdict (byteAt b 5) = .rejected
    (hasClass b s.mode c → exec (.rx b) s = exec (classRow c b) s) ∧
    (c ≠ .ack → s.mode = .unset → exec (classRow c b) s = .next (afterError .modeUnset s)) ∧
    ((c = .ack ∨ s.mode ≠ .unset) →
      (codeFails → exec (classRow c b) s = .next (afterReply [.err 0x08#8 (.ackRejected .code info)] s)) ∧
      (¬ codeFails → crcFails info s →
        exec (classRow c b) s = .next (afterReply (notes ++ [.err 0x08#8 (.ackRejected .crc info)]) s)) ∧
      (¬ codeFails → ¬ crcFails info s → echoFails info s →
        exec (classRow c b) s = .next (afterReply (notes ++ [.err 0x08#8 (.ackRejected .seq info)]) s)) ∧
      (¬ codeFails → ¬ crcFails info s → ¬ echoFails info s → c = .ack →
        exec (classRow c b) s = .next (afterReply (notes ++ [.ackAccepted info]) s)) ∧
      (∀ m, ¬ codeFails → ¬ crcFails info s → ¬ echoFails info s → c ≠ .ack → s.mode = .active m →
        exec (classRow c b) s = .next
          { afterReply (notes ++ [.dataDecoded info (decodeChannels b m).length]) s with
            data := s.data ++ [decodeChannels b m] }))

/-- Rule R79: what sets `REPLY_FLAG`, what leaves it, and what clears it. -/
def Obligations.ReplyFlagFollowsReplies : Prop :=
  (∀ (b : Buffer) (s : State), b.length = 138 → passesModeCheck (classify b s.mode) s.mode →
    ∃ t, exec (.rx b) s = .next t ∧ t.replyFlag = true) ∧
  (∀ (b : Buffer) (s : State), ¬ (b.length = 138 ∧ passesModeCheck (classify b s.mode) s.mode) →
    ∃ t, exec (.rx b) s = .next t ∧ t.replyFlag = s.replyFlag) ∧
  (∀ (i : Instr) (s t : State), exec i s = .next t → t.tx ≠ s.tx → t.replyFlag = false)

/-- Rule R80: with the echo check off, what a datagram does is independent of the numbers sent before. -/
def Obligations.EchoIsReportedNotInterpreted : Prop :=
  ∀ (b : Buffer) (s t : State) (n : Word16) (l : Option Word16), s.params.seqEchoCheck = false →
    exec (.rx b) s = .next t →
    exec (.rx b) { s with seq := n, lastSeq := l } = .next { t with seq := n, lastSeq := l }

/-- Rule R81: under the CRC check an all-zero-tail reply is rejected unless the CRC of bytes 2 to 135 is 0: by its ack code when
that counts and is Rejected, else by its CRC. -/
def Obligations.StrictCrcRejectsZeroTail : Prop :=
  ∀ (b : Buffer) (s : State), hasClass b s.mode .dataZero → s.mode ≠ .unset → s.params.crcCheckOnReceive = true →
    crc16 (slice b 2 136) ≠ 0#16 →
    ∃ t es r info, exec (.rx b) s = .next t ∧ t.data = s.data ∧
      t.evt = s.evt ++ es ++ [.err 0x08#8 (.ackRejected r info)] ∧ info.crcField = 0#16 ∧
      (codeCounts .dataZero s = true ∧ ackVerdict (byteAt b 5) = .rejected → r = .code) ∧
      (¬ (codeCounts .dataZero s = true ∧ ackVerdict (byteAt b 5) = .rejected) → r = .crc)

/-! The channel decoder. -/

/-- Rules R82 to R85: the lengths of the four vectors, and the counts of the three direct geometries, big-endian. -/
def Obligations.DirectGeometriesReadBigEndian : Prop :=
  ∀ b : Buffer,
    (decodeChannels b .shortPacket).length = 32 ∧ (decodeChannels b .longPacket).length = 32 ∧
    (decodeChannels b .clusterCount).length = 63 ∧ (decodeChannels b .hitCount).length = 32 ∧
    (∀ j, j < 32 → ∃ v, (decodeChannels b .shortPacket)[j]? = some v ∧
      v.toNat = (byteAt b (8 + 2 * j)).toNat * 256 + (byteAt b (9 + 2 * j)).toNat) ∧
    (∀ j, j < 32 → ∃ v, (decodeChannels b .longPacket)[j]? = some v ∧
      v.toNat = (byteAt b (8 + 4 * j)).toNat * 2 ^ 24 + (byteAt b (9 + 4 * j)).toNat * 2 ^ 16 +
        (byteAt b (10 + 4 * j)).toNat * 256 + (byteAt b (11 + 4 * j)).toNat) ∧
    (∀ j, j < 63 → ∃ v, (decodeChannels b .clusterCount)[j]? = some v ∧
      v.toNat = (byteAt b (8 + 2 * j)).toNat * 256 + (byteAt b (9 + 2 * j)).toNat)

/-- Rule R86: a HitCount channel counts the words whose bit is set, 0 to 16. -/
def Obligations.HitCountCountsSetBits : Prop :=
  ∀ (b : Buffer) (j : Nat), j < 32 →
    ∃ v, (decodeChannels b .hitCount)[j]? = some v ∧
      v.toNat = ((List.range 16).map fun i => ((be32 b (8 + 4 * i)).getLsbD j).toNat).sum ∧ v.toNat ≤ 16

/-- Rules R83 to R86: each geometry reads its own bytes only. -/
def Obligations.DecoderReadsOnlyItsBytes : Prop :=
  ∀ (b b' : Buffer) (n : Nat), (∀ i, 8 ≤ i → i < n → byteAt b i = byteAt b' i) →
    (72 ≤ n → decodeChannels b .shortPacket = decodeChannels b' .shortPacket) ∧
    (72 ≤ n → decodeChannels b .hitCount = decodeChannels b' .hitCount) ∧
    (136 ≤ n → decodeChannels b .longPacket = decodeChannels b' .longPacket) ∧
    (134 ≤ n → decodeChannels b .clusterCount = decodeChannels b' .clusterCount)

/-- Rule R84, corner case: an all-zero-tail reply under LongPacket is channel 0 alone. -/
def Obligations.ZeroTailIsChannelZero : Prop :=
  ∀ (b : Buffer) (m : Mode), hasClass b m .dataZero →
    decodeChannels b .longPacket = ((byteAt b 8).zeroExtend 32 <<< 24) :: List.replicate 31 0

/-! Control. -/

/-- Rule R97. -/
def Obligations.SetmodeSelectsOrRefuses : Prop :=
  ∀ s : State,
    exec (.setmode 0) s = .next { s with mode := .active .shortPacket, evt := s.evt ++ [.modeSet 0] } ∧
    exec (.setmode 1) s = .next { s with mode := .active .longPacket, evt := s.evt ++ [.modeSet 1] } ∧
    exec (.setmode 2) s = .next { s with mode := .active .clusterCount, evt := s.evt ++ [.modeSet 2] } ∧
    exec (.setmode 3) s = .next { s with mode := .active .hitCount, evt := s.evt ++ [.modeSet 3] } ∧
    ∀ m, 3 < m → exec (.setmode m) s = .next (afterError (.valueOutOfRange .mode m) s)

/-- Rule R98: STAT reports every register and changes none. -/
def Obligations.StatReportsEveryRegister : Prop :=
  ∀ s : State, ∃ st : StatusRecord,
    exec .stat s = .next (afterEvent (.status st) s) ∧
    st.seq = s.seq ∧ st.lastSeq = s.lastSeq ∧ st.attempt = s.hsAttempt ∧ st.replyFlag = s.replyFlag ∧
    (s.mode = .unset → st.mode = 0xFF#8) ∧ (s.mode = .active .shortPacket → st.mode = 0) ∧
    (s.mode = .active .longPacket → st.mode = 1) ∧ (s.mode = .active .clusterCount → st.mode = 2) ∧
    (s.mode = .active .hitCount → st.mode = 3) ∧
    (s.hsState = .idle → st.hs = 0) ∧ (s.hsState = .awaitingReply → st.hs = 1) ∧
    (s.hsState = .abnormal → st.hs = 2) ∧ (s.hsState = .readyToAcquire → st.hs = 3)

/-- Rule R99: RESET writes the six registers; the streams, the queue and the parameters stay. -/
def Obligations.ResetWritesTheRegistersOnly : Prop :=
  ∀ s : State, exec .reset s = .next
    { params := s.params, seq := 1, lastSeq := none, mode := .unset, hsState := .idle, hsAttempt := 0
      replyFlag := false, tx := s.tx, evt := s.evt ++ [.resetDone], data := s.data, queue := s.queue }

/-- The state at power-on and the state after RESET (rule R122). That the power-on state has the parameters at rule R6's
defaults is the model's choice of configuration (log entry 6), and that it has no event is log entry 5. -/
def Obligations.PowerOnState : Prop :=
  State.reset =
    { params := { seqOrder := .post, crcCheckOnReceive := false, seqEchoCheck := false, ackGateData := false
                  maxPayloadLen := none, rxqDepth := none }
      seq := 1, lastSeq := none, mode := .unset, hsState := .idle, hsAttempt := 0, replyFlag := false
      tx := [], evt := [], data := [], queue := [] } ∧
  ∀ s : State, ∃ t, exec .reset s = .next t ∧
    t = { State.reset with
          params := s.params, tx := s.tx, evt := s.evt ++ [.resetDone], data := s.data, queue := s.queue }

/-! The whole machine. -/

/-- Rule R19: the streams are empty at reset, they only grow, and no operation reads one. -/
def Obligations.StreamsOnlyGrowAndAreNeverRead : Prop :=
  (State.reset.tx = [] ∧ State.reset.evt = [] ∧ State.reset.data = []) ∧
  (∀ (i : Instr) (s t : State), exec i s = .next t → s.tx <+: t.tx ∧ s.evt <+: t.evt ∧ s.data <+: t.data) ∧
  (∀ (i : Instr) (s t : State), exec i (withoutStreams s) = .next t → exec i s = .next (afterStreams s t))

/-- Rule R115: a step reports at most one error, and no event after it. -/
def Obligations.AnErrorIsTheLastEventOfItsStep : Prop :=
  ∀ (i : Instr) (s t : State), exec i s = .next t → ∃ es, t.evt = s.evt ++ es ∧ errorOnlyLast es

/-- Rules R111, R22: every instruction completes in every state; an error never stops the block; no operation writes the
parameters or the queue. (What exec of a row of a frame or a class does is log entries 1 and 9.) -/
def Obligations.EveryInstructionCompletes : Prop :=
  ∀ (i : Instr) (s : State), ∃ t, exec i s = .next t ∧ t.params = s.params ∧ t.queue = s.queue

/-- The step: the item at the head of the queue is taken and the instruction it carries runs (rule R31), in whichever of the
table's formats that instruction is written. That a row of a frame runs as the operation that sends it (log entry 1), and a
class row as its class's processing (log entry 9), is the model's choice, and the second clause rests on it. -/
def Obligations.StepRunsTheDecodedInstruction : Prop :=
  (∀ (x : Item) (rest : List Item) (i : Instr) (s : State), s.queue = x :: rest → decodeItem x = .ok i →
    step s = exec i { s with queue := rest }) ∧
  (∀ (i : Instr) (rest : List Item) (s : State), i.wf = true → i.modeOk s.mode = true → s.queue = queueItem i :: rest →
    step s = exec i { s with queue := rest })

/-- With nothing queued the block waits (the model's inference, log entry 3); an operation number that rule R49 does not list is
refused, and so are operands that are not its operation's (log entry 7). -/
def Obligations.StepWaitsOrRefuses : Prop :=
  (∀ s : State, s.queue = [] → step s = .next s) ∧
  (∀ (c : Command) (rest : List Item) (s : State), s.queue = .cmd c :: rest →
    (c.op.toNat = 0 ∨ 0x11 < c.op.toNat) → step s = .refused (.unknownOperation c.op)) ∧
  (∀ (c : Command) (rest : List Item) (s : State), s.queue = .cmd c :: rest →
    decodeCommand c = .error .badOperands → step s = .refused (.badOperands c.op))

/-- A few words of the table, each with the instruction it stands for. That an operation number alone stands for operands of zero
(log entry 10), and that a frame is named by its narrowest row (log entry 12), are the model's choices. -/
def Obligations.WordsOfTheTable : Prop :=
  decodeTableWord 8 0x01 = some (.build 0x00#8 []) ∧ decodeTableWord 8 0x07 = some (.ctrlwr 0 0 0 0 0 0) ∧
  decodeTableWord 8 0x0C = some .trig ∧ decodeTableWord 8 0x0E = some (.setmode 0) ∧
  decodeTableWord 8 0x11 = some (.crc []) ∧ decodeTableWord 8 0x00 = none ∧ decodeTableWord 8 0x12 = none ∧
  decodeItem (.cmd { op := 0x07#8, args := [.nat 1, .nat 2, .nat 5, .nat 1, .nat 3, .nat 1] }) = .ok (.ctrlwr 1 2 5 1 3 1) ∧
  decodeFrame [0xEB#8, 0x90#8, 0x00#8, 0x01#8, 0x00#8, 0x05#8, 0x00#8, 0x64#8, 0x63#8, 0x93#8] = .ok (.txSetthr 1 100) ∧
  decodeFrame [0xEB#8, 0x90#8, 0x00#8, 0x00#8, 0x00#8, 0x0C#8, 0xAE#8, 0x00#8, 0x00#8, 0x00#8] = .ok .txTrigger ∧
  decodeClass .unset (List.replicate 138 0x00#8) = .ok (.rxHsFail (List.replicate 138 0x00#8))

/-- Decoding the encoding of a well-formed instruction gives it back, every row of the table (a frame's row is the narrowest, log
entry 12). -/
def Obligations.DecodeOfEncode : Prop :=
  ∀ (i : Instr) (m : Mode), i.wf = true → i.modeOk m = true → decode m (encode i) = .ok i

/-- The other direction: what decodes is the encoding of the instruction it decodes to, which is well formed. -/
def Obligations.EncodeOfDecode : Prop :=
  ∀ (m : Mode) (w : Wire) (i : Instr), decode m w = .ok i → encode i = w ∧ i.wf = true ∧ i.modeOk m = true

/-- The invariant that every step keeps, from every state that has it. -/
def Obligations.StepKeepsTheInvariant : Prop :=
  ∀ s t : State, Inv s → step s = .next t → Inv t

/-- The invariant holds after power-on, whatever is queued. -/
def Obligations.PowerOnHasTheInvariant : Prop := ∀ q : List Item, Inv (withQueue q State.reset)

/-- An arriving item goes to the end of the queue (rule R31); only a datagram that finds `RXQ_DEPTH` datagrams is lost (rule R32).
A command joins a queue of any length: the model's choice (log entry 8). -/
def Obligations.ArrivalsQueueInOrder : Prop :=
  (∀ (c : Command) (s : State), arrive (.cmd c) s = { s with queue := s.queue ++ [.cmd c] }) ∧
  (∀ (b : Buffer) (s : State), (∀ d, s.params.rxqDepth = some d → (s.queue.filter isDatagram).length < d) →
    arrive (.rx b) s = { s with queue := s.queue ++ [.rx b] }) ∧
  (∀ (b : Buffer) (s : State), (∃ d, s.params.rxqDepth = some d ∧ d ≤ (s.queue.filter isDatagram).length) →
    arrive (.rx b) s = s) ∧
  (∀ (xs : List Item) (s : State), s.params.rxqDepth = none →
    (xs.foldl (fun t x => arrive x t) s) = { s with queue := s.queue ++ xs })

/-- Rules R31, R130: a queue of operations and datagrams runs for any number of steps, and its items are taken in their
order, one a step. -/
def Obligations.RunsTakeItemsInOrder : Prop :=
  (∀ (k : Nat) (s : State), runnable s → ∃ t : State, Host.Core.run Sys2Proof.core k s = .next t) ∧
  (∀ (k : Nat) (s t : State), Host.Core.run Sys2Proof.core k s = .next t → t.queue = s.queue.drop k)

/-! The host agent (log entry 13). -/

/-- Rule R101 (the source's scenario S-7 for every count): after `k` silent waits and one in which an ack arrives and is taken,
the action was issued `k + 1` times, `k` failures and one success were reported. Nothing happens around the host's operations. -/
def Obligations.RetryRepeatsUntilAReply : Prop :=
  ∀ (hp : HostParams) (v k : Nat) (b : Buffer) (rest : List Happening) (s : State),
    hp.retryCap = none → v ≤ 4095 → s.queue = [] → s.params.maxPayloadLen = none → s.params.rxqDepth ≠ some 0 →
    s.seq.toNat + k < 65535 → hasClass b s.mode .ack →
    ∃ h, retryUntilAck hp (.setthr v)
        { block := s, script := List.replicate k .elapses ++ .arrives b :: .takes :: rest, gaps := [], campaign := none, lines := [] } =
          (.ok, h) ∧
      h.script = rest ∧ framesReported h.block.evt = framesReported s.evt + (k + 1) ∧
      h.lines.count .success = 1 ∧ h.lines.count .failure = k

/-- Rules R101, R130: against a silent device a retry ends only by its cap or by the last sequence number. Unbounded, it is still
going on after any number of waits while a number is left, each wait seeing one more frame; when the numbers are used up it
ends refused with `SEQ_OVERFLOW`; with a cap it gives up after that many frames. Nothing happens around the host's operations. -/
def Obligations.SilentRetryEndsOnlyByCapOrLastNumber : Prop :=
  ∀ (hp : HostParams) (v k : Nat) (s : State), v ≤ 4095 → s.queue = [] → s.params.maxPayloadLen = none →
    let run := retryUntilAck hp (.setthr v)
      { block := s, script := List.replicate k .elapses, gaps := [], campaign := none, lines := [] }
    (hp.retryCap = none → s.seq.toNat + k < 65535 →
      run.1 = .running ∧ framesReported run.2.block.evt = framesReported s.evt + (k + 1) ∧
      run.2.lines.count .success = 0 ∧ run.2.lines.count .failure = k) ∧
    (hp.retryCap = none → 65535 ≤ s.seq.toNat + k →
      run.1 = .refused (.seqOverflow 65535#16) ∧
      framesReported run.2.block.evt = framesReported s.evt + (65535 - s.seq.toNat)) ∧
    (∀ n, hp.retryCap = some n → 1 ≤ n → n ≤ k → s.seq.toNat + n ≤ 65535 →
      run.1 = .gaveUp ∧ framesReported run.2.block.evt = framesReported s.evt + n ∧
      run.2.lines.count .success = 0 ∧ run.2.lines.count .failure = n)

/-- Rule R102: a handshake that no reply answers, and around whose operations nothing happens, sends the trigger twice and ends in
Idle. -/
def Obligations.SilentHandshakeEndsIdle : Prop :=
  ∀ (hp : HostParams) (rest : List Happening) (s : State), s.queue = [] →
    ∃ h, runHandshake hp
        { block := s, script := .elapses :: .elapses :: rest, gaps := [], campaign := none, lines := [] } = (.ended .idle, h) ∧
      h.script = rest ∧ h.block.tx = s.tx ++ [triggerFrame, triggerFrame] ∧ h.block.seq = s.seq

/-- Rule R104: a completed S-curve has one column for each step offset below the total length, keyed by its threshold (the host's
conventions: log entries 13 and 17). -/
def Obligations.CompletedScurveHasItsColumns : Prop :=
  ∀ (hp : HostParams) (c : Snapshot) (stepSize total initial : Nat) (h h' : HostRun) (history : History),
    c.plan = .scurve stepSize total initial → runCampaign hp c h = (.completed history, h') →
    stepSize ≠ 0 ∧
    history.map Prod.fst = (List.range ((total + stepSize - 1) / stepSize)).map fun k => initial + k * stepSize

/-- Rules R106, R107: a campaign has a flag of its own. While one is active another is refused; a campaign that ended is no
longer active; and with no cancel request in the script or in a gap no campaign is cancelled, whatever was requested before it.
(That a second campaign is refused is the model's choice, log entry 17.) -/
def Obligations.CampaignsOwnTheirFlag : Prop :=
  (∀ (hp : HostParams) (c : Snapshot) (h : HostRun), h.campaign ≠ none → runCampaign hp c h = (.refused, h)) ∧
  (∀ (hp : HostParams) (c : Snapshot) (h : HostRun), h.campaign = none → (runCampaign hp c h).1 ≠ .running →
    (runCampaign hp c h).2.campaign = none) ∧
  (∀ (hp : HostParams) (c : Snapshot) (h : HostRun) (history : History), h.campaign = none → .cancels ∉ h.script →
    (∀ g ∈ h.gaps, .cancels ∉ g.before ∧ .cancels ∉ g.pending) →
    (runCampaign hp c h).1 ≠ .cancelled history)

/-- Rules R110, R124: the snapshot's mode is set before the campaign's first step and is not changed during the campaign, however
the campaign goes on or ends (the host's conventions: log entries 13 and 17). -/
def Obligations.CampaignKeepsItsMode : Prop :=
  ∀ (hp : HostParams) (c : Snapshot) (h : HostRun), h.campaign = none → (∀ x ∈ h.block.queue, isDatagram x = true) →
    (runCampaign hp c h).2.block.mode = .active c.mode
end

