-- ==== Sys2Proof/Laws/Bytes.lean ====
section
/-! SUPPORT. Small lemmas of the byte and frame helpers: reads of a concatenation, the big-endian image, the length of a frame. -/

namespace Sys2Proof.Machine

@[simp] theorem byteAt_cons_zero (x : Byte) (b : Buffer) : byteAt (x :: b) 0 = x := rfl

@[simp] theorem byteAt_cons_succ (x : Byte) (b : Buffer) (i : Nat) : byteAt (x :: b) (i + 1) = byteAt b i := rfl

@[simp] theorem length_rep (v : Byte) (n : Nat) : (rep v n).length = n := List.length_replicate

@[simp] theorem length_bytes16 (v : Word16) : (bytes16 v).length = 2 := rfl

theorem be16_cons (x y : Byte) (b : Buffer) : be16 (x :: y :: b) 0 = x ++ y := rfl

/-- The two bytes of a 16-bit value, put together again. -/
theorem hiByte_append_loByte (v : Word16) : (hiByte v ++ loByte v : BitVec (8 + 8)) = v := by
  apply BitVec.eq_of_getLsbD_eq
  intro i hi
  simp only [hiByte, loByte, BitVec.getLsbD_append, BitVec.getLsbD_extractLsb']
  by_cases h : i < 8
  · simp [h]
  · have : i - 8 < 8 := by omega
    have e : 8 + (i - 8) = i := by omega
    simp [h, this, e]

@[simp] theorem be16_bytes16 (v : Word16) (b : Buffer) : be16 (bytes16 v ++ b) 0 = v := hiByte_append_loByte v

/-- The high byte of two bytes put together. -/
@[simp] theorem hiByte_append (x y : Byte) : hiByte (x ++ y) = x := by
  apply BitVec.eq_of_getLsbD_eq
  intro i hi
  simp only [hiByte, BitVec.getLsbD_extractLsb', BitVec.getLsbD_append]
  have : ¬ 8 + i < 8 := by omega
  simp [hi, this]

/-- The low byte of two bytes put together. -/
@[simp] theorem loByte_append (x y : Byte) : loByte (x ++ y) = y := by
  apply BitVec.eq_of_getLsbD_eq
  intro i hi
  simp only [loByte, BitVec.getLsbD_extractLsb', BitVec.getLsbD_append]
  simp [hi]

/-- A two-byte buffer is the image of the value it carries. -/
theorem bytes16_of_pair (x y : Byte) : bytes16 (x ++ y) = [x, y] := by
  simp [bytes16]

@[simp] theorem length_crcSpan (seq : Word16) (cmd : Byte) (p : Buffer) : (crcSpan seq cmd p).length = 4 + p.length := by
  simp [crcSpan]; omega

@[simp] theorem length_frame (seq : Word16) (cmd : Byte) (p : Buffer) : (frame seq cmd p).length = 8 + p.length := by
  simp [frame]; omega

/-- An instruction frame, byte by byte. -/
theorem frame_eq_cons (seq : Word16) (cmd : Byte) (p : Buffer) :
    frame seq cmd p = 0xEB#8 :: 0x90#8 :: hiByte seq :: loByte seq :: 0x00#8 :: cmd ::
      (p ++ bytes16 (crc16 (crcSpan seq cmd p))) := by
  simp [frame, crcSpan, bytes16]

/-- A slice of a concatenation that ends where the first part ends. -/
theorem slice_append_left (a b : Buffer) (i : Nat) : slice (a ++ b) i a.length = a.drop i := by
  by_cases h : i ≤ a.length
  · simp [slice, List.drop_append_of_le_length h]
  · have h' : a.length - i = 0 := by omega
    have h'' : a.drop i = [] := by simp; omega
    simp [slice, h', h'']

theorem slice_full (b : Buffer) (i : Nat) : slice b i b.length = b.drop i := by
  have := slice_append_left b [] i
  simpa using this

@[simp] theorem length_slice (b : Buffer) (a c : Nat) : (slice b a c).length = min (c - a) (b.length - a) := by
  simp [slice]

/-- The bytes of a slice. -/
theorem getElem?_slice (b : Buffer) (a c i : Nat) (h : i < c - a) : (slice b a c)[i]? = b[a + i]? := by
  simp [slice, h]

/-- A slice inside the buffer is `n` copies of `v` exactly when each of its bytes is `v`. -/
theorem slice_eq_rep_iff (b : Buffer) (a c : Nat) (v : Byte) (h : c ≤ b.length) :
    slice b a c = rep v (c - a) ↔ ∀ i, a ≤ i → i < c → byteAt b i = v := by
  constructor
  · intro e i h1 h2
    have hg := getElem?_slice b a c (i - a) (by omega)
    rw [e, show a + (i - a) = i by omega] at hg
    have : (rep v (c - a))[i - a]? = some v := by simp [rep, List.getElem?_replicate]; omega
    simp [byteAt, List.getD, ← hg, this]
  · intro hall
    apply List.ext_getElem?
    intro i
    by_cases hi : i < c - a
    · rw [getElem?_slice _ _ _ _ hi]
      have hlt : a + i < b.length := by omega
      have := hall (a + i) (by omega) (by omega)
      simp only [byteAt, List.getD, List.getElem?_eq_getElem hlt, Option.getD_some] at this
      simp [rep, hi, List.getElem?_eq_getElem hlt, this]
    · have h1 : (slice b a c)[i]? = none := by simp; omega
      have h2 : (rep v (c - a))[i]? = none := by simp; omega
      rw [h1, h2]

/-- A 16-bit read as a number: the lower offset is the high byte (rule R26). -/
theorem toNat_be16 (b : Buffer) (i : Nat) : (be16 b i).toNat = (byteAt b i).toNat * 256 + (byteAt b (i + 1)).toNat := by
  unfold be16
  rw [BitVec.toNat_append, Nat.shiftLeft_eq, Nat.mul_comm, ← Nat.two_pow_add_eq_or_of_lt (byteAt b (i + 1)).isLt]

/-- A 32-bit read as a number. -/
theorem toNat_be32 (b : Buffer) (i : Nat) :
    (be32 b i).toNat = (byteAt b i).toNat * 2 ^ 24 + (byteAt b (i + 1)).toNat * 2 ^ 16 +
      (byteAt b (i + 2)).toNat * 256 + (byteAt b (i + 3)).toNat := by
  have h1 := toNat_be16 b i
  have h2 := toNat_be16 b (i + 2)
  have e : (be32 b i).toNat = (be16 b i ++ be16 b (i + 2) : BitVec 32).toNat := rfl
  rw [e, BitVec.toNat_append, Nat.shiftLeft_eq, Nat.mul_comm, ← Nat.two_pow_add_eq_or_of_lt (BitVec.isLt _), h1, h2]
  have : i + 2 + 1 = i + 3 := rfl
  rw [this]
  omega

/-- A slice depends on its own bytes only. -/
theorem slice_congr (b b' : Buffer) (a c : Nat) (hc : c ≤ b.length) (hc' : c ≤ b'.length)
    (h : ∀ i, a ≤ i → i < c → byteAt b i = byteAt b' i) : slice b a c = slice b' a c := by
  apply List.ext_getElem?
  intro i
  by_cases hi : i < c - a
  · rw [getElem?_slice _ _ _ _ hi, getElem?_slice _ _ _ _ hi]
    have := h (a + i) (by omega) (by omega)
    have hl : a + i < b.length := by omega
    have hl' : a + i < b'.length := by omega
    simp only [byteAt, List.getD, List.getElem?_eq_getElem hl, List.getElem?_eq_getElem hl'] at this ⊢
    simpa using this
  · have h1 : (slice b a c)[i]? = none := by simp; omega
    have h2 : (slice b' a c)[i]? = none := by simp; omega
    rw [h1, h2]

end Sys2Proof.Machine
end

