-- ==== Sys2Proof/Laws/Crc.lean ====
section
/-! SUPPORT. The CRC generator: the evaluated fold is the plain one, and one byte step is eight turns. -/

namespace Sys2Proof.Machine

/-- evalFirst only computes its argument first. -/
@[simp] theorem evalFirst_eq {α : Type} (r : Word16) (k : Word16 → α) : evalFirst r k = k r := by
  unfold evalFirst
  split
  · next h => rw [show r = 0 from BitVec.eq_of_toNat_eq (by simpa using h)]
  · next n h =>
    have e : n + 1 = r.toNat := h.symm
    rw [e, BitVec.ofNat_toNat, BitVec.setWidth_eq]

theorem crcFold_eq_foldl (reg : Word16) (d : Buffer) : crcFold reg d = d.foldl crcStep reg := by
  induction d generalizing reg with
  | nil => rfl
  | cons x xs ih => simp [crcFold, ih]

theorem crc16_def (d : Buffer) : crc16 d = d.foldl crcStep 0xFFFF#16 := crcFold_eq_foldl _ d

/-- While bit 15 is clear a turn of rule R53 only shifts. -/
theorem crcBit_of_clear (reg : Word16) (h : reg.getLsbD 15 = false) : crcBit reg = reg <<< 1 := by
  rw [crcBit, h]; rfl

/-- Eight turns from a register whose high byte is zero shift the low byte up. -/
theorem crcTurns_of_lowByte (x : Word16) (h : ∀ i, 8 ≤ i → x.getLsbD i = false) :
    ∀ n, n ≤ 8 → Nat.repeat crcBit n x = x <<< n
  | 0, _ => by simp [Nat.repeat]
  | n + 1, hn => by
    rw [Nat.repeat, crcTurns_of_lowByte x h n (by omega), crcBit_of_clear _ (by
      rw [BitVec.getLsbD_shiftLeft, h (15 - n) (by omega)]; simp), BitVec.shiftLeft_add]

/-- A register folded with its own two bytes, high byte first, is zero (rule R54 (b)). -/
theorem crcStep_own_bytes (r : Word16) : (bytes16 r).foldl crcStep r = 0x0000#16 := by
  have hx : crcStep r (hiByte r) = (r ^^^ ((hiByte r).zeroExtend 16 <<< 8)) <<< 8 := by
    refine crcTurns_of_lowByte _ ?_ 8 (Nat.le_refl 8)
    intro i hi
    by_cases h16 : i < 16
    · have e : 8 + (i - 8) = i := by omega
      have : i - 8 < 8 := by omega
      simp [hiByte, h16, e, this, Nat.not_lt.mpr hi]
    · exact BitVec.getLsbD_of_ge _ _ (by omega)
  have hz : (r ^^^ ((hiByte r).zeroExtend 16 <<< 8)) <<< 8 ^^^ ((loByte r).zeroExtend 16 <<< 8) = 0#16 := by
    apply BitVec.eq_of_getLsbD_eq
    intro i hi
    by_cases h8 : i < 8
    · simp [h8]
    · have : i - 8 < 8 := by omega
      have : i - 8 < 16 := by omega
      simp [loByte, *]
  have h0 : crcStep ((r ^^^ ((hiByte r).zeroExtend 16 <<< 8)) <<< 8) (loByte r) = 0#16 := by
    rw [crcStep, hz, crcTurns_of_lowByte 0#16 (by simp) 8 (Nat.le_refl 8)]; rfl
  show crcStep (crcStep r (hiByte r)) (loByte r) = 0#16
  rw [hx, h0]

end Sys2Proof.Machine
end

