-- ==== Sys2Proof/Laws/Decode.lean ====
section
/-! SUPPORT. What the decoder reads from an encoded frame, and back; the fields of the device control word. -/

namespace Sys2Proof

open Machine

/-! The control word. -/

theorem payloadValue_pair (x y : Byte) : payloadValue [x, y] = x ++ y := rfl

theorem payloadValue_bytes16 (v : Word16) : payloadValue (bytes16 v) = v := hiByte_append_loByte v

/-- A two-byte payload is the image of its value. -/
theorem bytes16_payloadValue (p : Buffer) (h : p.length = 2) : bytes16 (payloadValue p) = p := by
  match p, h with
  | [x, y], _ => exact bytes16_of_pair x y

/-- The slices of TX.CTRLWR's two bytes are the fields they were written from. -/
theorem ctrlBytes_fields (tc ft : BitVec 2) (sr : BitVec 4) (tse : BitVec 1) (dm wm : BitVec 2) :
    let v := payloadValue (ctrlBytes tc ft sr tse dm wm)
    v.extractLsb' 14 2 = tc ∧ v.extractLsb' 12 2 = ft ∧ v.extractLsb' 8 4 = sr ∧ v.extractLsb' 5 3 = 0#3 ∧
      v.extractLsb' 4 1 = tse ∧ v.extractLsb' 2 2 = dm ∧ v.extractLsb' 0 2 = wm := by
  simp only [ctrlBytes, payloadValue_pair]
  refine ⟨?_, ?_, ?_, ?_, ?_, ?_, ?_⟩ <;> apply BitVec.eq_of_getLsbD_eq <;> intro i hi <;>
    simp only [BitVec.getLsbD_extractLsb', BitVec.getLsbD_append] <;> interval_cases i <;> simp

/-- A control word with bits 7 to 5 clear is written by its own slices. -/
theorem ctrlBytes_of_slices (v : Word16) (h : v.extractLsb' 5 3 = 0#3) :
    ctrlBytes (v.extractLsb' 14 2) (v.extractLsb' 12 2) (v.extractLsb' 8 4) (v.extractLsb' 4 1) (v.extractLsb' 2 2)
      (v.extractLsb' 0 2) = bytes16 v := by
  have hb : ∀ i, i < 3 → v.getLsbD (5 + i) = false := by
    intro i hi
    have := congrArg (fun w => w.getLsbD i) h
    simpa [BitVec.getLsbD_extractLsb', hi] using this
  have h5 := hb 0 (by omega)
  have h6 := hb 1 (by omega)
  have h7 := hb 2 (by omega)
  simp only [ctrlBytes, bytes16, hiByte, loByte, List.cons.injEq, and_true]
  refine ⟨?_, ?_⟩ <;> apply BitVec.eq_of_getLsbD_eq <;> intro i hi <;>
    simp only [BitVec.getLsbD_extractLsb', BitVec.getLsbD_append] <;> interval_cases i <;> simp_all

/-! Frames. -/

/-- No instruction frame is the trigger literal: its CRC field would have to be 0x4500 (rule R39). -/
theorem frame_ne_triggerFrame (seq : Word16) (cmd : Byte) (p : Buffer) : frame seq cmd p ≠ triggerFrame := by
  intro h
  have hl := congrArg List.length h
  have hp : p.length = 2 := by simp [triggerFrame] at hl; omega
  match p, hp with
  | [x, y], _ =>
    rw [frame_eq_cons, triggerFrame] at h
    simp only [List.cons_append, List.nil_append, List.cons.injEq, true_and] at h
    obtain ⟨h2, h3, h5, h6, h7, h8⟩ := h
    have hs : seq = 0#16 := by rw [← hiByte_append_loByte seq, h2, h3]; rfl
    subst hs h5 h6 h7
    revert h8
    decide +kernel

theorem byteAt_frame_header (seq : Word16) (cmd : Byte) (p : Buffer) :
    be16 (frame seq cmd p) 0 = 0xEB90#16 ∧ be16 (frame seq cmd p) 2 = seq ∧ byteAt (frame seq cmd p) 4 = 0x00#8 ∧
      byteAt (frame seq cmd p) 5 = cmd := by
  rw [frame_eq_cons]
  exact ⟨(be16_cons _ _ _).trans (by decide), hiByte_append_loByte seq, rfl, rfl⟩

/-- The bytes of a frame before its CRC field. -/
theorem frame_eq_append (seq : Word16) (cmd : Byte) (p : Buffer) :
    frame seq cmd p = ([0xEB#8, 0x90#8] ++ crcSpan seq cmd p) ++ bytes16 (crc16 (crcSpan seq cmd p)) := rfl

theorem slice_frame_span (seq : Word16) (cmd : Byte) (p : Buffer) :
    slice (frame seq cmd p) 2 ((frame seq cmd p).length - 2) = crcSpan seq cmd p := by
  have e : (frame seq cmd p).length - 2 = ([0xEB#8, 0x90#8] ++ crcSpan seq cmd p).length := by simp; omega
  rw [e, frame_eq_append, slice_append_left]
  rfl

theorem slice_frame_payload (seq : Word16) (cmd : Byte) (p : Buffer) :
    slice (frame seq cmd p) 6 ((frame seq cmd p).length - 2) = p := by
  have e : (frame seq cmd p).length - 2 = ([0xEB#8, 0x90#8] ++ crcSpan seq cmd p).length := by simp; omega
  rw [e, frame_eq_append, slice_append_left]
  simp [crcSpan, bytes16]

theorem be16_append_right (a b : Buffer) : be16 (a ++ b) a.length = be16 b 0 := by
  simp [be16, byteAt, List.getD, List.getElem?_append_right]

theorem be16_frame_crc (seq : Word16) (cmd : Byte) (p : Buffer) :
    be16 (frame seq cmd p) ((frame seq cmd p).length - 2) = crc16 (crcSpan seq cmd p) := by
  have e : (frame seq cmd p).length - 2 = ([0xEB#8, 0x90#8] ++ crcSpan seq cmd p).length := by simp; omega
  rw [e, frame_eq_append, be16_append_right]
  exact hiByte_append_loByte _

/-- A frame decodes to the narrowest row that names it (rule R70). -/
theorem decodeFrame_frame (seq : Word16) (cmd : Byte) (p : Buffer) :
    decodeFrame (frame seq cmd p) = .ok (txRow seq cmd p) := by
  have hlen : ¬ (frame seq cmd p).length < 8 := by simp
  obtain ⟨h0, h2, h4, h5⟩ := byteAt_frame_header seq cmd p
  rw [decodeFrame, if_neg (frame_ne_triggerFrame _ _ _), if_neg hlen, h0, h4, be16_frame_crc, slice_frame_span,
    slice_frame_payload, h2, h5]
  simp

/-- A buffer of 8 bytes or more, cut as rule R37 lays a frame out. -/
theorem frame_of_slices (f : Buffer) (hl : 8 ≤ f.length) (h0 : be16 f 0 = 0xEB90#16) (h4 : byteAt f 4 = 0x00#8)
    (hc : be16 f (f.length - 2) = crc16 (slice f 2 (f.length - 2))) :
    f = frame (be16 f 2) (byteAt f 5) (slice f 6 (f.length - 2)) := by
  match f, hl with
  | a :: b :: c :: d :: e :: g :: rest, hl =>
    obtain ⟨p, x, y, rfl⟩ : ∃ p x y, rest = p ++ [x, y] := by
      refine ⟨rest.take (rest.length - 2), rest[rest.length - 2]'(by simp at hl; omega),
        rest[rest.length - 1]'(by simp at hl; omega), ?_⟩
      have : 2 ≤ rest.length := by simp at hl; omega
      apply List.ext_getElem
      · simp; omega
      · intro i h1 h2
        rw [List.getElem_append]
        split
        · simp
        · next h =>
          have hi : i = rest.length - 2 ∨ i = rest.length - 1 := by simp at h h1; omega
          rcases hi with rfl | rfl
          · simp
          · have e1 : rest.length - 1 - (rest.take (rest.length - 2)).length = 1 := by simp; omega
            simp only [e1]
            rfl
    have e2 : (a :: b :: c :: d :: e :: g :: (p ++ [x, y])).length - 2 = (a :: b :: c :: d :: e :: g :: p).length := by
      simp
    have es : a :: b :: c :: d :: e :: g :: (p ++ [x, y]) = (a :: b :: c :: d :: e :: g :: p) ++ [x, y] := by simp
    rw [e2] at hc
    rw [es] at hc h0 h4 ⊢
    rw [be16_append_right, slice_append_left] at hc
    rw [show ((a :: b :: c :: d :: e :: g :: p) ++ [x, y]).length - 2 = (a :: b :: c :: d :: e :: g :: p).length by simp,
      slice_append_left]
    have hab : bytes16 0xEB90#16 = [a, b] := by rw [← bytes16_of_pair a b]; exact congrArg bytes16 h0.symm
    have h4' : e = 0x00#8 := h4
    have hcd : be16 ((a :: b :: c :: d :: e :: g :: p) ++ [x, y]) 2 = c ++ d := rfl
    simp only [bytes16, List.cons.injEq, and_true] at hab
    obtain ⟨ha, hb⟩ := hab
    subst h4'
    rw [frame_eq_cons, hcd, hiByte_append, loByte_append]
    have hx : bytes16 (crc16 (crcSpan (c ++ d) (byteAt ((a :: b :: c :: d :: 0x00#8 :: g :: p) ++ [x, y]) 5)
        (List.drop 6 (a :: b :: c :: d :: 0x00#8 :: g :: p)))) = [x, y] := by
      rw [← bytes16_of_pair x y]
      refine congrArg bytes16 (Eq.trans ?_ hc.symm)
      simp [crcSpan, bytes16]
    rw [hx, ← ha, ← hb]
    rfl

/-- What decodeFrame accepts: the literal, or the frame of the fields it read. -/
theorem decodeFrame_cases (f : Buffer) (i : Instr) (h : decodeFrame f = .ok i) :
    (f = triggerFrame ∧ i = .txTrigger) ∨ ∃ seq cmd p, f = frame seq cmd p ∧ i = txRow seq cmd p := by
  rw [decodeFrame] at h
  split at h
  · next ht => cases h; exact .inl ⟨ht, rfl⟩
  · split at h
    · cases h
    · next hl =>
      split at h
      · cases h
      · next h0 =>
        split at h
        · cases h
        · next h4 =>
          split at h
          · cases h
          · next hc =>
            cases h
            refine .inr ⟨_, _, _, ?_, rfl⟩
            exact frame_of_slices f (by omega) (by simpa using h0) (by simpa using h4) (by simpa using hc)

/-! Well-formed TX rows. -/

/-- A row txRow gives is well formed, and its encoding is the frame it was given. -/
theorem txRow_wf_encode (seq : Word16) (cmd : Byte) (p : Buffer) :
    (txRow seq cmd p).wf = true ∧ encode (txRow seq cmd p) = .frame (frame seq cmd p) := by
  simp only [txRow]
  split
  · next h1 =>
    split
    · next hp => subst h1 hp; exact ⟨rfl, rfl⟩
    · split
      · next hp => subst h1 hp; exact ⟨rfl, rfl⟩
      · next ha hb => subst h1; exact ⟨by simpa [Instr.wf] using ⟨ha, hb⟩, rfl⟩
  · split
    · next h2 => subst h2; exact ⟨rfl, rfl⟩
    · split
      · next h3 => subst h3; exact ⟨rfl, rfl⟩
      · next h1 h2 h3 =>
        split
        · next hn => exact ⟨by simp [Instr.wf, hn], rfl⟩
        · next hn =>
          have hn' : namedFrame cmd p = true := by simpa using hn
          unfold namedFrame at hn'
          simp only [h1, h2, h3, or_self, if_false] at hn'
          split at hn'
          · next h4 =>
            subst h4
            simp only [Bool.and_eq_true, beq_iff_eq] at hn'
            refine ⟨rfl, ?_⟩
            simp only [if_true, encode, ctrlBytes_of_slices _ hn'.2, bytes16_payloadValue p hn'.1]
          · next h4 =>
            rw [if_neg h4]
            split at hn'
            · next h57 =>
              simp only [Bool.and_eq_true, beq_iff_eq, decide_eq_true_eq] at hn'
              rcases h57 with rfl | rfl
              · exact ⟨by simp [Instr.wf, hn'.2], by simp [encode, bytes16_payloadValue p hn'.1]⟩
              · exact ⟨by simp [Instr.wf, hn'.2], by simp [encode, bytes16_payloadValue p hn'.1]⟩
            · next h57 =>
              split at hn'
              · next h68 =>
                have hl : p.length = 2 := by simpa using hn'
                rcases h68 with rfl | rfl
                · exact ⟨rfl, by simp [encode, bytes16_payloadValue p hl]⟩
                · exact ⟨rfl, by simp [encode, bytes16_payloadValue p hl]⟩
              · cases hn'

end Sys2Proof
end

