-- ==== Sys2Proof/Laws/State.lean ====
section
/-! SUPPORT. One lemma for each field of State under each named update, so that no later proof unfolds an update. -/

namespace Sys2Proof.Machine

@[simp] theorem setReply_params (s : State) : (setReply s).params = s.params := rfl
@[simp] theorem setReply_seq (s : State) : (setReply s).seq = s.seq := rfl
@[simp] theorem setReply_lastSeq (s : State) : (setReply s).lastSeq = s.lastSeq := rfl
@[simp] theorem setReply_mode (s : State) : (setReply s).mode = s.mode := rfl
@[simp] theorem setReply_hsState (s : State) : (setReply s).hsState = s.hsState := rfl
@[simp] theorem setReply_hsAttempt (s : State) : (setReply s).hsAttempt = s.hsAttempt := rfl
@[simp] theorem setReply_replyFlag (s : State) : (setReply s).replyFlag = true := rfl
@[simp] theorem setReply_tx (s : State) : (setReply s).tx = s.tx := rfl
@[simp] theorem setReply_evt (s : State) : (setReply s).evt = s.evt := rfl
@[simp] theorem setReply_data (s : State) : (setReply s).data = s.data := rfl
@[simp] theorem setReply_queue (s : State) : (setReply s).queue = s.queue := rfl

@[simp] theorem clearReply_params (s : State) : (clearReply s).params = s.params := rfl
@[simp] theorem clearReply_seq (s : State) : (clearReply s).seq = s.seq := rfl
@[simp] theorem clearReply_lastSeq (s : State) : (clearReply s).lastSeq = s.lastSeq := rfl
@[simp] theorem clearReply_mode (s : State) : (clearReply s).mode = s.mode := rfl
@[simp] theorem clearReply_hsState (s : State) : (clearReply s).hsState = s.hsState := rfl
@[simp] theorem clearReply_hsAttempt (s : State) : (clearReply s).hsAttempt = s.hsAttempt := rfl
@[simp] theorem clearReply_replyFlag (s : State) : (clearReply s).replyFlag = false := rfl
@[simp] theorem clearReply_tx (s : State) : (clearReply s).tx = s.tx := rfl
@[simp] theorem clearReply_evt (s : State) : (clearReply s).evt = s.evt := rfl
@[simp] theorem clearReply_data (s : State) : (clearReply s).data = s.data := rfl
@[simp] theorem clearReply_queue (s : State) : (clearReply s).queue = s.queue := rfl

@[simp] theorem writeSeq_params (n : Word16) (s : State) : (writeSeq n s).params = s.params := rfl
@[simp] theorem writeSeq_seq (n : Word16) (s : State) : (writeSeq n s).seq = n := rfl
@[simp] theorem writeSeq_lastSeq (n : Word16) (s : State) : (writeSeq n s).lastSeq = s.lastSeq := rfl
@[simp] theorem writeSeq_mode (n : Word16) (s : State) : (writeSeq n s).mode = s.mode := rfl
@[simp] theorem writeSeq_hsState (n : Word16) (s : State) : (writeSeq n s).hsState = s.hsState := rfl
@[simp] theorem writeSeq_hsAttempt (n : Word16) (s : State) : (writeSeq n s).hsAttempt = s.hsAttempt := rfl
@[simp] theorem writeSeq_replyFlag (n : Word16) (s : State) : (writeSeq n s).replyFlag = s.replyFlag := rfl
@[simp] theorem writeSeq_tx (n : Word16) (s : State) : (writeSeq n s).tx = s.tx := rfl
@[simp] theorem writeSeq_evt (n : Word16) (s : State) : (writeSeq n s).evt = s.evt := rfl
@[simp] theorem writeSeq_data (n : Word16) (s : State) : (writeSeq n s).data = s.data := rfl
@[simp] theorem writeSeq_queue (n : Word16) (s : State) : (writeSeq n s).queue = s.queue := rfl

@[simp] theorem writeLastSeq_params (n : Word16) (s : State) : (writeLastSeq n s).params = s.params := rfl
@[simp] theorem writeLastSeq_seq (n : Word16) (s : State) : (writeLastSeq n s).seq = s.seq := rfl
@[simp] theorem writeLastSeq_lastSeq (n : Word16) (s : State) : (writeLastSeq n s).lastSeq = some n := rfl
@[simp] theorem writeLastSeq_mode (n : Word16) (s : State) : (writeLastSeq n s).mode = s.mode := rfl
@[simp] theorem writeLastSeq_hsState (n : Word16) (s : State) : (writeLastSeq n s).hsState = s.hsState := rfl
@[simp] theorem writeLastSeq_hsAttempt (n : Word16) (s : State) : (writeLastSeq n s).hsAttempt = s.hsAttempt := rfl
@[simp] theorem writeLastSeq_replyFlag (n : Word16) (s : State) : (writeLastSeq n s).replyFlag = s.replyFlag := rfl
@[simp] theorem writeLastSeq_tx (n : Word16) (s : State) : (writeLastSeq n s).tx = s.tx := rfl
@[simp] theorem writeLastSeq_evt (n : Word16) (s : State) : (writeLastSeq n s).evt = s.evt := rfl
@[simp] theorem writeLastSeq_data (n : Word16) (s : State) : (writeLastSeq n s).data = s.data := rfl
@[simp] theorem writeLastSeq_queue (n : Word16) (s : State) : (writeLastSeq n s).queue = s.queue := rfl

@[simp] theorem writeMode_params (m : Mode) (s : State) : (writeMode m s).params = s.params := rfl
@[simp] theorem writeMode_seq (m : Mode) (s : State) : (writeMode m s).seq = s.seq := rfl
@[simp] theorem writeMode_lastSeq (m : Mode) (s : State) : (writeMode m s).lastSeq = s.lastSeq := rfl
@[simp] theorem writeMode_mode (m : Mode) (s : State) : (writeMode m s).mode = m := rfl
@[simp] theorem writeMode_hsState (m : Mode) (s : State) : (writeMode m s).hsState = s.hsState := rfl
@[simp] theorem writeMode_hsAttempt (m : Mode) (s : State) : (writeMode m s).hsAttempt = s.hsAttempt := rfl
@[simp] theorem writeMode_replyFlag (m : Mode) (s : State) : (writeMode m s).replyFlag = s.replyFlag := rfl
@[simp] theorem writeMode_tx (m : Mode) (s : State) : (writeMode m s).tx = s.tx := rfl
@[simp] theorem writeMode_evt (m : Mode) (s : State) : (writeMode m s).evt = s.evt := rfl
@[simp] theorem writeMode_data (m : Mode) (s : State) : (writeMode m s).data = s.data := rfl
@[simp] theorem writeMode_queue (m : Mode) (s : State) : (writeMode m s).queue = s.queue := rfl

@[simp] theorem writeHs_params (h : HsState) (a : Fin 2) (s : State) : (writeHs h a s).params = s.params := rfl
@[simp] theorem writeHs_seq (h : HsState) (a : Fin 2) (s : State) : (writeHs h a s).seq = s.seq := rfl
@[simp] theorem writeHs_lastSeq (h : HsState) (a : Fin 2) (s : State) : (writeHs h a s).lastSeq = s.lastSeq := rfl
@[simp] theorem writeHs_mode (h : HsState) (a : Fin 2) (s : State) : (writeHs h a s).mode = s.mode := rfl
@[simp] theorem writeHs_hsState (h : HsState) (a : Fin 2) (s : State) : (writeHs h a s).hsState = h := rfl
@[simp] theorem writeHs_hsAttempt (h : HsState) (a : Fin 2) (s : State) : (writeHs h a s).hsAttempt = a := rfl
@[simp] theorem writeHs_replyFlag (h : HsState) (a : Fin 2) (s : State) : (writeHs h a s).replyFlag = s.replyFlag := rfl
@[simp] theorem writeHs_tx (h : HsState) (a : Fin 2) (s : State) : (writeHs h a s).tx = s.tx := rfl
@[simp] theorem writeHs_evt (h : HsState) (a : Fin 2) (s : State) : (writeHs h a s).evt = s.evt := rfl
@[simp] theorem writeHs_data (h : HsState) (a : Fin 2) (s : State) : (writeHs h a s).data = s.data := rfl
@[simp] theorem writeHs_queue (h : HsState) (a : Fin 2) (s : State) : (writeHs h a s).queue = s.queue := rfl

@[simp] theorem resetRegisters_params (s : State) : (resetRegisters s).params = s.params := rfl
@[simp] theorem resetRegisters_seq (s : State) : (resetRegisters s).seq = 1#16 := rfl
@[simp] theorem resetRegisters_lastSeq (s : State) : (resetRegisters s).lastSeq = none := rfl
@[simp] theorem resetRegisters_mode (s : State) : (resetRegisters s).mode = .unset := rfl
@[simp] theorem resetRegisters_hsState (s : State) : (resetRegisters s).hsState = .idle := rfl
@[simp] theorem resetRegisters_hsAttempt (s : State) : (resetRegisters s).hsAttempt = 0 := rfl
@[simp] theorem resetRegisters_replyFlag (s : State) : (resetRegisters s).replyFlag = false := rfl
@[simp] theorem resetRegisters_tx (s : State) : (resetRegisters s).tx = s.tx := rfl
@[simp] theorem resetRegisters_evt (s : State) : (resetRegisters s).evt = s.evt := rfl
@[simp] theorem resetRegisters_data (s : State) : (resetRegisters s).data = s.data := rfl
@[simp] theorem resetRegisters_queue (s : State) : (resetRegisters s).queue = s.queue := rfl

@[simp] theorem emitTx_params (f : Buffer) (s : State) : (emitTx f s).params = s.params := rfl
@[simp] theorem emitTx_seq (f : Buffer) (s : State) : (emitTx f s).seq = s.seq := rfl
@[simp] theorem emitTx_lastSeq (f : Buffer) (s : State) : (emitTx f s).lastSeq = s.lastSeq := rfl
@[simp] theorem emitTx_mode (f : Buffer) (s : State) : (emitTx f s).mode = s.mode := rfl
@[simp] theorem emitTx_hsState (f : Buffer) (s : State) : (emitTx f s).hsState = s.hsState := rfl
@[simp] theorem emitTx_hsAttempt (f : Buffer) (s : State) : (emitTx f s).hsAttempt = s.hsAttempt := rfl
@[simp] theorem emitTx_replyFlag (f : Buffer) (s : State) : (emitTx f s).replyFlag = s.replyFlag := rfl
@[simp] theorem emitTx_tx (f : Buffer) (s : State) : (emitTx f s).tx = s.tx ++ [f] := rfl
@[simp] theorem emitTx_evt (f : Buffer) (s : State) : (emitTx f s).evt = s.evt := rfl
@[simp] theorem emitTx_data (f : Buffer) (s : State) : (emitTx f s).data = s.data := rfl
@[simp] theorem emitTx_queue (f : Buffer) (s : State) : (emitTx f s).queue = s.queue := rfl

@[simp] theorem emitEvt_params (e : Event) (s : State) : (emitEvt e s).params = s.params := rfl
@[simp] theorem emitEvt_seq (e : Event) (s : State) : (emitEvt e s).seq = s.seq := rfl
@[simp] theorem emitEvt_lastSeq (e : Event) (s : State) : (emitEvt e s).lastSeq = s.lastSeq := rfl
@[simp] theorem emitEvt_mode (e : Event) (s : State) : (emitEvt e s).mode = s.mode := rfl
@[simp] theorem emitEvt_hsState (e : Event) (s : State) : (emitEvt e s).hsState = s.hsState := rfl
@[simp] theorem emitEvt_hsAttempt (e : Event) (s : State) : (emitEvt e s).hsAttempt = s.hsAttempt := rfl
@[simp] theorem emitEvt_replyFlag (e : Event) (s : State) : (emitEvt e s).replyFlag = s.replyFlag := rfl
@[simp] theorem emitEvt_tx (e : Event) (s : State) : (emitEvt e s).tx = s.tx := rfl
@[simp] theorem emitEvt_evt (e : Event) (s : State) : (emitEvt e s).evt = s.evt ++ [e] := rfl
@[simp] theorem emitEvt_data (e : Event) (s : State) : (emitEvt e s).data = s.data := rfl
@[simp] theorem emitEvt_queue (e : Event) (s : State) : (emitEvt e s).queue = s.queue := rfl

@[simp] theorem emitData_params (v : List Word32) (s : State) : (emitData v s).params = s.params := rfl
@[simp] theorem emitData_seq (v : List Word32) (s : State) : (emitData v s).seq = s.seq := rfl
@[simp] theorem emitData_lastSeq (v : List Word32) (s : State) : (emitData v s).lastSeq = s.lastSeq := rfl
@[simp] theorem emitData_mode (v : List Word32) (s : State) : (emitData v s).mode = s.mode := rfl
@[simp] theorem emitData_hsState (v : List Word32) (s : State) : (emitData v s).hsState = s.hsState := rfl
@[simp] theorem emitData_hsAttempt (v : List Word32) (s : State) : (emitData v s).hsAttempt = s.hsAttempt := rfl
@[simp] theorem emitData_replyFlag (v : List Word32) (s : State) : (emitData v s).replyFlag = s.replyFlag := rfl
@[simp] theorem emitData_tx (v : List Word32) (s : State) : (emitData v s).tx = s.tx := rfl
@[simp] theorem emitData_evt (v : List Word32) (s : State) : (emitData v s).evt = s.evt := rfl
@[simp] theorem emitData_data (v : List Word32) (s : State) : (emitData v s).data = s.data ++ [v] := rfl
@[simp] theorem emitData_queue (v : List Word32) (s : State) : (emitData v s).queue = s.queue := rfl

@[simp] theorem raise_params (e : BlockError) (s : State) : (raise e s).params = s.params := rfl
@[simp] theorem raise_seq (e : BlockError) (s : State) : (raise e s).seq = s.seq := rfl
@[simp] theorem raise_lastSeq (e : BlockError) (s : State) : (raise e s).lastSeq = s.lastSeq := rfl
@[simp] theorem raise_mode (e : BlockError) (s : State) : (raise e s).mode = s.mode := rfl
@[simp] theorem raise_hsState (e : BlockError) (s : State) : (raise e s).hsState = s.hsState := rfl
@[simp] theorem raise_hsAttempt (e : BlockError) (s : State) : (raise e s).hsAttempt = s.hsAttempt := rfl
@[simp] theorem raise_replyFlag (e : BlockError) (s : State) : (raise e s).replyFlag = s.replyFlag := rfl
@[simp] theorem raise_tx (e : BlockError) (s : State) : (raise e s).tx = s.tx := rfl
@[simp] theorem raise_evt (e : BlockError) (s : State) : (raise e s).evt = s.evt ++ [.err (errorCode e) e] := rfl
@[simp] theorem raise_data (e : BlockError) (s : State) : (raise e s).data = s.data := rfl
@[simp] theorem raise_queue (e : BlockError) (s : State) : (raise e s).queue = s.queue := rfl

@[simp] theorem arriveCommand_params (c : Command) (s : State) : (arriveCommand c s).params = s.params := rfl
@[simp] theorem arriveCommand_seq (c : Command) (s : State) : (arriveCommand c s).seq = s.seq := rfl
@[simp] theorem arriveCommand_lastSeq (c : Command) (s : State) : (arriveCommand c s).lastSeq = s.lastSeq := rfl
@[simp] theorem arriveCommand_mode (c : Command) (s : State) : (arriveCommand c s).mode = s.mode := rfl
@[simp] theorem arriveCommand_hsState (c : Command) (s : State) : (arriveCommand c s).hsState = s.hsState := rfl
@[simp] theorem arriveCommand_hsAttempt (c : Command) (s : State) : (arriveCommand c s).hsAttempt = s.hsAttempt := rfl
@[simp] theorem arriveCommand_replyFlag (c : Command) (s : State) : (arriveCommand c s).replyFlag = s.replyFlag := rfl
@[simp] theorem arriveCommand_tx (c : Command) (s : State) : (arriveCommand c s).tx = s.tx := rfl
@[simp] theorem arriveCommand_evt (c : Command) (s : State) : (arriveCommand c s).evt = s.evt := rfl
@[simp] theorem arriveCommand_data (c : Command) (s : State) : (arriveCommand c s).data = s.data := rfl
@[simp] theorem arriveCommand_queue (c : Command) (s : State) : (arriveCommand c s).queue = s.queue ++ [.cmd c] := rfl

@[simp] theorem withQueue_params (q : List Item) (s : State) : (withQueue q s).params = s.params := rfl
@[simp] theorem withQueue_seq (q : List Item) (s : State) : (withQueue q s).seq = s.seq := rfl
@[simp] theorem withQueue_lastSeq (q : List Item) (s : State) : (withQueue q s).lastSeq = s.lastSeq := rfl
@[simp] theorem withQueue_mode (q : List Item) (s : State) : (withQueue q s).mode = s.mode := rfl
@[simp] theorem withQueue_hsState (q : List Item) (s : State) : (withQueue q s).hsState = s.hsState := rfl
@[simp] theorem withQueue_hsAttempt (q : List Item) (s : State) : (withQueue q s).hsAttempt = s.hsAttempt := rfl
@[simp] theorem withQueue_replyFlag (q : List Item) (s : State) : (withQueue q s).replyFlag = s.replyFlag := rfl
@[simp] theorem withQueue_tx (q : List Item) (s : State) : (withQueue q s).tx = s.tx := rfl
@[simp] theorem withQueue_evt (q : List Item) (s : State) : (withQueue q s).evt = s.evt := rfl
@[simp] theorem withQueue_data (q : List Item) (s : State) : (withQueue q s).data = s.data := rfl
@[simp] theorem withQueue_queue (q : List Item) (s : State) : (withQueue q s).queue = q := rfl

@[simp] theorem afterError_params (e : BlockError) (s : State) : (afterError e s).params = s.params := rfl
@[simp] theorem afterError_seq (e : BlockError) (s : State) : (afterError e s).seq = s.seq := rfl
@[simp] theorem afterError_lastSeq (e : BlockError) (s : State) : (afterError e s).lastSeq = s.lastSeq := rfl
@[simp] theorem afterError_mode (e : BlockError) (s : State) : (afterError e s).mode = s.mode := rfl
@[simp] theorem afterError_hsState (e : BlockError) (s : State) : (afterError e s).hsState = s.hsState := rfl
@[simp] theorem afterError_hsAttempt (e : BlockError) (s : State) : (afterError e s).hsAttempt = s.hsAttempt := rfl
@[simp] theorem afterError_replyFlag (e : BlockError) (s : State) : (afterError e s).replyFlag = s.replyFlag := rfl
@[simp] theorem afterError_tx (e : BlockError) (s : State) : (afterError e s).tx = s.tx := rfl
@[simp] theorem afterError_evt (e : BlockError) (s : State) : (afterError e s).evt = s.evt ++ [.err (errorCode e) e] := rfl
@[simp] theorem afterError_data (e : BlockError) (s : State) : (afterError e s).data = s.data := rfl
@[simp] theorem afterError_queue (e : BlockError) (s : State) : (afterError e s).queue = s.queue := rfl

@[simp] theorem afterEvent_params (e : Event) (s : State) : (afterEvent e s).params = s.params := rfl
@[simp] theorem afterEvent_seq (e : Event) (s : State) : (afterEvent e s).seq = s.seq := rfl
@[simp] theorem afterEvent_lastSeq (e : Event) (s : State) : (afterEvent e s).lastSeq = s.lastSeq := rfl
@[simp] theorem afterEvent_mode (e : Event) (s : State) : (afterEvent e s).mode = s.mode := rfl
@[simp] theorem afterEvent_hsState (e : Event) (s : State) : (afterEvent e s).hsState = s.hsState := rfl
@[simp] theorem afterEvent_hsAttempt (e : Event) (s : State) : (afterEvent e s).hsAttempt = s.hsAttempt := rfl
@[simp] theorem afterEvent_replyFlag (e : Event) (s : State) : (afterEvent e s).replyFlag = s.replyFlag := rfl
@[simp] theorem afterEvent_tx (e : Event) (s : State) : (afterEvent e s).tx = s.tx := rfl
@[simp] theorem afterEvent_evt (e : Event) (s : State) : (afterEvent e s).evt = s.evt ++ [e] := rfl
@[simp] theorem afterEvent_data (e : Event) (s : State) : (afterEvent e s).data = s.data := rfl
@[simp] theorem afterEvent_queue (e : Event) (s : State) : (afterEvent e s).queue = s.queue := rfl

@[simp] theorem afterReply_params (es : List Event) (s : State) : (afterReply es s).params = s.params := rfl
@[simp] theorem afterReply_seq (es : List Event) (s : State) : (afterReply es s).seq = s.seq := rfl
@[simp] theorem afterReply_lastSeq (es : List Event) (s : State) : (afterReply es s).lastSeq = s.lastSeq := rfl
@[simp] theorem afterReply_mode (es : List Event) (s : State) : (afterReply es s).mode = s.mode := rfl
@[simp] theorem afterReply_hsState (es : List Event) (s : State) : (afterReply es s).hsState = s.hsState := rfl
@[simp] theorem afterReply_hsAttempt (es : List Event) (s : State) : (afterReply es s).hsAttempt = s.hsAttempt := rfl
@[simp] theorem afterReply_replyFlag (es : List Event) (s : State) : (afterReply es s).replyFlag = true := rfl
@[simp] theorem afterReply_tx (es : List Event) (s : State) : (afterReply es s).tx = s.tx := rfl
@[simp] theorem afterReply_evt (es : List Event) (s : State) : (afterReply es s).evt = s.evt ++ es := rfl
@[simp] theorem afterReply_data (es : List Event) (s : State) : (afterReply es s).data = s.data := rfl
@[simp] theorem afterReply_queue (es : List Event) (s : State) : (afterReply es s).queue = s.queue := rfl

@[simp] theorem afterBuild_params (c : Byte) (p : Buffer) (s : State) : (afterBuild c p s).params = s.params := rfl
@[simp] theorem afterBuild_seq (c : Byte) (p : Buffer) (s : State) : (afterBuild c p s).seq = s.seq + 1#16 := rfl
@[simp] theorem afterBuild_lastSeq (c : Byte) (p : Buffer) (s : State) : (afterBuild c p s).lastSeq = some (nextNumber s) := rfl
@[simp] theorem afterBuild_mode (c : Byte) (p : Buffer) (s : State) : (afterBuild c p s).mode = s.mode := rfl
@[simp] theorem afterBuild_hsState (c : Byte) (p : Buffer) (s : State) : (afterBuild c p s).hsState = s.hsState := rfl
@[simp] theorem afterBuild_hsAttempt (c : Byte) (p : Buffer) (s : State) : (afterBuild c p s).hsAttempt = s.hsAttempt := rfl
@[simp] theorem afterBuild_replyFlag (c : Byte) (p : Buffer) (s : State) : (afterBuild c p s).replyFlag = false := rfl
@[simp] theorem afterBuild_tx (c : Byte) (p : Buffer) (s : State) : (afterBuild c p s).tx = s.tx ++ [frame (nextNumber s) c p] := rfl
@[simp] theorem afterBuild_evt (c : Byte) (p : Buffer) (s : State) : (afterBuild c p s).evt = s.evt ++ [.frameSent (nextNumber s) c (8 + p.length)] := rfl
@[simp] theorem afterBuild_data (c : Byte) (p : Buffer) (s : State) : (afterBuild c p s).data = s.data := rfl
@[simp] theorem afterBuild_queue (c : Byte) (p : Buffer) (s : State) : (afterBuild c p s).queue = s.queue := rfl

end Sys2Proof.Machine
end

