-- ==== Sys2Proof/Laws/Ops.lean ====
section
/-! SUPPORT. One lemma for each shared operation that says everything it can do, and `exec_effect`: everything any instruction
can do. Proofs cite these and do not unfold the operations. -/

namespace Sys2Proof.Machine

/-! The encoder. -/

theorem raise_eq (e : BlockError) (s : State) : raise e s = afterError e s := rfl

theorem checked_pass (f : FieldId) (v m : Nat) (k : State → State) (s : State) (h : v ≤ m) : checked f v m k s = k s := by
  rw [checked, if_neg (by omega)]

theorem checked_fail (f : FieldId) (v m : Nat) (k : State → State) (s : State) (h : m < v) :
    checked f v m k s = afterError (.valueOutOfRange f v) s := by
  rw [checked, if_pos h, raise_eq]

theorem payloadTooLong_false (p : Buffer) (s : State) :
    payloadTooLong p s = false ↔ ∀ m, s.params.maxPayloadLen = some m → p.length ≤ m := by
  unfold payloadTooLong
  split
  · next h => simp [h]
  · next m h => simp [h]

theorem payloadTooLong_true (p : Buffer) (s : State) :
    payloadTooLong p s = true ↔ ∃ m, s.params.maxPayloadLen = some m ∧ m < p.length := by
  unfold payloadTooLong
  split
  · next h => simp [h]
  · next m h => simp [h]

theorem seq_exhausted_iff (s : State) : s.seq.toNat + 1 > Config.seqMax ↔ s.seq = 65535#16 := by
  have := s.seq.isLt
  constructor
  · intro h
    apply BitVec.eq_of_toNat_eq
    simp [Config.seqMax] at h ⊢
    omega
  · rintro h
    rw [h]
    decide

theorem allocSeq_of_ne (s : State) (h : s.seq ≠ 65535#16) : allocSeq s = some (nextNumber s, s.seq + 1#16) := by
  rw [allocSeq, if_neg (by rw [seq_exhausted_iff]; exact h)]
  unfold nextNumber
  split <;> simp_all

theorem allocSeq_exhausted (s : State) (h : s.seq = 65535#16) : allocSeq s = none := by
  rw [allocSeq, if_pos ((seq_exhausted_iff s).2 h)]

theorem sendFrame_eq (cmd : Byte) (p : Buffer) (s : State) :
    sendFrame (nextNumber s) (s.seq + 1#16) cmd p s = afterBuild cmd p s := by
  simp [sendFrame, afterBuild, emitEvt, emitTx, clearReply, writeLastSeq, writeSeq]

theorem buildFrame_of_canSend (cmd : Byte) (p : Buffer) (s : State) (h : canSend p s) :
    buildFrame cmd p s = afterBuild cmd p s := by
  have h1 : payloadTooLong p s = false := (payloadTooLong_false p s).2 h.1
  simp only [buildFrame, h1, allocSeq_of_ne s h.2]
  exact sendFrame_eq cmd p s

theorem buildFrame_tooLong (cmd : Byte) (p : Buffer) (s : State)
    (h : ∃ m, s.params.maxPayloadLen = some m ∧ m < p.length) :
    buildFrame cmd p s = afterError (.valueOutOfRange .payloadLen p.length) s := by
  rw [buildFrame, if_pos ((payloadTooLong_true p s).2 h), raise_eq]

theorem buildFrame_exhausted (cmd : Byte) (p : Buffer) (s : State)
    (h : ∀ m, s.params.maxPayloadLen = some m → p.length ≤ m) (hs : s.seq = 65535#16) :
    buildFrame cmd p s = afterError (.seqOverflow 65535#16) s := by
  have h1 : payloadTooLong p s = false := (payloadTooLong_false p s).2 h
  simp only [buildFrame, h1, allocSeq_exhausted s hs, raise_eq, hs]
  rfl

/-- The errors a frame-building operation can report (rule R115). -/
def buildError (s : State) (e : BlockError) : Prop :=
  (e = .seqOverflow 65535#16 ∧ s.seq = 65535#16) ∨ ∃ f v, e = .valueOutOfRange f v

/-- What BUILD does: the frame goes out, or one error event is the only change. -/
theorem buildFrame_cases (cmd : Byte) (p : Buffer) (s : State) :
    (canSend p s ∧ buildFrame cmd p s = afterBuild cmd p s) ∨
      ∃ e, buildError s e ∧ buildFrame cmd p s = afterError e s := by
  by_cases hl : ∀ m, s.params.maxPayloadLen = some m → p.length ≤ m
  · by_cases hs : s.seq = 65535#16
    · exact .inr ⟨_, .inl ⟨rfl, hs⟩, buildFrame_exhausted cmd p s hl hs⟩
    · exact .inl ⟨⟨hl, hs⟩, buildFrame_of_canSend cmd p s ⟨hl, hs⟩⟩
  · have : ∃ m, s.params.maxPayloadLen = some m ∧ m < p.length := by
      simp only [not_forall, not_le] at hl
      obtain ⟨m, h1, h2⟩ := hl
      exact ⟨m, h1, h2⟩
    exact .inr ⟨_, .inr ⟨_, _, rfl⟩, buildFrame_tooLong cmd p s this⟩

/-- What a frame-building operation does to the state. -/
def sendsOrReports (s t : State) : Prop :=
  (∃ cmd p, canSend p s ∧ t = afterBuild cmd p s) ∨ ∃ e, buildError s e ∧ t = afterError e s

theorem buildFrame_effect (cmd : Byte) (p : Buffer) (s : State) : sendsOrReports s (buildFrame cmd p s) := by
  rcases buildFrame_cases cmd p s with ⟨h, e⟩ | ⟨e, h, he⟩
  · exact .inl ⟨cmd, p, h, e⟩
  · exact .inr ⟨e, h, he⟩

theorem checked_effect (f : FieldId) (v m : Nat) (k : State → State) (s : State) (h : sendsOrReports s (k s)) :
    sendsOrReports s (checked f v m k s) := by
  by_cases hv : v ≤ m
  · rw [checked_pass f v m k s hv]; exact h
  · exact .inr ⟨_, .inr ⟨f, v, rfl⟩, checked_fail f v m k s (by omega)⟩

theorem buildValue_effect (cmd : Byte) (f : FieldId) (m v : Nat) (s : State) :
    sendsOrReports s (buildValue cmd f m v s) := checked_effect _ _ _ _ _ (buildFrame_effect _ _ _)

theorem buildCtrl_effect (tc ft sr tse dm wm : Nat) (s : State) : sendsOrReports s (buildCtrl tc ft sr tse dm wm s) :=
  checked_effect _ _ _ _ _ <| checked_effect _ _ _ _ _ <| checked_effect _ _ _ _ _ <|
    checked_effect _ _ _ _ _ <| checked_effect _ _ _ _ _ <| checked_effect _ _ _ _ _ <| buildFrame_effect _ _ _

theorem buildCtrl_pass (tc ft sr tse dm wm : Nat) (s : State) (h1 : tc ≤ 3) (h2 : ft ≤ 3) (h3 : sr ≤ 15) (h4 : tse ≤ 1)
    (h5 : dm ≤ 3) (h6 : wm ≤ 3) :
    buildCtrl tc ft sr tse dm wm s = buildFrame 0x04#8 (bytes16 (ctrlWord tc ft sr tse dm wm)) s := by
  simp only [buildCtrl, checked_pass _ _ _ _ _ h1, checked_pass _ _ _ _ _ h2, checked_pass _ _ _ _ _ h3,
    checked_pass _ _ _ _ _ h4, checked_pass _ _ _ _ _ h5, checked_pass _ _ _ _ _ h6]

/-! The handshake. -/

theorem sendTrigger_eq (a : Fin 2) (s : State) :
    sendTrigger a s = { s with
      hsState := .awaitingReply, hsAttempt := a, replyFlag := false, tx := s.tx ++ [triggerFrame]
      evt := s.evt ++ [.trigSent a] } := rfl

theorem expireWindow_first (s : State) (h : s.hsState = .awaitingReply) (ha : s.hsAttempt = 0) :
    expireWindow s = sendTrigger 1 s := by
  rw [expireWindow, if_pos h, if_pos ha]

theorem expireWindow_second (s : State) (h : s.hsState = .awaitingReply) (ha : s.hsAttempt ≠ 0) :
    expireWindow s = afterError .hsTimeout (writeHs .idle 0 s) := by
  rw [expireWindow, if_pos h, if_neg ha, raise_eq]

theorem expireWindow_held (s : State) (h : s.hsState ≠ .awaitingReply) :
    expireWindow s = afterEvent (.expireIgnored s.hsState) s := by
  rw [expireWindow, if_neg h]; rfl

theorem hsReply_awaiting (c : RxClass) (k : State → State) (s : State) (h : s.hsState = .awaitingReply) :
    hsReply c k s = k s := by
  rw [hsReply, if_pos h]

theorem hsReply_held (c : RxClass) (k : State → State) (s : State) (h : s.hsState ≠ .awaitingReply) :
    hsReply c k s = afterEvent (.hsUnsolicited c s.hsState) s := by
  rw [hsReply, if_neg h]; rfl

/-! Replies. -/

theorem noteAck_eq (info : ReplyInfo) (s : State) :
    noteAck info (setReply s) = afterReply (noteEvents (codeCounts info.cls s) info.ackCode) s := by
  have hc : ackGated info.cls (setReply s) = codeCounts info.cls s := rfl
  unfold noteAck noteEvents
  rw [hc]
  cases codeCounts info.cls s with
  | false => simp [afterReply, setReply]
  | true =>
    simp only [if_true]
    cases ackNote info.ackCode with
    | none => simp [afterReply, setReply]
    | some n => rfl

theorem ackNote_of_rejected (x : Byte) (h : ackVerdict x = .rejected) : ackNote x = none := by
  unfold ackVerdict at h
  split at h
  · cases h
  · next hn =>
    simp only [not_or] at hn
    rw [ackNote, if_neg hn.2.1, if_neg hn.2.2.1, if_neg hn.2.2.2]

theorem noteEvents_of_rejected (c : Bool) (x : Byte) (h : ackVerdict x = .rejected) : noteEvents c x = [] := by
  unfold noteEvents
  rw [ackNote_of_rejected x h]
  cases c <;> rfl

/-- The first check of rule R78 that rejects, in the terms claims use. -/
theorem rejection_spec (info : ReplyInfo) (s : State) :
    (codeCounts info.cls s = true ∧ ackVerdict info.ackCode = .rejected ∧ rejection info s = some .code) ∨
    (¬ (codeCounts info.cls s = true ∧ ackVerdict info.ackCode = .rejected) ∧ crcFails info s ∧
      rejection info s = some .crc) ∨
    (¬ (codeCounts info.cls s = true ∧ ackVerdict info.ackCode = .rejected) ∧ ¬ crcFails info s ∧ echoFails info s ∧
      rejection info s = some .seq) ∨
    (¬ (codeCounts info.cls s = true ∧ ackVerdict info.ackCode = .rejected) ∧ ¬ crcFails info s ∧ ¬ echoFails info s ∧
      rejection info s = none) := by
  have hc : ackGated info.cls s = codeCounts info.cls s := rfl
  have he : echoFails info s ↔ s.params.seqEchoCheck = true ∧ s.lastSeq ≠ some info.seqEcho := by
    unfold echoFails
    cases s.lastSeq with
    | none => simp
    | some n =>
      have : (info.seqEcho ≠ n) ↔ (some n ≠ some info.seqEcho) := by
        rw [ne_comm, Ne, Ne, Option.some.injEq]
      simp [this]
  unfold rejection
  rw [hc, he]
  split
  · next h => exact .inl ⟨h.1, h.2, rfl⟩
  · next h =>
    split
    · next h2 => exact .inr (.inl ⟨h, h2, rfl⟩)
    · next h2 =>
      split
      · next h3 => exact .inr (.inr (.inl ⟨h, h2, h3, rfl⟩))
      · next h3 => exact .inr (.inr (.inr ⟨h, h2, h3, rfl⟩))

/-- What an EB90 reply past the mode check does: the flag, at most one note, then one rejection or `accept`. -/
theorem eb90Reply_cases (info : ReplyInfo) (k : State → State) (s : State) :
    (∃ r, eb90Reply info k s = afterReply (noteEvents (codeCounts info.cls s) info.ackCode ++
      [.err 0x08#8 (.ackRejected r info)]) s) ∨
    eb90Reply info k s = k (afterReply (noteEvents (codeCounts info.cls s) info.ackCode) s) := by
  unfold eb90Reply
  cases rejection info s with
  | none => exact .inr (by rw [noteAck_eq])
  | some r => exact .inl ⟨r, by simp [noteAck_eq, raise, emitEvt, afterReply, errorCode]⟩

/-- An EB90 reply past the mode check, one line for each way it ends, in the order CODE, CRC, SEQ, accepted (rule R78). -/
theorem eb90Reply_outcomes (info : ReplyInfo) (k : State → State) (s : State) :
    let codeFails := codeCounts info.cls s = true ∧ ackVerdict info.ackCode = .rejected
    let notes := noteEvents (codeCounts info.cls s) info.ackCode
    (codeFails → eb90Reply info k s = afterReply [.err 0x08#8 (.ackRejected .code info)] s) ∧
    (¬ codeFails → crcFails info s →
      eb90Reply info k s = afterReply (notes ++ [.err 0x08#8 (.ackRejected .crc info)]) s) ∧
    (¬ codeFails → ¬ crcFails info s → echoFails info s →
      eb90Reply info k s = afterReply (notes ++ [.err 0x08#8 (.ackRejected .seq info)]) s) ∧
    (¬ codeFails → ¬ crcFails info s → ¬ echoFails info s → eb90Reply info k s = k (afterReply notes s)) := by
  intro codeFails notes
  have rejected : ∀ r, rejection info s = some r →
      eb90Reply info k s = afterReply (notes ++ [.err 0x08#8 (.ackRejected r info)]) s := by
    intro r h
    unfold eb90Reply
    rw [h]
    simp [noteAck_eq, raise, emitEvt, afterReply, errorCode, notes]
  rcases rejection_spec info s with ⟨a, b, h⟩ | ⟨a, b, h⟩ | ⟨a, b, c, h⟩ | ⟨a, b, c, h⟩
  · refine ⟨fun _ => ?_, fun n => absurd ⟨a, b⟩ n, fun n => absurd ⟨a, b⟩ n, fun n => absurd ⟨a, b⟩ n⟩
    rw [rejected _ h]
    simp only [notes]
    rw [noteEvents_of_rejected _ _ b]
    rfl
  · exact ⟨fun n => absurd n a, fun _ _ => rejected _ h, fun _ n => absurd b n, fun _ n => absurd b n⟩
  · exact ⟨fun n => absurd n a, fun _ n => absurd n b, fun _ _ _ => rejected _ h, fun _ _ n => absurd c n⟩
  · refine ⟨fun n => absurd n a, fun _ n => absurd n b, fun _ _ n => absurd n c, fun _ _ _ => ?_⟩
    unfold eb90Reply
    rw [h]
    simp only []
    rw [noteAck_eq]

/-- The notes are no errors and report no frame and no vector. -/
theorem noteEvents_plain (c : Bool) (x : Byte) (e : Event) (h : e ∈ noteEvents c x) : ∃ n, e = .ackNote x n := by
  unfold noteEvents at h
  split at h
  · next n _ => exact ⟨n, by simpa using h⟩
  · cases h
  · cases h

/-! Every instruction. -/

/-- Everything a datagram of class `c` can do to the state. -/
inductive Received (c : RxClass) (b : Buffer) (s : State) : State → Prop
  | unsolicited (h : s.hsState ≠ .awaitingReply) (hc : c = .hsReady ∨ c = .hsZero ∨ c = .hsFail) :
      Received c b s (afterEvent (.hsUnsolicited c s.hsState) s)
  | ready (h : s.hsState = .awaitingReply) (hc : c = .hsReady) :
      Received c b s (afterEvent (.hsReadyToAcquire (byteAt b 5)) (writeHs .readyToAcquire 0 s))
  | abnormal (h : s.hsState = .awaitingReply) (a : AbnormalCause) (hc : c = .hsZero ∨ c = .hsFail) :
      Received c b s (afterError (.hsAbnormal a) (writeHs .abnormal 0 s))
  | dropped (e : BlockError) (hc : c = .hsFormat ∨ c = .malformed ∨ (isDataClass c = true ∧ s.mode = .unset)) :
      Received c b s (afterError e s)
  | rejected (r : RejectReason) (info : ReplyInfo) (hp : passesModeCheck c s.mode) :
      Received c b s (afterReply (noteEvents (codeCounts info.cls s) info.ackCode ++
        [.err 0x08#8 (.ackRejected r info)]) s)
  | acked (info : ReplyInfo) (hp : passesModeCheck c s.mode) (hc : c = .ack) :
      Received c b s (afterReply (noteEvents (codeCounts info.cls s) info.ackCode ++ [.ackAccepted info]) s)
  | decoded (m : AcqMode) (info : ReplyInfo) (hp : passesModeCheck c s.mode) (hm : s.mode = .active m) :
      Received c b s (emitData (decodeChannels b m) (afterReply (noteEvents (codeCounts info.cls s) info.ackCode ++
        [.dataDecoded info (decodeChannels b m).length]) s))

theorem eb90Data_received (c : RxClass) (b : Buffer) (k : Nat) (s : State) (hc : isDataClass c = true) :
    Received c b s (eb90Data c b k s) := by
  unfold eb90Data
  split
  · next hm => exact .dropped _ (.inr (.inr ⟨hc, hm⟩))
  · next m hm =>
    have hp : passesModeCheck c s.mode := .inr ⟨hc, by rw [hm]; exact nofun⟩
    rcases eb90Reply_cases (replyInfo c b k) (fun s => emitEvt (.dataDecoded (replyInfo c b k) (decodeChannels b m).length)
        (emitData (decodeChannels b m) s)) s with ⟨r, h⟩ | h
    · rw [h]; exact .rejected r _ hp
    · rw [h]
      have := Received.decoded (c := c) (b := b) m (replyInfo c b k) hp hm
      simpa [emitEvt, emitData, afterReply] using this

theorem receiveClass_received (c : RxClass) (b : Buffer) (s : State) : Received c b s (receiveClass c b s) := by
  cases c with
  | hsReady =>
    by_cases h : s.hsState = .awaitingReply
    · simp only [receiveClass, hsReadyReply, hsReply_awaiting _ _ _ h]; exact .ready h rfl
    · simp only [receiveClass, hsReadyReply, hsReply_held _ _ _ h]; exact .unsolicited h (.inl rfl)
  | hsZero =>
    by_cases h : s.hsState = .awaitingReply
    · simp only [receiveClass, hsZeroReply, hsReply_awaiting _ _ _ h]; exact .abnormal h _ (.inl rfl)
    · simp only [receiveClass, hsZeroReply, hsReply_held _ _ _ h]; exact .unsolicited h (.inr (.inl rfl))
  | hsFail =>
    by_cases h : s.hsState = .awaitingReply
    · simp only [receiveClass, hsFailReply, hsReply_awaiting _ _ _ h]; exact .abnormal h _ (.inr rfl)
    · simp only [receiveClass, hsFailReply, hsReply_held _ _ _ h]; exact .unsolicited h (.inr (.inr rfl))
  | hsFormat => exact .dropped _ (.inl rfl)
  | malformed => exact .dropped _ (.inr (.inl rfl))
  | ack =>
    have hp : passesModeCheck .ack s.mode := .inl rfl
    rcases eb90Reply_cases (replyInfo .ack b 8) (emitEvt (.ackAccepted (replyInfo .ack b 8))) s with ⟨r, h⟩ | h
    · simp only [receiveClass, eb90Ack, h]; exact .rejected r _ hp
    · simp only [receiveClass, eb90Ack, h]
      have := Received.acked (c := .ack) (b := b) (replyInfo .ack b 8) hp rfl
      simpa [emitEvt, afterReply] using this
  | dataShort => exact eb90Data_received _ _ _ _ rfl
  | dataZero => exact eb90Data_received _ _ _ _ rfl
  | dataFull => exact eb90Data_received _ _ _ _ rfl

/-- Everything an instruction can do to the state. -/
inductive Effect (i : Instr) (s : State) : State → Prop
  | sends (t : State) (hi : isBuilder i = true ∨ isFrameRow i = true) (h : sendsOrReports s t) : Effect i s t
  | triggers (hi : i = .trig ∨ i = .txTrigger) : Effect i s (sendTrigger 0 s)
  | expires (hi : i = .expire) : Effect i s (expireWindow s)
  | refusesMode (m : Nat) (hi : i = .setmode m) : Effect i s (afterError (.valueOutOfRange .mode m) s)
  | selects (m : Nat) (a : AcqMode) (hi : i = .setmode m) : Effect i s (afterEvent (.modeSet m) (writeMode (.active a) s))
  | reports (hi : i = .stat) : Effect i s (afterEvent (.status (statusOf s)) s)
  | resets (hi : i = .reset) : Effect i s (afterEvent .resetDone (resetRegisters s))
  | sums (d : Buffer) (hi : i = .crc d) : Effect i s (afterEvent (.crcValue (crc16 d)) s)
  | drops (b : Buffer) (hi : i = .rx b) (hl : b.length ≠ 138) : Effect i s (afterError (.framingLen b.length) s)
  | receives (c : RxClass) (b : Buffer) (t : State) (hi : i = classRow c b ∨ (i = .rx b ∧ hasClass b s.mode c))
      (h : Received c b s t) : Effect i s t

theorem receive_effect (b : Buffer) (s : State) : Effect (.rx b) s (receive b s) := by
  by_cases hl : b.length = 138
  · have : receive b s = receiveClass (classify b s.mode) b s := if_neg (by simp [hl, Config.rxLen])
    rw [this]
    exact .receives _ b _ (.inr ⟨rfl, hl, rfl⟩) (receiveClass_received _ _ _)
  · have : receive b s = afterError (.framingLen b.length) s := if_pos hl
    rw [this]
    exact .drops b rfl hl

theorem selectMode_effect (m : Nat) (s : State) : Effect (.setmode m) s (selectMode m s) := by
  unfold selectMode
  split
  · exact .refusesMode m rfl
  · next a _ => exact .selects m a rfl

/-- Every instruction answers a next state, by one of the effects. -/
theorem exec_effect (i : Instr) (s : State) : ∃ t, exec i s = .next t ∧ Effect i s t := by
  cases i with
  | build cmd p => exact ⟨_, rfl, .sends _ (.inl rfl) (buildFrame_effect _ _ _)⟩
  | looptest p => exact ⟨_, rfl, .sends _ (.inl rfl) (buildFrame_effect _ _ _)⟩
  | ctrlrd => exact ⟨_, rfl, .sends _ (.inl rfl) (buildFrame_effect _ _ _)⟩
  | fpgarst => exact ⟨_, rfl, .sends _ (.inl rfl) (buildFrame_effect _ _ _)⟩
  | chthr p => exact ⟨_, rfl, .sends _ (.inl rfl) (buildFrame_effect _ _ _)⟩
  | cntrst p => exact ⟨_, rfl, .sends _ (.inl rfl) (buildFrame_effect _ _ _)⟩
  | ctrlwr tc ft sr tse dm wm => exact ⟨_, rfl, .sends _ (.inl rfl) (buildCtrl_effect _ _ _ _ _ _ _)⟩
  | setthr v => exact ⟨_, rfl, .sends _ (.inl rfl) (buildValue_effect _ _ _ _ _)⟩
  | setacq v => exact ⟨_, rfl, .sends _ (.inl rfl) (buildValue_effect _ _ _ _ _)⟩
  | setdac v => exact ⟨_, rfl, .sends _ (.inl rfl) (buildValue_effect _ _ _ _ _)⟩
  | setint v => exact ⟨_, rfl, .sends _ (.inl rfl) (buildValue_effect _ _ _ _ _)⟩
  | trig => exact ⟨_, rfl, .triggers (.inl rfl)⟩
  | expire => exact ⟨_, rfl, .expires rfl⟩
  | setmode m => exact ⟨_, rfl, selectMode_effect m s⟩
  | stat => exact ⟨_, rfl, .reports rfl⟩
  | reset => exact ⟨_, rfl, .resets rfl⟩
  | crc d => exact ⟨_, rfl, .sums d rfl⟩
  | rx b => exact ⟨_, rfl, receive_effect b s⟩
  | txBuild seq cmd p => exact ⟨_, rfl, .sends _ (.inr rfl) (buildFrame_effect _ _ _)⟩
  | txLooptest seq p => exact ⟨_, rfl, .sends _ (.inr rfl) (buildFrame_effect _ _ _)⟩
  | txCtrlrd seq => exact ⟨_, rfl, .sends _ (.inr rfl) (buildFrame_effect _ _ _)⟩
  | txFpgarst seq => exact ⟨_, rfl, .sends _ (.inr rfl) (buildFrame_effect _ _ _)⟩
  | txChthr seq p => exact ⟨_, rfl, .sends _ (.inr rfl) (buildFrame_effect _ _ _)⟩
  | txCntrst seq p => exact ⟨_, rfl, .sends _ (.inr rfl) (buildFrame_effect _ _ _)⟩
  | txCtrlwr seq tc ft sr tse dm wm => exact ⟨_, rfl, .sends _ (.inr rfl) (buildCtrl_effect _ _ _ _ _ _ _)⟩
  | txSetthr seq v => exact ⟨_, rfl, .sends _ (.inr rfl) (buildValue_effect _ _ _ _ _)⟩
  | txSetacq seq v => exact ⟨_, rfl, .sends _ (.inr rfl) (buildValue_effect _ _ _ _ _)⟩
  | txSetdac seq v => exact ⟨_, rfl, .sends _ (.inr rfl) (buildValue_effect _ _ _ _ _)⟩
  | txSetint seq v => exact ⟨_, rfl, .sends _ (.inr rfl) (buildValue_effect _ _ _ _ _)⟩
  | txTrigger => exact ⟨_, rfl, .triggers (.inr rfl)⟩
  | rxHsZero b => exact ⟨_, rfl, .receives .hsZero b _ (.inl rfl) (receiveClass_received _ _ _)⟩
  | rxHsReady b => exact ⟨_, rfl, .receives .hsReady b _ (.inl rfl) (receiveClass_received _ _ _)⟩
  | rxHsFormat b => exact ⟨_, rfl, .receives .hsFormat b _ (.inl rfl) (receiveClass_received _ _ _)⟩
  | rxHsFail b => exact ⟨_, rfl, .receives .hsFail b _ (.inl rfl) (receiveClass_received _ _ _)⟩
  | rxDataZero b => exact ⟨_, rfl, .receives .dataZero b _ (.inl rfl) (receiveClass_received _ _ _)⟩
  | rxAck b => exact ⟨_, rfl, .receives .ack b _ (.inl rfl) (receiveClass_received _ _ _)⟩
  | rxDataShort b => exact ⟨_, rfl, .receives .dataShort b _ (.inl rfl) (receiveClass_received _ _ _)⟩
  | rxDataFull b => exact ⟨_, rfl, .receives .dataFull b _ (.inl rfl) (receiveClass_received _ _ _)⟩
  | rxMalformed b => exact ⟨_, rfl, .receives .malformed b _ (.inl rfl) (receiveClass_received _ _ _)⟩

/-- The inversion of exec: a next state is one of the effects. -/
theorem effect_of_exec {i : Instr} {s t : State} (h : exec i s = .next t) : Effect i s t := by
  obtain ⟨t', h', e⟩ := exec_effect i s
  rw [h] at h'
  cases h'
  exact e

/-! The step. -/

/-- The inversion of step: it waits, or it takes the head of the queue and runs its instruction. -/
theorem step_cases {s t : State} (h : step s = .next t) :
    (s.queue = [] ∧ t = s) ∨
      ∃ x rest i, s.queue = x :: rest ∧ itemInstr x = .ok i ∧ exec i (withQueue rest s) = .next t := by
  unfold step at h
  split at h
  · next hq => cases h; exact .inl ⟨hq, rfl⟩
  · next x rest hq =>
    split at h
    · next i hi => exact .inr ⟨x, rest, i, hq, hi, h⟩
    · cases h

end Sys2Proof.Machine
end

