-- ==== Sys2Proof/Laws/Run.lean ====
section
/-! SUPPORT. Runs of the block: one induction for all claims about runs, what every instruction leaves alone, and the items of the
queue by the instruction they carry. -/

namespace Sys2Proof.Machine

/-- A relation that holds over no steps and extends by one step at its front holds over every run. -/
theorem run_induction (P : State → State → Prop) (refl : ∀ s, P s s)
    (step_trans : ∀ s t u, step s = .next t → P t u → P s u) :
    ∀ (k : Nat) (s t : State), Host.Core.run core k s = .next t → P s t
  | 0, s, t, h => by cases h; exact refl s
  | k + 1, s, t, h => by
    simp only [Host.Core.run] at h
    split at h
    · next u hu => exact step_trans s u t hu (run_induction P refl step_trans k u t h)
    · cases h
    · cases h

/-- The three things EXPIRE can do (rule R93). -/
theorem expireWindow_cases (s : State) :
    (s.hsState = .awaitingReply ∧ s.hsAttempt = 0 ∧ expireWindow s = sendTrigger 1 s) ∨
    (s.hsState = .awaitingReply ∧ s.hsAttempt ≠ 0 ∧ expireWindow s = afterError .hsTimeout (writeHs .idle 0 s)) ∨
    (s.hsState ≠ .awaitingReply ∧ expireWindow s = afterEvent (.expireIgnored s.hsState) s) := by
  by_cases h : s.hsState = .awaitingReply
  · by_cases h2 : s.hsAttempt = 0
    · exact .inl ⟨h, h2, expireWindow_first s h h2⟩
    · exact .inr (.inl ⟨h, h2, expireWindow_second s h h2⟩)
  · exact .inr (.inr ⟨h, expireWindow_held s h⟩)

/-- No instruction writes the queue or the parameters. -/
theorem exec_frame {i : Instr} {s t : State} (h : exec i s = .next t) : t.queue = s.queue ∧ t.params = s.params := by
  cases effect_of_exec h with
  | sends _ hi hh => rcases hh with ⟨c, p, hc, rfl⟩ | ⟨e, he, rfl⟩ <;> exact ⟨rfl, rfl⟩
  | expires a => rcases expireWindow_cases s with ⟨_, _, e⟩ | ⟨_, _, e⟩ | ⟨_, e⟩ <;> rw [e] <;> exact ⟨rfl, rfl⟩
  | receives c b _ a hh => cases hh <;> exact ⟨rfl, rfl⟩
  | triggers _ => exact ⟨rfl, rfl⟩
  | refusesMode _ _ => exact ⟨rfl, rfl⟩
  | selects _ _ _ => exact ⟨rfl, rfl⟩
  | reports _ => exact ⟨rfl, rfl⟩
  | resets _ => exact ⟨rfl, rfl⟩
  | sums _ _ => exact ⟨rfl, rfl⟩
  | drops _ _ _ => exact ⟨rfl, rfl⟩

/-- A number that is not the last one can be counted up. -/
theorem toNat_seq_succ (s : State) (h : s.seq ≠ 65535#16) : (s.seq + 1#16).toNat = s.seq.toNat + 1 := by
  have := s.seq.isLt
  have : s.seq.toNat ≠ 65535 := fun e => h (BitVec.eq_of_toNat_eq e)
  simp [BitVec.toNat_add]
  omega

theorem itemInstr_cmd {c : Command} {i : Instr} (h : itemInstr (.cmd c) = .ok i) : decodeCommand c = .ok i := by
  simp only [itemInstr, decodeItem] at h
  split at h
  · next j hd => cases h; exact hd
  · cases h

/-- A command that decodes is the item of its instruction, a row of format CMD. -/
theorem decodeCommand_cases {c : Command} {i : Instr} (h : decodeCommand c = .ok i) :
    queueItem i = .cmd c ∧ (i = .reset ↔ c.op = 0x10#8) ∧ (i = .trig ↔ c.op = 0x0C#8) ∧
      isFrameRow i = false ∧ isReceive i = false ∧ i ≠ .txTrigger := by
  obtain ⟨op, args⟩ := c
  have hop : ∀ n, op.toNat = n → op = BitVec.ofNat 8 n := by intro n h; rw [← h]; simp
  unfold decodeCommand at h
  simp only [] at h
  split at h
  all_goals first
    | (have e := hop _ (by assumption)
       subst e
       split at h <;> first
        | (cases h; refine ⟨?_, by simp, by simp, rfl, rfl, by simp⟩; simp [queueItem, command])
        | cases h)
    | cases h

/-- What a queue item's instruction is. -/
theorem itemInstr_cases {x : Item} {i : Instr} (h : itemInstr x = .ok i) :
    (∃ b, x = .rx b ∧ i = .rx b) ∨ ∃ c, x = .cmd c ∧ decodeCommand c = .ok i := by
  cases x with
  | rx b => cases h; exact .inl ⟨b, rfl, rfl⟩
  | cmd c => exact .inr ⟨c, rfl, itemInstr_cmd h⟩

theorem framesReported_append (a b : List Event) : framesReported (a ++ b) = framesReported a + framesReported b :=
  List.countP_append

theorem triggersReported_append (a b : List Event) : triggersReported (a ++ b) = triggersReported a + triggersReported b :=
  List.countP_append

theorem repliesDecoded_append (a b : List Event) : repliesDecoded (a ++ b) = repliesDecoded a + repliesDecoded b :=
  List.countP_append

@[simp] theorem framesReported_noteEvents (c : Bool) (x : Byte) : framesReported (noteEvents c x) = 0 := by
  unfold noteEvents framesReported; split <;> rfl

@[simp] theorem triggersReported_noteEvents (c : Bool) (x : Byte) : triggersReported (noteEvents c x) = 0 := by
  unfold noteEvents triggersReported; split <;> rfl

@[simp] theorem repliesDecoded_noteEvents (c : Bool) (x : Byte) : repliesDecoded (noteEvents c x) = 0 := by
  unfold noteEvents repliesDecoded; split <;> rfl

/-- A 138-byte datagram is processed as its class (rule R72). -/
theorem receive_of_class {b : Buffer} {s : State} {c : RxClass} (h : hasClass b s.mode c) :
    receive b s = receiveClass c b s := by
  rw [receive, if_neg (by simp [h.1, Config.rxLen]), h.2]

/-- A class row's meaning is that class's processing. -/
theorem exec_classRow (c : RxClass) (b : Buffer) (s : State) : exec (classRow c b) s = .next (receiveClass c b s) := by
  cases c <;> rfl

end Sys2Proof.Machine
end

