-- ==== Sys2Proof/Laws/Host.lean ====
section
/-! SUPPORT. What the host can do, said once: every procedure of a campaign step is a chain of three moves. A claim about a
procedure follows from what one move keeps, by induction on the chain. -/

namespace Sys2Proof.Machine

/-- The operations the host issues after a snapshot's mode is set. -/
def hostIssues (i : Instr) : Prop := i = .stat ∨ i = .trig ∨ i = .expire ∨ ∃ a : Builder, i = a.instr

/-- One move of the host: a line, a happening of its script, or an operation with its gap. -/
inductive HostMove : HostRun → HostRun → Prop where
  | tells (l : HostLine) (h : HostRun) : HostMove h (say l h)
  | happens (x : Happening) (rest : List Happening) (h : HostRun) (hs : h.script = x :: rest) :
      HostMove h (happen x { h with script := rest })
  | issues (i : Instr) (h : HostRun) (hi : hostIssues i) : HostMove h (issue i h).2

/-- A chain of moves. -/
def HostMoves : HostRun → HostRun → Prop := Relation.ReflTransGen HostMove

theorem HostMoves.refl (h : HostRun) : HostMoves h h := Relation.ReflTransGen.refl

theorem HostMoves.trans {h h1 h2 : HostRun} (a : HostMoves h h1) (b : HostMoves h1 h2) : HostMoves h h2 :=
  Relation.ReflTransGen.trans a b

theorem HostMove.moves {h h1 : HostRun} (a : HostMove h h1) : HostMoves h h1 := Relation.ReflTransGen.single a

theorem tells_moves (l : HostLine) (h : HostRun) : HostMoves h (say l h) := (HostMove.tells l h).moves

theorem issue_moves (i : Instr) (h : HostRun) (hi : hostIssues i) : HostMoves h (issue i h).2 := (HostMove.issues i h hi).moves

/-- What every move keeps, every chain keeps. -/
theorem HostMoves.keeps {P : HostRun → Prop} (step : ∀ h h1, HostMove h h1 → P h → P h1) {h h1 : HostRun}
    (m : HostMoves h h1) (hp : P h) : P h1 := by
  induction m with
  | refl => exact hp
  | tail _ a ih => exact step _ _ a ih

/-! The procedures are chains. -/

theorem waitOn_moves (stop : State → Bool) (xs : List Happening) (h : HostRun) (hs : h.script = xs) :
    HostMoves h (waitOn stop xs h).2 := by
  induction xs generalizing h with
  | nil => exact .refl h
  | cons x rest ih =>
    rw [waitOn]
    split
    · exact .refl h
    · split
      · next e => subst e; exact (HostMove.happens _ rest h hs).moves
      · refine (HostMove.happens x rest h hs).moves.trans (ih _ ?_)
        cases x <;> rfl

theorem wait_moves (w : Nat) (stop : State → Bool) (h : HostRun) : HostMoves h (wait w stop h).2 := by
  have a := waitOn_moves stop h.script h rfl
  rw [wait]
  split
  · next h1 e => rw [e] at a; exact a.trans ((tells_moves _ _).trans (issue_moves _ _ (.inl rfl)))
  · next h1 e => rw [e] at a; exact a

theorem retryLoop_moves (hp : HostParams) (a : Builder) (fuel n : Nat) (h : HostRun) :
    HostMoves h (retryLoop hp a fuel n h).2 := by
  induction fuel generalizing n h with
  | zero => exact .refl h
  | succ fuel ih =>
    have i := issue_moves a.instr h (.inr (.inr (.inr ⟨a, rfl⟩)))
    rw [retryLoop]
    split
    · next e => rw [e] at i; exact i
    · next h1 e =>
      rw [e] at i
      have w := wait_moves Config.retryWindowMs State.replyFlag h1
      split
      · next e2 => rw [e2] at w; exact i.trans w
      · next h2 e2 =>
        rw [e2] at w
        have iw := i.trans w
        split
        · exact iw.trans (tells_moves _ _)
        · split
          · exact iw.trans (tells_moves _ _)
          · exact iw.trans ((tells_moves _ _).trans (ih _ _))

theorem retryUntilAck_moves (hp : HostParams) (a : Builder) (h : HostRun) : HostMoves h (retryUntilAck hp a h).2 :=
  retryLoop_moves hp a _ 0 h

theorem handshakeLoop_moves (hp : HostParams) (n : Nat) (h : HostRun) : HostMoves h (handshakeLoop hp n h).2 := by
  induction n generalizing h with
  | zero => exact .refl h
  | succ n ih =>
    have w := wait_moves hp.hsWindow handshakeOver h
    rw [handshakeLoop]
    split
    · next e => rw [e] at w; exact w
    · next h1 e =>
      rw [e] at w
      split
      · exact w
      · exact w.trans ((issue_moves _ _ (.inr (.inr (.inl rfl)))).trans (ih _))

theorem runHandshake_moves (hp : HostParams) (h : HostRun) : HostMoves h (runHandshake hp h).2 :=
  (issue_moves _ _ (.inr (.inl rfl))).trans (handshakeLoop_moves hp 2 _)

theorem readData_moves (hp : HostParams) (h : HostRun) : HostMoves h (readData hp h).2 := by
  have r := retryUntilAck_moves hp (.build hp.dataReadCmd hp.dataReadPayload) h
  rw [readData]
  split
  · next e => rw [e] at r; exact r
  · next e => rw [e] at r; exact r
  · next e => rw [e] at r; exact r
  · next e => rw [e] at r; split <;> exact r

theorem afterRetry_moves (hp : HostParams) (a : Builder) (k : HostRun → StepResult × HostRun)
    (hk : ∀ h, HostMoves h (k h).2) (h : HostRun) : HostMoves h (afterRetry hp a k h).2 := by
  have r := retryUntilAck_moves hp a h
  rw [afterRetry]
  split
  · next e => rw [e] at r; exact r.trans (hk _)
  · next e => rw [e] at r; exact r
  · next e => rw [e] at r; exact r
  · next e => rw [e] at r; exact r

theorem acquire_moves (hp : HostParams) (h : HostRun) : HostMoves h (acquire hp h).2 := by
  refine afterRetry_moves hp _ _ (fun h1 => ?_) h
  have r := runHandshake_moves hp h1
  split
  · next e => rw [e] at r; exact r.trans (readData_moves hp _)
  · next e => rw [e] at r; exact r
  · next e => rw [e] at r; exact r
  · next e => rw [e] at r; exact r
  · next e => rw [e] at r; exact r

theorem applySettings_moves (hp : HostParams) (as : List Builder) (h : HostRun) : HostMoves h (applySettings hp as h).2 := by
  induction as generalizing h with
  | nil => exact .refl h
  | cons a rest ih =>
    have r := retryUntilAck_moves hp a h
    rw [applySettings]
    split
    · next e => rw [e] at r; exact r.trans (ih _)
    · next e => rw [e] at r; exact r
    · next e => rw [e] at r; exact r
    · next e => rw [e] at r; exact r

/-! What a chain keeps. -/

@[simp] theorem say_campaign (l : HostLine) (h : HostRun) : (say l h).campaign = h.campaign := rfl
@[simp] theorem say_script (l : HostLine) (h : HostRun) : (say l h).script = h.script := rfl
@[simp] theorem say_block (l : HostLine) (h : HostRun) : (say l h).block = h.block := rfl
@[simp] theorem follow_campaign (t : State) (h : HostRun) : (follow t h).campaign = h.campaign := rfl
@[simp] theorem follow_script (t : State) (h : HostRun) : (follow t h).script = h.script := rfl
@[simp] theorem follow_block (t : State) (h : HostRun) : (follow t h).block = t := rfl
@[simp] theorem follow_gaps (t : State) (h : HostRun) : (follow t h).gaps = h.gaps := rfl
@[simp] theorem say_gaps (l : HostLine) (h : HostRun) : (say l h).gaps = h.gaps := rfl
@[simp] theorem happen_script (x : Happening) (h : HostRun) : (happen x h).script = h.script := by cases x <;> rfl
@[simp] theorem happen_gaps (x : Happening) (h : HostRun) : (happen x h).gaps = h.gaps := by cases x <;> rfl

/-- The campaign after happenings `xs`, from the campaign `c`: it is kept, or a request among them sets its flag. -/
def flagged (xs : List Happening) (c c1 : Option CampaignRun) : Prop :=
  c1 = c ∨ (.cancels ∈ xs ∧ c1 = c.map fun r => { r with cancel := true })

theorem flagged_refl (xs : List Happening) (c : Option CampaignRun) : flagged xs c c := .inl rfl

theorem flagged_trans {xs : List Happening} {c c1 c2 : Option CampaignRun} (a : flagged xs c c1) (b : flagged xs c1 c2) :
    flagged xs c c2 := by
  rcases a with rfl | ⟨hm, rfl⟩
  · exact b
  · rcases b with rfl | ⟨_, rfl⟩
    · exact .inr ⟨hm, rfl⟩
    · refine .inr ⟨hm, ?_⟩
      cases c <;> rfl

theorem flagged_mono {xs ys : List Happening} {c c1 : Option CampaignRun} (h : ∀ x ∈ xs, x ∈ ys) (a : flagged xs c c1) :
    flagged ys c c1 := a.imp_right fun b => ⟨h _ b.1, b.2⟩

theorem happen_flagged (x : Happening) (h : HostRun) : flagged [x] h.campaign (happen x h).campaign := by
  cases x with
  | arrives b => exact .inl rfl
  | takes => exact .inl rfl
  | elapses => exact .inl rfl
  | cancels => exact .inr ⟨List.mem_cons_self, rfl⟩

theorem happenAll_frame (xs : List Happening) (h : HostRun) :
    flagged xs h.campaign (happenAll xs h).campaign ∧ (happenAll xs h).script = h.script ∧ (happenAll xs h).gaps = h.gaps := by
  induction xs generalizing h with
  | nil => exact ⟨flagged_refl _ _, rfl, rfl⟩
  | cons x rest ih =>
    obtain ⟨a, b, c⟩ := ih (happen x h)
    refine ⟨flagged_trans (flagged_mono ?_ (happen_flagged x h)) (flagged_mono ?_ a), b.trans (happen_script x h),
      c.trans (happen_gaps x h)⟩
    · intro y hy; exact List.mem_cons.2 (.inl (List.mem_singleton.1 hy))
    · intro y hy; exact List.mem_cons_of_mem _ hy

theorem untilTurn_frame (xs : List Happening) (n : Nat) (h : HostRun) :
    flagged xs h.campaign (untilTurn xs n h).campaign ∧ (untilTurn xs n h).script = h.script ∧
      (untilTurn xs n h).gaps = h.gaps := by
  induction xs generalizing n h with
  | nil => exact ⟨flagged_refl _ _, rfl, rfl⟩
  | cons x rest ih =>
    have up : ∀ y ∈ rest, y ∈ x :: rest := fun y hy => List.mem_cons_of_mem _ hy
    rw [untilTurn]
    split
    · obtain ⟨a, b, c⟩ := ih n (happen x h)
      refine ⟨flagged_trans (flagged_mono ?_ (happen_flagged x h)) (flagged_mono up a), b.trans (happen_script x h),
        c.trans (happen_gaps x h)⟩
      intro y hy
      exact List.mem_cons.2 (.inl (List.mem_singleton.1 hy))
    · split
      · obtain ⟨a, b, c⟩ := ih 0 h; exact ⟨flagged_mono up a, b, c⟩
      · obtain ⟨a, b, c⟩ := ih (n - 1) (happen .takes h); exact ⟨flagged_mono up a, b, c⟩

/-- What is in the gap of the next operation. -/
def nextGap (h : HostRun) : List Happening := (h.gaps.headD Gap.quiet).before ++ (h.gaps.headD Gap.quiet).pending

/-- An operation uses up its gap and nothing of the script; only a request in the gap touches the campaign. -/
theorem issue_frame (i : Instr) (h : HostRun) :
    flagged (nextGap h) h.campaign (issue i h).2.campaign ∧ (issue i h).2.script = h.script ∧
      (issue i h).2.gaps = h.gaps.tail := by
  obtain ⟨a, b, c⟩ := happenAll_frame (h.gaps.headD Gap.quiet).before { h with gaps := h.gaps.tail }
  obtain ⟨a1, b1, c1⟩ := untilTurn_frame (h.gaps.headD Gap.quiet).pending
    (happenAll (h.gaps.headD Gap.quiet).before { h with gaps := h.gaps.tail }).block.queue.length
    { happenAll (h.gaps.headD Gap.quiet).before { h with gaps := h.gaps.tail } with
      block := arrive (queueItem i) (happenAll (h.gaps.headD Gap.quiet).before { h with gaps := h.gaps.tail }).block }
  exact ⟨flagged_trans (flagged_mono (fun _ hx => List.mem_append_left _ hx) a)
    (flagged_mono (fun _ hx => List.mem_append_right _ hx) a1), b1.trans b, c1.trans c⟩

/-- The cancel requests to come: in the script, or in a gap. -/
def cancelToCome (h : HostRun) : Prop := .cancels ∈ h.script ∨ ∃ g ∈ h.gaps, .cancels ∈ g.before ++ g.pending

theorem cancelToCome_of_nextGap {h : HostRun} (hm : .cancels ∈ nextGap h) : cancelToCome h := by
  unfold nextGap at hm
  cases hg : h.gaps with
  | nil => rw [hg] at hm; simp [Gap.quiet] at hm
  | cons g gs => rw [hg] at hm; exact .inr ⟨g, by rw [hg]; exact List.mem_cons_self, hm⟩

/-- An operation begins and ends no campaign: a request in its gap sets the flag, or the campaign is kept (rule R106). -/
theorem issue_campaign (i : Instr) (h : HostRun) :
    (issue i h).2.campaign = h.campaign ∨
      (cancelToCome h ∧ (issue i h).2.campaign = h.campaign.map fun c => { c with cancel := true }) :=
  (issue_frame i h).1.imp_right fun b => ⟨cancelToCome_of_nextGap b.1, b.2⟩

/-- An operation brings no cancel request. -/
theorem issue_cancelToCome {i : Instr} {h : HostRun} (hc : cancelToCome (issue i h).2) : cancelToCome h := by
  obtain ⟨_, b, c⟩ := issue_frame i h
  rcases hc with hc | ⟨g, hg, hc⟩
  · exact .inl (by rw [← b]; exact hc)
  · exact .inr ⟨g, List.mem_of_mem_tail (by rw [← c]; exact hg), hc⟩

/-- An operation leaves the history to the campaign's own loop. -/
theorem issue_history (i : Instr) (h : HostRun) :
    (issue i h).2.campaign.map CampaignRun.history = h.campaign.map CampaignRun.history := by
  rcases issue_campaign i h with e | ⟨_, e⟩ <;> rw [e]
  cases h.campaign <;> rfl

/-- A move sets the active campaign's flag or leaves the campaign as it is; it begins or ends none (rule R106). -/
theorem HostMove.campaign {h h1 : HostRun} (m : HostMove h h1) :
    h1.campaign = h.campaign ∨ (cancelToCome h ∧ h1.campaign = h.campaign.map fun c => { c with cancel := true }) := by
  cases m with
  | tells l => exact .inl rfl
  | issues i _ _ => exact issue_campaign i h
  | happens x rest _ hs =>
    refine (happen_flagged x { h with script := rest }).imp_right fun b => ⟨.inl ?_, b.2⟩
    rw [hs, ← List.mem_singleton.1 b.1]
    exact List.mem_cons_self

/-- A move brings no cancel request. -/
theorem HostMove.cancelToCome {h h1 : HostRun} (m : HostMove h h1) (hc : cancelToCome h1) : cancelToCome h := by
  cases m with
  | tells l => exact hc
  | issues i _ _ => exact issue_cancelToCome hc
  | happens x rest _ hs =>
    rcases hc with hc | ⟨g, hg, hc⟩
    · exact .inl (by rw [hs]; exact List.mem_cons_of_mem _ (by simpa using hc))
    · exact .inr ⟨g, by simpa using hg, hc⟩

/-- A chain leaves the history and the step to the campaign's own loop. -/
theorem HostMoves.history {h h1 : HostRun} (m : HostMoves h h1) :
    h1.campaign.map CampaignRun.history = h.campaign.map CampaignRun.history := by
  refine m.keeps (P := fun g => g.campaign.map CampaignRun.history = h.campaign.map CampaignRun.history) ?_ rfl
  intro g g1 a hg
  rcases a.campaign with e | ⟨_, e⟩ <;> rw [e]
  · exact hg
  · rw [← hg]; cases g.campaign <;> rfl

/-- No cancel request to come, and none made. -/
def uncancelled (h : HostRun) : Prop := ¬ cancelToCome h ∧ cancelRequested h = false

theorem HostMoves.uncancelled {h h1 : HostRun} (m : HostMoves h h1) (hu : uncancelled h) : uncancelled h1 := by
  refine m.keeps (P := Machine.uncancelled) ?_ hu
  rintro g g1 a ⟨hn, hc⟩
  refine ⟨fun h2 => hn (a.cancelToCome h2), ?_⟩
  rcases a.campaign with e | ⟨hm, _⟩
  · simp only [cancelRequested, e]; exact hc
  · exact absurd hm hn

theorem issue_uncancelled (i : Instr) {h : HostRun} (hu : uncancelled h) : uncancelled (issue i h).2 := by
  refine ⟨fun h2 => hu.1 (issue_cancelToCome h2), ?_⟩
  rcases issue_campaign i h with e | ⟨hm, _⟩
  · simp only [cancelRequested, e]; exact hu.2
  · exact absurd hm hu.1

/-! The block under the host. -/

/-- Only datagrams are queued, and the mode is `m`. -/
def onlyDatagrams (m : Mode) (s : State) : Prop := (∀ x ∈ s.queue, isDatagram x = true) ∧ s.mode = m

/-- Only SETMODE and RESET write `MODE`. -/
theorem exec_mode {i : Instr} {s t : State} (h : exec i s = .next t) (hm : ∀ m, i ≠ .setmode m) (hr : i ≠ .reset) :
    t.mode = s.mode := by
  cases effect_of_exec h with
  | sends _ _ hh => rcases hh with ⟨c, p, _, rfl⟩ | ⟨e, _, rfl⟩ <;> rfl
  | triggers _ => rfl
  | expires _ => rcases expireWindow_cases s with ⟨_, _, e⟩ | ⟨_, _, e⟩ | ⟨_, e⟩ <;> rw [e] <;> rfl
  | refusesMode m hi => exact absurd hi (hm m)
  | selects m _ hi => exact absurd hi (hm m)
  | reports _ => rfl
  | resets hi => exact absurd hi hr
  | sums _ _ => rfl
  | drops _ _ _ => rfl
  | receives c b _ _ hh => cases hh <;> rfl

theorem advance_nil {s : State} (hq : s.queue = []) : advance s = s := by simp only [advance, step, hq]

theorem advance_cons {s : State} {x : Item} {rest : List Item} {i : Instr} (hq : s.queue = x :: rest)
    (hx : itemInstr x = .ok i) : exec i (withQueue rest s) = .next (advance s) := by
  obtain ⟨t, ht, _⟩ := exec_effect i (withQueue rest s)
  simp only [advance, step, hq, hx, ht]

/-- The block takes a datagram: the queue is shorter by it, and the mode is kept. -/
theorem advance_datagram {s : State} {x : Item} {rest : List Item} (hq : s.queue = x :: rest) (hx : isDatagram x = true) :
    (advance s).queue = rest ∧ (advance s).mode = s.mode := by
  cases x with
  | cmd c => cases hx
  | rx b =>
    have e := advance_cons hq (i := .rx b) rfl
    exact ⟨(exec_frame e).1, (exec_mode (i := .rx b) (s := withQueue rest s) e nofun nofun).trans rfl⟩

theorem onlyDatagrams_advance {m : Mode} {s : State} (h : onlyDatagrams m s) : onlyDatagrams m (advance s) := by
  cases hq : s.queue with
  | nil => rw [advance_nil hq]; exact h
  | cons x rest =>
    have hx : isDatagram x = true := h.1 x (by rw [hq]; exact List.mem_cons_self)
    obtain ⟨e, em⟩ := advance_datagram hq hx
    refine ⟨fun y hy => h.1 y ?_, em.trans h.2⟩
    rw [hq]
    rw [e] at hy
    exact List.mem_cons_of_mem _ hy

theorem onlyDatagrams_arrive {m : Mode} {s : State} (b : Buffer) (h : onlyDatagrams m s) :
    onlyDatagrams m (arriveDatagram b s) := by
  unfold arriveDatagram
  split
  · exact h
  · refine ⟨fun y hy => ?_, h.2⟩
    simp only [List.mem_append, List.mem_singleton] at hy
    rcases hy with hy | rfl
    · exact h.1 y hy
    · rfl

theorem onlyDatagrams_happen {m : Mode} {h : HostRun} (x : Happening) (hd : onlyDatagrams m h.block) :
    onlyDatagrams m (happen x h).block := by
  cases x with
  | takes => exact onlyDatagrams_advance hd
  | cancels => exact hd
  | elapses => exact hd
  | arrives b => exact onlyDatagrams_arrive b hd

theorem onlyDatagrams_happenAll {m : Mode} (xs : List Happening) {h : HostRun} (hd : onlyDatagrams m h.block) :
    onlyDatagrams m (happenAll xs h).block := by
  induction xs generalizing h with
  | nil => exact hd
  | cons x rest ih => exact ih (onlyDatagrams_happen x hd)

/-- The command `c` is queued behind `n` datagrams, with only datagrams behind it, in mode `m`. -/
def queuedBehind (c : Command) (n : Nat) (m : Mode) (s : State) : Prop :=
  ∃ pre post : List Item, s.queue = pre ++ .cmd c :: post ∧ pre.length = n ∧ (∀ x ∈ pre, isDatagram x = true) ∧
    (∀ x ∈ post, isDatagram x = true) ∧ s.mode = m

theorem queuedBehind_advance {c : Command} {n : Nat} {m : Mode} {s : State} (h : queuedBehind c (n + 1) m s) :
    queuedBehind c n m (advance s) := by
  obtain ⟨pre, post, hq, hl, hp, ho, hm⟩ := h
  match pre, hl with
  | x :: pre, hl =>
    obtain ⟨e, em⟩ := advance_datagram (x := x) hq (hp x List.mem_cons_self)
    exact ⟨pre, post, e, by simpa using hl, fun y hy => hp y (List.mem_cons_of_mem _ hy), ho, em.trans hm⟩

theorem queuedBehind_takeItems {c : Command} {m : Mode} (n : Nat) {s : State} (h : queuedBehind c n m s) :
    queuedBehind c 0 m (takeItems n s) := by
  induction n generalizing s with
  | zero => exact h
  | succ n ih => exact ih (queuedBehind_advance h)

theorem queuedBehind_arrive {c : Command} {n : Nat} {m : Mode} {s : State} (b : Buffer) (h : queuedBehind c n m s) :
    queuedBehind c n m (arriveDatagram b s) := by
  unfold arriveDatagram
  split
  · exact h
  · obtain ⟨pre, post, hq, hl, hp, ho, hm⟩ := h
    refine ⟨pre, post ++ [.rx b], by simp [hq], hl, hp, fun y hy => ?_, hm⟩
    simp only [List.mem_append, List.mem_singleton] at hy
    rcases hy with hy | rfl
    · exact ho y hy
    · rfl

/-- While an operation is queued the items before it are taken, and it comes to the front. -/
theorem queuedBehind_untilTurn {c : Command} {m : Mode} (xs : List Happening) (n : Nat) {h : HostRun}
    (hb : queuedBehind c n m h.block) : queuedBehind c 0 m (untilTurn xs n h).block := by
  induction xs generalizing n h with
  | nil => exact queuedBehind_takeItems n hb
  | cons x rest ih =>
    rw [untilTurn]
    split
    · next e =>
      refine ih n ?_
      cases x with
      | takes => exact absurd rfl e
      | cancels => exact hb
      | elapses => exact hb
      | arrives b => exact queuedBehind_arrive b hb
    · split
      · next e => subst e; exact ih 0 hb
      · next e =>
        obtain ⟨k, rfl⟩ : ∃ k, n = k + 1 := ⟨n - 1, by omega⟩
        exact ih k (queuedBehind_advance hb)

/-- The operations the host issues are commands of rule R49, each its own item. -/
theorem hostIssues_item {i : Instr} (h : hostIssues i ∨ ∃ m, i = .setmode m) :
    ∃ c, queueItem i = .cmd c ∧ itemInstr (.cmd c) = .ok i := by
  rcases h with (rfl | rfl | rfl | ⟨a, rfl⟩) | ⟨m, rfl⟩
  · exact ⟨_, rfl, rfl⟩
  · exact ⟨_, rfl, rfl⟩
  · exact ⟨_, rfl, rfl⟩
  · cases a <;> exact ⟨_, rfl, rfl⟩
  · exact ⟨_, rfl, rfl⟩

/-- An operation the host issues is taken in its own mode, and only datagrams stay queued. -/
theorem issue_exec {m : Mode} {i : Instr} {h : HostRun} (hi : hostIssues i ∨ ∃ n, i = .setmode n)
    (hd : onlyDatagrams m h.block) :
    ∃ rest : List Item, (∀ x ∈ rest, isDatagram x = true) ∧ (offer i h).block.mode = m ∧
      exec i (withQueue rest (offer i h).block) = .next (issue i h).2.block ∧ (issue i h).2.block.queue = rest := by
  obtain ⟨c, hc, hx⟩ := hostIssues_item hi
  have hg := onlyDatagrams_happenAll (m := m) (h.gaps.headD Gap.quiet).before (h := { h with gaps := h.gaps.tail }) hd
  have hb : queuedBehind c 0 m (offer i h).block := by
    refine queuedBehind_untilTurn _ _ ⟨_, [], ?_, rfl, hg.1, nofun, ?_⟩
    · rw [hc]; rfl
    · rw [hc]; exact hg.2
  obtain ⟨pre, rest, hq, hl, _, ho, hm⟩ := hb
  rw [List.eq_nil_of_length_eq_zero hl, List.nil_append] at hq
  have e := advance_cons hq hx
  exact ⟨rest, ho, hm, e, (exec_frame e).1⟩

/-- A chain of moves keeps the mode, and leaves only datagrams queued: the host puts nothing on the queue that it does not see
taken. -/
theorem HostMoves.onlyDatagrams {m : Mode} {h h1 : HostRun} (c : HostMoves h h1) (hd : onlyDatagrams m h.block) :
    onlyDatagrams m h1.block := by
  refine c.keeps (P := fun g => Machine.onlyDatagrams m g.block) ?_ hd
  intro g g1 a hg
  cases a with
  | tells l => exact hg
  | happens x rest _ hs => exact onlyDatagrams_happen x hg
  | issues i _ hi =>
    obtain ⟨rest, hr, hm, e, eq⟩ := issue_exec (.inl hi) hg
    refine ⟨by rw [eq]; exact hr, (exec_mode e ?_ ?_).trans hm⟩
    · rcases hi with rfl | rfl | rfl | ⟨b, rfl⟩
      iterate 3 exact nofun
      cases b <;> exact nofun
    · rcases hi with rfl | rfl | rfl | ⟨b, rfl⟩
      iterate 3 exact nofun
      cases b <;> exact nofun

/-! One operation and one wait, with nothing queued and nothing around it. -/

/-- With nothing queued and no gap, an operation is next to be taken at once. -/
theorem offer_quiet {i : Instr} {h : HostRun} {c : Command} (hc : queueItem i = .cmd c) (hq : h.block.queue = [])
    (hg : h.gaps = []) : offer i h = { h with block := arriveCommand c h.block } := by
  simp only [offer, hg, List.headD_nil, Gap.quiet, happenAll, List.foldl_nil, untilTurn, hq, List.length_nil, takeItems, hc,
    arrive, follow, errorsSince, List.tail_nil]
  rw [← hg]
  simp [arriveCommand]

/-- An issued operation, from its effect: the events it adds are reported, the first error among them is its own. -/
theorem issue_eq {i : Instr} {h : HostRun} {t : State} (hi : hostIssues i) (hq : h.block.queue = []) (hg : h.gaps = [])
    (es : List Event) (he : exec i h.block = .next t) (ht : t.evt = h.block.evt ++ es) :
    issue i h = ((es.filterMap errorOf).head?,
      { h with block := t, lines := h.lines ++ (es.filterMap errorOf).map .blockError }) := by
  obtain ⟨c, hc, hx⟩ := hostIssues_item (.inl hi)
  have a := advance_cons (s := arriveCommand c h.block) (x := .cmd c) (rest := []) (by simp [arriveCommand, hq]) hx
  have ew : withQueue [] (arriveCommand c h.block) = h.block := by
    conv_rhs => rw [show h.block = { h.block with queue := [] } by rw [← hq]]
    rfl
  rw [ew, he] at a
  have a := Host.Outcome.next.inj a
  simp only [issue, offer_quiet hc hq hg, ← a, follow, errorsSince, ht, show (arriveCommand c h.block).evt = h.block.evt from rfl,
    List.drop_append_of_le_length (le_refl _), List.drop_length, List.nil_append]

theorem issue_stat {h : HostRun} (hq : h.block.queue = []) (hg : h.gaps = []) :
    issue .stat h = (none, { h with block := afterEvent (.status (statusOf h.block)) h.block }) := by
  rw [issue_eq (.inl rfl) hq hg [_] rfl rfl]
  simp [errorOf, afterEvent, emitEvt]

/-- A wait whose time is over before anything happens: STAT, and nothing else. -/
theorem wait_elapses {w : Nat} {stop : State → Bool} {h : HostRun} {rest : List Happening} (hq : h.block.queue = [])
    (hg : h.gaps = []) (hs : h.script = .elapses :: rest) (hst : stop h.block = false) :
    wait w stop h = (true, { h with
      block := afterEvent (.status (statusOf h.block)) h.block, script := rest, lines := h.lines ++ [.waited w] }) := by
  unfold wait
  rw [hs, waitOn, hst]
  simp only [Bool.false_eq_true, if_false, if_true]
  rw [issue_stat (by exact hq) (by exact hg)]
  rfl

/-! Campaigns. -/

theorem HostMoves.historyOf {h h1 : HostRun} (m : HostMoves h h1) :
    Machine.historyOf h1 = Machine.historyOf h ∧ (h.campaign ≠ none → h1.campaign ≠ none) := by
  have := m.history
  unfold Machine.historyOf
  cases a : h.campaign <;> cases b : h1.campaign <;> simp_all

theorem historyOf_record (k : Nat) (v : List Word32) (h : HostRun) (hs : h.campaign ≠ none) :
    historyOf (record k v h) = historyOf h ++ [(k, v)] := by
  unfold historyOf record
  cases hc : h.campaign <;> simp_all

@[simp] theorem historyOf_atStep (i : Nat) (h : HostRun) : historyOf (atStep i h) = historyOf h := by
  unfold historyOf atStep
  cases a : h.campaign <;> rfl

theorem uncancelled_atStep {h : HostRun} (i : Nat) (hu : uncancelled h) : uncancelled (atStep i h) := by
  refine ⟨hu.1, ?_⟩
  have := hu.2
  unfold cancelRequested atStep at *
  cases hc : h.campaign <;> simp_all

theorem uncancelled_record {h : HostRun} (k : Nat) (v : List Word32) (hu : uncancelled h) : uncancelled (record k v h) := by
  refine ⟨hu.1, ?_⟩
  have := hu.2
  unfold cancelRequested record at *
  cases hc : h.campaign <;> simp_all

/-- What follows the snapshot: the campaign is still running, it did not start, or its plan ran to an end. -/
theorem afterSnapshot_cases {hp : HostParams} {plan : Plan} {r : RetryResult × HostRun} {res : CampaignResult × HostRun}
    (h : afterSnapshot hp plan r = res) :
    (∃ g, r = (.running, g) ∧ res = (.running, g)) ∨
    (∃ e g, r = (e, g) ∧ res = endCampaign (.notStarted e, g)) ∨
    (∃ g g1, r = (.ok, g) ∧ runPlan hp plan g = (.running, g1) ∧ res = (.running, g1)) ∨
    (∃ g, r = (.ok, g) ∧ (runPlan hp plan g).1 ≠ .running ∧ res = endCampaign (runPlan hp plan g)) := by
  obtain ⟨e, g⟩ := r
  cases e with
  | running => exact .inl ⟨g, rfl, h.symm⟩
  | refused e => exact .inr (.inl ⟨_, g, rfl, h.symm⟩)
  | gaveUp => exact .inr (.inl ⟨_, g, rfl, h.symm⟩)
  | ok =>
    unfold afterSnapshot at h
    simp only at h
    split at h
    · next g1 e => exact .inr (.inr (.inl ⟨g, g1, rfl, e, h.symm⟩))
    · next r hr => exact .inr (.inr (.inr ⟨g, rfl, fun e => hr _ (Prod.ext e rfl), h.symm⟩))

end Sys2Proof.Machine
end

