-- ==== Sys2Proof/Laws/PerInstr.lean ====
section
/-! SUPPORT. The statements made for every instruction as syntax, one lemma for each constructor of Instr. -/

namespace Sys2Proof.Laws

open Sys2Proof.Machine

/-- Decoding an instruction's encoding gives it back. -/
def RoundTrip.Statement (i : Instr) : Prop :=
  ∀ m : Mode, i.wf = true → i.modeOk m = true → decode m (encode i) = .ok i

/-- A TX row that is its frame's narrowest row comes back. -/
theorem roundTrip_of_txRow (i : Instr) (seq : Word16) (cmd : Byte) (p : Buffer) (he : encode i = .frame (frame seq cmd p))
    (hr : txRow seq cmd p = i) (m : Mode) : decode m (encode i) = .ok i := by
  rw [he]
  exact (decodeFrame_frame seq cmd p).trans (congrArg _ hr)

/-- A class row comes back when the classifier gives its class in the mode read. -/
theorem roundTrip_of_class (c : RxClass) (b : Buffer) (m : Mode) (he : encode (classRow c b) = .datagram b)
    (hl : b.length = Config.rxLen) (hc : classify b m = c) : decode m (encode (classRow c b)) = .ok (classRow c b) := by
  rw [he]
  show decodeClass m b = _
  rw [decodeClass, if_neg (by simp [hl]), hc]

/-- The class of a datagram outside steps 3c and 3d of rule R74 does not depend on the mode. -/
theorem classify_mode_free (b : Buffer) (m m' : Mode) (hs : classify b m ≠ .dataShort) (hf : classify b m ≠ .dataFull) :
    classify b m' = classify b m := by
  unfold classify at *
  split_ifs at * <;> simp_all

theorem isClass_iff (c : RxClass) (m : Mode) (b : Buffer) :
    isClass c m b = true ↔ b.length = Config.rxLen ∧ classify b m = c := by
  simp [isClass]

/-- A class row of a mode-free class comes back in every mode. -/
theorem roundTrip_of_free (c : RxClass) (b : Buffer) (m : Mode) (hs : c ≠ .dataShort) (hf : c ≠ .dataFull)
    (he : encode (classRow c b) = .datagram b) (h : isClass c .unset b = true) :
    decode m (encode (classRow c b)) = .ok (classRow c b) := by
  obtain ⟨hl, hc⟩ := (isClass_iff _ _ _).1 h
  refine roundTrip_of_class c b m he hl ?_
  rw [classify_mode_free b .unset m (by rw [hc]; exact hs) (by rw [hc]; exact hf), hc]

theorem RoundTrip.build (cmd : Byte) (p : Buffer) : RoundTrip.Statement (.build cmd p) := fun _ _ _ => rfl
theorem RoundTrip.looptest (p : Buffer) : RoundTrip.Statement (.looptest p) := fun _ _ _ => rfl
theorem RoundTrip.ctrlrd : RoundTrip.Statement .ctrlrd := fun _ _ _ => rfl
theorem RoundTrip.fpgarst : RoundTrip.Statement .fpgarst := fun _ _ _ => rfl
theorem RoundTrip.chthr (p : Buffer) : RoundTrip.Statement (.chthr p) := fun _ _ _ => rfl
theorem RoundTrip.cntrst (p : Buffer) : RoundTrip.Statement (.cntrst p) := fun _ _ _ => rfl
theorem RoundTrip.ctrlwr (tc : Nat) (ft : Nat) (sr : Nat) (tse : Nat) (dm : Nat) (wm : Nat) : RoundTrip.Statement (.ctrlwr tc ft sr tse dm wm) := fun _ _ _ => rfl
theorem RoundTrip.setthr (v : Nat) : RoundTrip.Statement (.setthr v) := fun _ _ _ => rfl
theorem RoundTrip.setacq (v : Nat) : RoundTrip.Statement (.setacq v) := fun _ _ _ => rfl
theorem RoundTrip.setdac (v : Nat) : RoundTrip.Statement (.setdac v) := fun _ _ _ => rfl
theorem RoundTrip.setint (v : Nat) : RoundTrip.Statement (.setint v) := fun _ _ _ => rfl
theorem RoundTrip.trig : RoundTrip.Statement .trig := fun _ _ _ => rfl
theorem RoundTrip.expire : RoundTrip.Statement .expire := fun _ _ _ => rfl
theorem RoundTrip.setmode (m : Nat) : RoundTrip.Statement (.setmode m) := fun _ _ _ => rfl
theorem RoundTrip.stat : RoundTrip.Statement .stat := fun _ _ _ => rfl
theorem RoundTrip.reset : RoundTrip.Statement .reset := fun _ _ _ => rfl
theorem RoundTrip.crc (d : Buffer) : RoundTrip.Statement (.crc d) := fun _ _ _ => rfl
theorem RoundTrip.rx (b : Buffer) : RoundTrip.Statement (.rx b) := fun _ _ _ => rfl

theorem RoundTrip.txBuild (seq : Word16) (cmd : Byte) (p : Buffer) : RoundTrip.Statement (.txBuild seq cmd p) := by
  intro m hw _
  refine roundTrip_of_txRow _ seq cmd p rfl ?_ m
  have hn : namedFrame cmd p = false := by simpa [Instr.wf] using hw
  have h123 : cmd ≠ 0x01#8 ∧ cmd ≠ 0x02#8 ∧ cmd ≠ 0x03#8 := by
    unfold namedFrame at hn
    split at hn
    · cases hn
    · next h => exact ⟨fun e => h (.inl e), fun e => h (.inr (.inl e)), fun e => h (.inr (.inr e))⟩
  simp [txRow, h123, hn]

theorem RoundTrip.txLooptest (seq : Word16) (p : Buffer) : RoundTrip.Statement (.txLooptest seq p) := by
  intro m hw _
  refine roundTrip_of_txRow _ seq 0x01#8 p rfl ?_ m
  have h : p ≠ [0x02#8, 0x00#8] ∧ p ≠ [0x01#8, 0x00#8] := by simpa [Instr.wf] using hw
  simp only [txRow, if_true, if_neg h.1, if_neg h.2]

theorem RoundTrip.txCtrlrd (seq : Word16) : RoundTrip.Statement (.txCtrlrd seq) :=
  fun m _ _ => roundTrip_of_txRow _ seq 0x01#8 [0x02#8, 0x00#8] rfl rfl m
theorem RoundTrip.txFpgarst (seq : Word16) : RoundTrip.Statement (.txFpgarst seq) :=
  fun m _ _ => roundTrip_of_txRow _ seq 0x01#8 [0x01#8, 0x00#8] rfl rfl m
theorem RoundTrip.txChthr (seq : Word16) (p : Buffer) : RoundTrip.Statement (.txChthr seq p) :=
  fun m _ _ => roundTrip_of_txRow _ seq 0x02#8 p rfl rfl m
theorem RoundTrip.txCntrst (seq : Word16) (p : Buffer) : RoundTrip.Statement (.txCntrst seq p) :=
  fun m _ _ => roundTrip_of_txRow _ seq 0x03#8 p rfl rfl m

theorem RoundTrip.txCtrlwr (seq : Word16) (tc ft : BitVec 2) (sr : BitVec 4) (tse : BitVec 1) (dm wm : BitVec 2) :
    RoundTrip.Statement (.txCtrlwr seq tc ft sr tse dm wm) := by
  intro m _ _
  refine roundTrip_of_txRow _ seq 0x04#8 (ctrlBytes tc ft sr tse dm wm) rfl ?_ m
  obtain ⟨h1, h2, h3, h4, h5, h6, h7⟩ := ctrlBytes_fields tc ft sr tse dm wm
  have hn : namedFrame 0x04#8 (ctrlBytes tc ft sr tse dm wm) = true := by
    show ((ctrlBytes tc ft sr tse dm wm).length == 2 && _ == _) = true
    rw [h4]; rfl
  simp [txRow, hn, h1, h2, h3, h5, h6, h7]

/-- The frame of a checked 16-bit value is named by its own row. -/
theorem namedFrame_value (cmd : Byte) (v : Word16) (h : (cmd = 0x05#8 ∨ cmd = 0x07#8) ∧ v.toNat ≤ Config.thrMax ∨
    (cmd = 0x06#8 ∨ cmd = 0x08#8)) : namedFrame cmd (bytes16 v) = true := by
  rcases h with ⟨rfl | rfl, hv⟩ | rfl | rfl <;> simp [namedFrame, payloadValue_bytes16] <;> exact hv

theorem RoundTrip.txSetthr (seq v : Word16) : RoundTrip.Statement (.txSetthr seq v) := by
  intro m hw _
  refine roundTrip_of_txRow _ seq 0x05#8 (bytes16 v) rfl ?_ m
  have hv : v.toNat ≤ Config.thrMax := by simpa [Instr.wf] using hw
  simp [txRow, namedFrame_value 0x05#8 v (.inl ⟨.inl rfl, hv⟩), payloadValue_bytes16]

theorem RoundTrip.txSetacq (seq v : Word16) : RoundTrip.Statement (.txSetacq seq v) := by
  intro m _ _
  refine roundTrip_of_txRow _ seq 0x06#8 (bytes16 v) rfl ?_ m
  simp [txRow, namedFrame_value 0x06#8 v (.inr (.inl rfl)), payloadValue_bytes16]

theorem RoundTrip.txSetdac (seq v : Word16) : RoundTrip.Statement (.txSetdac seq v) := by
  intro m hw _
  refine roundTrip_of_txRow _ seq 0x07#8 (bytes16 v) rfl ?_ m
  have hv : v.toNat ≤ Config.thrMax := by simpa [Instr.wf] using hw
  simp [txRow, namedFrame_value 0x07#8 v (.inl ⟨.inr rfl, hv⟩), payloadValue_bytes16]

theorem RoundTrip.txSetint (seq v : Word16) : RoundTrip.Statement (.txSetint seq v) := by
  intro m _ _
  refine roundTrip_of_txRow _ seq 0x08#8 (bytes16 v) rfl ?_ m
  simp [txRow, namedFrame_value 0x08#8 v (.inr (.inr rfl)), payloadValue_bytes16]

theorem RoundTrip.txTrigger : RoundTrip.Statement .txTrigger := fun _ _ _ => rfl

theorem RoundTrip.rxHsZero (b : Buffer) : RoundTrip.Statement (.rxHsZero b) :=
  fun m hw _ => roundTrip_of_free .hsZero b m (by decide) (by decide) rfl hw
theorem RoundTrip.rxHsReady (b : Buffer) : RoundTrip.Statement (.rxHsReady b) :=
  fun m hw _ => roundTrip_of_free .hsReady b m (by decide) (by decide) rfl hw
theorem RoundTrip.rxHsFormat (b : Buffer) : RoundTrip.Statement (.rxHsFormat b) :=
  fun m hw _ => roundTrip_of_free .hsFormat b m (by decide) (by decide) rfl hw
theorem RoundTrip.rxHsFail (b : Buffer) : RoundTrip.Statement (.rxHsFail b) :=
  fun m hw _ => roundTrip_of_free .hsFail b m (by decide) (by decide) rfl hw
theorem RoundTrip.rxDataZero (b : Buffer) : RoundTrip.Statement (.rxDataZero b) :=
  fun m hw _ => roundTrip_of_free .dataZero b m (by decide) (by decide) rfl hw
theorem RoundTrip.rxAck (b : Buffer) : RoundTrip.Statement (.rxAck b) :=
  fun m hw _ => roundTrip_of_free .ack b m (by decide) (by decide) rfl hw
theorem RoundTrip.rxMalformed (b : Buffer) : RoundTrip.Statement (.rxMalformed b) :=
  fun m hw _ => roundTrip_of_free .malformed b m (by decide) (by decide) rfl hw
theorem RoundTrip.rxDataShort (b : Buffer) : RoundTrip.Statement (.rxDataShort b) :=
  fun m hw hm => roundTrip_of_class .dataShort b m rfl ((isClass_iff _ _ _).1 hw).1 (by simpa [Instr.modeOk] using hm)
theorem RoundTrip.rxDataFull (b : Buffer) : RoundTrip.Statement (.rxDataFull b) :=
  fun m hw hm => roundTrip_of_class .dataFull b m rfl ((isClass_iff _ _ _).1 hw).1 (by simpa [Instr.modeOk] using hm)

end Sys2Proof.Laws
end

