-- ==== Sys2Proof/Machine/Assembler.lean ====
section
/-! DEFINITION. The assembler syntax of programs for the block (spec/30_encoding.md rule R50): one operation a line, the mnemonic,
then its operands separated by commas; `;` starts a comment. A program is the list of queue items it stands for. -/

namespace Sys2Proof.Machine

/-- A text, as characters. -/
abbrev Text := List Char

/-- Whether a character separates words. -/
def isBlank (c : Char) : Bool := c == ' ' || c == '\t' || c == '\r'

/-- A text cut at every `sep`. -/
def cutAt (sep : Char) : Text → List Text
  | [] => [[]]
  | c :: cs =>
    match cutAt sep cs with
    | [] => [[c]]
    | w :: ws => if c == sep then [] :: w :: ws else (c :: w) :: ws

/-- A text without the blanks at its ends. -/
def trimText (t : Text) : Text := ((t.dropWhile isBlank).reverse.dropWhile isBlank).reverse

/-- The digits of rule R50's numbers and bytes, each at its value. -/
def digits : Text := "0123456789ABCDEF".toList

/-- The value of a digit, decimal or hexadecimal, of either case (log entry 14): its place in the list. -/
def digitValue (c : Char) : Option Nat := digits.idxOf? c.toUpper

/-- Digits read in a base, after the value `acc` of those before them. -/
def readDigits (base acc : Nat) : Text → Option Nat
  | [] => some acc
  | c :: cs =>
    match digitValue c with
    | some d => if d < base then readDigits base (acc * base + d) cs else none
    | none => none

/-- A number: decimal, or hexadecimal after `0x`. -/
def readNat : Text → Option Nat
  | [] => none
  | '0' :: 'x' :: c :: cs => readDigits 16 0 (c :: cs)
  | t => readDigits 10 0 t

/-- A byte of a buffer: two hexadecimal digits. -/
def readByte : Text → Option Byte
  | [a, b] => (readDigits 16 0 [a, b]).map (BitVec.ofNat 8)
  | _ => none

/-- A number that is a byte (`cmd` of BUILD). -/
def readU8 (t : Text) : Option Byte :=
  match readNat t with
  | some n => if n < 256 then some (BitVec.ofNat 8 n) else none
  | none => none

/-- Every element read, or nothing. -/
def readEach {α β : Type} (f : α → Option β) : List α → Option (List β)
  | [] => some []
  | x :: xs =>
    match f x, readEach f xs with
    | some y, some ys => some (y :: ys)
    | _, _ => none

/-- A buffer: bytes in hexadecimal between brackets. -/
def readBuffer (t : Text) : Option Buffer :=
  match t with
  | '[' :: rest =>
    match rest.reverse with
    | ']' :: inside => readEach readByte ((cutAt ' ' inside.reverse).filter fun w => !w.isEmpty)
    | _ => none
  | _ => none

/-- A numeric operand that may be named, `name=value`. -/
def readNamed (name : Text) (t : Text) : Option Nat :=
  match cutAt '=' t with
  | [v] => readNat v
  | [n, v] => if trimText n = name then readNat (trimText v) else none
  | _ => none

/-- The operand of SETMODE: a mode name or its number (rule R15). -/
def readMode (t : Text) : Option Nat :=
  if t = "ShortPacket".toList then some 0
  else if t = "LongPacket".toList then some 1
  else if t = "ClusterCount".toList then some 2
  else if t = "HitCount".toList then some 3
  else readNat t

/-- An operation of no operand. -/
def noOperand (op : Byte) (args : List Text) : Option Item := if args = [] then some (command op []) else none

/-- An operation of one buffer. -/
def bufferOperand (op : Byte) (args : List Text) : Option Item :=
  match args with
  | [t] => (readBuffer t).map fun p => command op [.buf p]
  | _ => none

/-- An operation of one number. -/
def numberOperand (op : Byte) (args : List Text) : Option Item :=
  match args with
  | [t] => (readNat t).map fun v => command op [.nat v]
  | _ => none

/-- The six operands of CTRLWR, in order, each of which may be named. -/
def ctrlOperands (args : List Text) : Option Item :=
  match args with
  | [tc, ft, sr, tse, dm, wm] =>
    match readNamed "tc".toList tc, readNamed "ft".toList ft, readNamed "sr".toList sr, readNamed "tse".toList tse,
      readNamed "dm".toList dm, readNamed "wm".toList wm with
    | some a, some b, some c, some d, some e, some f =>
      some (command 0x07#8 [.nat a, .nat b, .nat c, .nat d, .nat e, .nat f])
    | _, _, _, _, _, _ => none
  | _ => none

/-- The two operands of BUILD. -/
def buildOperands (args : List Text) : Option Item :=
  match args with
  | [c, p] =>
    match readU8 c, readBuffer p with
    | some c, some p => some (command 0x01#8 [.u8 c, .buf p])
    | _, _ => none
  | _ => none

/-- The item of a mnemonic and its operands; `RX` names a datagram of `fixtures`. -/
def assembleOp (fixtures : List (String × Buffer)) (name : Text) (args : List Text) : Option Item :=
  if name = "BUILD".toList then buildOperands args
  else if name = "LOOPTEST".toList then bufferOperand 0x02#8 args
  else if name = "CTRLRD".toList then noOperand 0x03#8 args
  else if name = "FPGARST".toList then noOperand 0x04#8 args
  else if name = "CHTHR".toList then bufferOperand 0x05#8 args
  else if name = "CNTRST".toList then bufferOperand 0x06#8 args
  else if name = "CTRLWR".toList then ctrlOperands args
  else if name = "SETTHR".toList then numberOperand 0x08#8 args
  else if name = "SETACQ".toList then numberOperand 0x09#8 args
  else if name = "SETDAC".toList then numberOperand 0x0A#8 args
  else if name = "SETINT".toList then numberOperand 0x0B#8 args
  else if name = "TRIG".toList then noOperand 0x0C#8 args
  else if name = "EXPIRE".toList then noOperand 0x0D#8 args
  else if name = "SETMODE".toList then
    match args with
    | [t] => (readMode t).map fun m => command 0x0E#8 [.nat m]
    | _ => none
  else if name = "STAT".toList then noOperand 0x0F#8 args
  else if name = "RESET".toList then noOperand 0x10#8 args
  else if name = "CRC".toList then bufferOperand 0x11#8 args
  else if name = "RX".toList then
    match args with
    | [t] => (fixtures.find? fun x => x.1.toList == t).map fun x => .rx x.2
    | _ => none
  else none

/-- One line: no item when it holds only a comment. -/
def assembleLine (fixtures : List (String × Buffer)) (line : Text) : Option (Option Item) :=
  let t := trimText (line.takeWhile (· != ';'))
  if t.isEmpty then some none
  else
    let name := t.takeWhile fun c => !isBlank c
    let rest := trimText (t.drop name.length)
    let args := if rest.isEmpty then [] else (cutAt ',' rest).map trimText
    (assembleOp fixtures name args).map some

/-- A program: the items of its lines, in order. -/
def assemble (fixtures : List (String × Buffer)) (program : String) : Option (List Item) :=
  (readEach (assembleLine fixtures) (cutAt '\n' program.toList)).map fun items => items.filterMap id

end Sys2Proof.Machine
end

