-- ==== Sys2Proof/Tests/Slice0.lean ====
section
/-! SUPPORT. Tests: well-formedness with an ill-formed term for each check; the decoding of a word for every constructor,
written out from spec/30_encoding.md, spec/opcode_table.json and the fixtures of spec/95_test_vectors.md; single steps with the
results of that file's vectors; and a witness for the hypotheses of every obligation that has some. -/

namespace Sys2Proof.Tests

open Sys2Proof Sys2Proof.Machine

set_option Elab.async false

/-! Fixtures (spec/95_test_vectors.md section 3). -/

/-- An ack-only reply: bytes 8 and 9 are `hi`, `lo`, and byte 9 repeats to the end. -/
def ackBuf (seq dev code hi lo : Byte) : Buffer :=
  [0xEB#8, 0x90#8, 0x00#8, seq, dev, code, 0x00#8, 0x00#8, hi] ++ rep lo 129

def fixA1 : Buffer := ackBuf 0x01#8 0x07#8 0xF1#8 0x21#8 0x0E#8
def fixA2 : Buffer := ackBuf 0x02#8 0x07#8 0xF1#8 0xCF#8 0xDC#8
def fixA3 : Buffer := ackBuf 0x03#8 0x07#8 0xF1#8 0x65#8 0x8D#8
def fixA2b : Buffer := ackBuf 0x01#8 0x07#8 0xF2#8 0x78#8 0x5E#8
def fixA3b : Buffer := ackBuf 0x01#8 0x07#8 0xF3#8 0x4F#8 0x6E#8
def fixA4 : Buffer := ackBuf 0x01#8 0x07#8 0xF4#8 0xCA#8 0xFE#8
def fixA5 : Buffer := ackBuf 0x01#8 0x07#8 0xF5#8 0xFD#8 0xCE#8
def fixM1 : Buffer := ackBuf 0x01#8 0x07#8 0xF1#8 0x33#8 0x33#8
def fixA98 : Buffer := ackBuf 0x62#8 0x07#8 0xF1#8 0xD6#8 0x00#8

/-- The first eight bytes of a data reply of sequence 1. -/
def dataHead : Buffer := [0xEB#8, 0x90#8, 0x00#8, 0x01#8, 0x07#8, 0xF1#8, 0x00#8, 0x00#8]

def fixL1 : Buffer :=
  dataHead ++ (List.range 32).flatMap (fun j => [0x01#8, 0x02#8, 0x03#8, BitVec.ofNat 8 j]) ++ [0xD2#8, 0x9E#8]
def shortBody : Buffer := (List.range 32).flatMap fun j => [0x01#8, BitVec.ofNat 8 j]
def fixS1 : Buffer := dataHead ++ shortBody ++ [0xC4#8] ++ rep 0x2D#8 65
def fixS2 : Buffer := dataHead ++ shortBody ++ [0xC4#8, 0x2D#8] ++ rep 0x00#8 64
def fixC1 : Buffer :=
  dataHead ++ (List.range 63).flatMap (fun j => [0x10#8, BitVec.ofNat 8 j]) ++ [0x00#8, 0x00#8, 0x1C#8, 0xFB#8]
def fixH1 : Buffer := dataHead ++ [0x00#8, 0x00#8, 0x00#8, 0x01#8] ++ rep 0x00#8 60 ++ [0x19#8] ++ rep 0x10#8 65
def fixH2 : Buffer := dataHead ++ rep 0xFF#8 64 ++ [0x67#8] ++ rep 0x2E#8 65
def fixZ1 : Buffer := dataHead ++ [0x5A#8] ++ rep 0x00#8 129
def fixZ5 : Buffer := [0xEB#8, 0x90#8, 0x00#8, 0x01#8, 0x07#8, 0xF5#8, 0x00#8, 0x00#8, 0x5A#8] ++ rep 0x00#8 129
def fixHSR : Buffer := rep 0x11#8 5 ++ rep 0x22#8 5 ++ rep 0x00#8 128
def fixHSZ : Buffer := rep 0x11#8 5 ++ rep 0x00#8 133
def fixHSF : Buffer := rep 0x11#8 5 ++ rep 0x22#8 4 ++ [0x21#8] ++ rep 0x00#8 128
def fixHSX : Buffer := rep 0x00#8 138
def fixBAD : Buffer := [0x12#8, 0x34#8] ++ rep 0x00#8 136
def fixShort137 : Buffer := fixA1.take 137

/-! States and results. -/

/-- The reset state with another `SEQ`. -/
def atSeq (n : Word16) : State := writeSeq n State.reset

/-- The reset state in mode `m`. -/
def inMode (m : AcqMode) : State := writeMode (.active m) State.reset

/-- The reset state with the handshake in `h`, attempt `a`. -/
def inHs (h : HsState) (a : Fin 2) : State := writeHs h a State.reset

/-- A state with the parameters changed. -/
def withParams (f : Params → Params) (s : State) : State := { s with params := f s.params }

def strictCrc (p : Params) : Params := { p with crcCheckOnReceive := true }
def strictSeq (p : Params) : Params := { p with seqEchoCheck := true }
def gated (p : Params) : Params := { p with ackGateData := true }
def strictGated (p : Params) : Params := { p with crcCheckOnReceive := true, ackGateData := true }
def preOrder (p : Params) : Params := { p with seqOrder := .pre }
def payloadCap (n : Nat) (p : Params) : Params := { p with maxPayloadLen := some n }
def queueDepth (n : Nat) (p : Params) : Params := { p with rxqDepth := some n }

/-- The next state of an outcome. -/
def nextOf : Host.Outcome State Fault Refusal → Option State
  | .next t => some t
  | .fault _ => none
  | .refused _ => none

def txOf (o : Host.Outcome State Fault Refusal) : Option (List Buffer) := (nextOf o).map State.tx
def evtOf (o : Host.Outcome State Fault Refusal) : Option (List Event) := (nextOf o).map State.evt
def dataOf (o : Host.Outcome State Fault Refusal) : Option (List (List Word32)) := (nextOf o).map State.data
def seqsOf (o : Host.Outcome State Fault Refusal) : Option (Word16 × Option Word16) :=
  (nextOf o).map fun t => (t.seq, t.lastSeq)
def hsOf (o : Host.Outcome State Fault Refusal) : Option (HsState × Fin 2) :=
  (nextOf o).map fun t => (t.hsState, t.hsAttempt)
def flagOf (o : Host.Outcome State Fault Refusal) : Option Bool := (nextOf o).map State.replyFlag

/-- The reply info of a fixture: its extra field is zero in every one. -/
def infoOf (c : RxClass) (seq : Word16) (code : Byte) (field sum : Word16) : ReplyInfo :=
  { cls := c, seqEcho := seq, deviceId := 0x07#8, ackCode := code, extra := [0x00#8, 0x00#8]
    crcField := field, crcCalc := sum }

/-! Well-formedness: a term of every check that it refuses, beside one it lets pass. -/

theorem test_wf_txBuild :
    (Instr.txBuild 1 0x05#8 [0x00#8, 0x64#8]).wf = false ∧ (Instr.txBuild 1 0x05#8 [0x10#8, 0x00#8]).wf = true := by decide +kernel

theorem test_wf_txBuild_ctrl :
    (Instr.txBuild 1 0x04#8 [0x00#8, 0x1F#8]).wf = false ∧ (Instr.txBuild 1 0x04#8 [0x00#8, 0x20#8]).wf = true := by decide +kernel

theorem test_wf_txBuild_fixed :
    (Instr.txBuild 1 0x01#8 []).wf = false ∧ (Instr.txBuild 1 0x02#8 []).wf = false ∧ (Instr.txBuild 1 0x03#8 []).wf = false ∧
    (Instr.txBuild 1 0x06#8 [0xFF#8, 0xFF#8]).wf = false ∧ (Instr.txBuild 1 0x09#8 []).wf = true := by decide +kernel

theorem test_wf_txLooptest :
    (Instr.txLooptest 1 [0x02#8, 0x00#8]).wf = false ∧ (Instr.txLooptest 1 [0x01#8, 0x00#8]).wf = false ∧
    (Instr.txLooptest 1 [0x00#8, 0x00#8]).wf = true := by decide +kernel

theorem test_wf_txSetthr :
    (Instr.txSetthr 1 4096).wf = false ∧ (Instr.txSetthr 1 4095).wf = true := by decide +kernel

theorem test_wf_txSetdac :
    (Instr.txSetdac 1 4096).wf = false ∧ (Instr.txSetdac 1 4095).wf = true := by decide +kernel

theorem test_wf_rxHsZero :
    (Instr.rxHsZero fixHSR).wf = false ∧ (Instr.rxHsZero fixHSZ).wf = true := by decide +kernel

theorem test_wf_rxHsReady :
    (Instr.rxHsReady fixHSZ).wf = false ∧ (Instr.rxHsReady (fixHSR.take 137)).wf = false ∧ (Instr.rxHsReady fixHSR).wf = true := by decide +kernel

theorem test_wf_rxHsFormat :
    (Instr.rxHsFormat fixHSR).wf = false ∧ (Instr.rxHsFormat fixHSF).wf = true := by decide +kernel

theorem test_wf_rxHsFail :
    (Instr.rxHsFail fixBAD).wf = false ∧ (Instr.rxHsFail fixHSX).wf = true := by decide +kernel

theorem test_wf_rxDataZero :
    (Instr.rxDataZero fixA1).wf = false ∧ (Instr.rxDataZero fixZ1).wf = true := by decide +kernel

theorem test_wf_rxAck :
    (Instr.rxAck fixShort137).wf = false ∧ (Instr.rxAck fixA98).wf = false ∧ (Instr.rxAck fixA1).wf = true := by decide +kernel

theorem test_wf_rxDataShort :
    (Instr.rxDataShort fixS2).wf = false ∧ (Instr.rxDataShort fixS1).wf = true ∧
    (Instr.rxDataShort fixS1).modeOk (.active .longPacket) = false := by decide +kernel

theorem test_wf_rxDataFull :
    (Instr.rxDataFull fixZ1).wf = false ∧ (Instr.rxDataFull fixL1).wf = true ∧
    (Instr.rxDataFull fixS1).modeOk (.active .hitCount) = false := by decide +kernel

theorem test_wf_rxMalformed :
    (Instr.rxMalformed fixHSX).wf = false ∧ (Instr.rxMalformed fixBAD).wf = true := by decide +kernel

/-! Decoding: for each constructor a word written out from the spec. Operation numbers: rule R49. -/

theorem test_decode_build :
    decodeItem (.cmd { op := 0x01#8, args := [.u8 0x0C#8, .buf [0xAE#8, 0x00#8]] }) = .ok (.build 0x0C#8 [0xAE#8, 0x00#8]) := by decide

theorem test_decode_looptest :
    decodeItem (.cmd { op := 0x02#8, args := [.buf [0x55#8]] }) = .ok (.looptest [0x55#8]) := by decide

theorem test_decode_ctrlrd : decodeItem (.cmd { op := 0x03#8, args := [] }) = .ok (.ctrlrd) := by decide

theorem test_decode_fpgarst :
    decodeItem (.cmd { op := 0x04#8, args := [] }) = .ok (.fpgarst) := by decide

theorem test_decode_chthr :
    decodeItem (.cmd { op := 0x05#8, args := [.buf [0x00#8, 0x05#8]] }) = .ok (.chthr [0x00#8, 0x05#8]) := by decide

theorem test_decode_cntrst :
    decodeItem (.cmd { op := 0x06#8, args := [.buf [0x00#8]] }) = .ok (.cntrst [0x00#8]) := by decide

theorem test_decode_ctrlwr :
    decodeItem (.cmd { op := 0x07#8, args := [.nat 1, .nat 2, .nat 5, .nat 1, .nat 3, .nat 1] }) = .ok (.ctrlwr 1 2 5 1 3 1) := by decide

theorem test_decode_setthr :
    decodeItem (.cmd { op := 0x08#8, args := [.nat 100] }) = .ok (.setthr 100) := by decide

theorem test_decode_setacq :
    decodeItem (.cmd { op := 0x09#8, args := [.nat 1000] }) = .ok (.setacq 1000) := by decide

theorem test_decode_setdac :
    decodeItem (.cmd { op := 0x0A#8, args := [.nat 7] }) = .ok (.setdac 7) := by decide

theorem test_decode_setint :
    decodeItem (.cmd { op := 0x0B#8, args := [.nat 9] }) = .ok (.setint 9) := by decide

theorem test_decode_trig : decodeItem (.cmd { op := 0x0C#8, args := [] }) = .ok (.trig) := by decide

theorem test_decode_expire : decodeItem (.cmd { op := 0x0D#8, args := [] }) = .ok (.expire) := by decide

theorem test_decode_setmode :
    decodeItem (.cmd { op := 0x0E#8, args := [.nat 3] }) = .ok (.setmode 3) := by decide

theorem test_decode_stat : decodeItem (.cmd { op := 0x0F#8, args := [] }) = .ok (.stat) := by decide

theorem test_decode_reset : decodeItem (.cmd { op := 0x10#8, args := [] }) = .ok (.reset) := by decide

theorem test_decode_crc :
    decodeItem (.cmd { op := 0x11#8, args := [.buf [0x31#8]] }) = .ok (.crc [0x31#8]) := by decide

theorem test_decode_refused :
    decodeItem (.cmd { op := 0x00#8, args := [] }) = .error .unknownOperation ∧
    decodeItem (.cmd { op := 0x12#8, args := [] }) = .error .unknownOperation ∧
    decodeItem (.cmd { op := 0x08#8, args := [] }) = .error .badOperands := by decide

theorem test_decode_rx : decodeItem (.rx fixShort137) = .ok (.rx fixShort137) := by decide +kernel

/-- Source: V-ENC-31. -/
theorem test_decode_txBuild :
    decodeFrame [0xEB#8, 0x90#8, 0x00#8, 0x01#8, 0x00#8, 0x0C#8, 0xAE#8, 0x00#8, 0xEF#8, 0x51#8] = .ok (.txBuild 1 0x0C#8 [0xAE#8, 0x00#8]) := by decide +kernel

/-- Source: V-ENC-22. -/
theorem test_decode_txLooptest :
    decodeFrame [0xEB#8, 0x90#8, 0x00#8, 0x01#8, 0x00#8, 0x01#8, 0x00#8, 0x00#8, 0x93#8, 0x71#8] = .ok (.txLooptest 1 [0x00#8, 0x00#8]) := by decide +kernel

/-- Source: V-ENC-24. -/
theorem test_decode_txCtrlrd :
    decodeFrame [0xEB#8, 0x90#8, 0x00#8, 0x05#8, 0x00#8, 0x01#8, 0x02#8, 0x00#8, 0x7C#8, 0x15#8] = .ok (.txCtrlrd 5) := by decide +kernel

/-- Source: V-ENC-26. -/
theorem test_decode_txFpgarst :
    decodeFrame [0xEB#8, 0x90#8, 0x00#8, 0x06#8, 0x00#8, 0x01#8, 0x01#8, 0x00#8, 0xC7#8, 0x94#8] = .ok (.txFpgarst 6) := by decide +kernel

/-- Source: V-ENC-27. -/
theorem test_decode_txChthr :
    decodeFrame [0xEB#8, 0x90#8, 0x00#8, 0x01#8, 0x00#8, 0x02#8, 0x00#8, 0x05#8, 0x00#8, 0x64#8, 0x0A#8, 0x0E#8] = .ok (.txChthr 1 [0x00#8, 0x05#8, 0x00#8, 0x64#8]) := by decide +kernel

/-- Source: V-ENC-29. -/
theorem test_decode_txCntrst :
    decodeFrame [0xEB#8, 0x90#8, 0x00#8, 0x02#8, 0x00#8, 0x03#8, 0x00#8, 0x00#8, 0x13#8, 0xC3#8] = .ok (.txCntrst 2 [0x00#8, 0x00#8]) := by decide +kernel

/-- Source: V-ENC-18. -/
theorem test_decode_txCtrlwr :
    decodeFrame [0xEB#8, 0x90#8, 0x00#8, 0x07#8, 0x00#8, 0x04#8, 0x65#8, 0x1D#8, 0x82#8, 0x47#8] = .ok (.txCtrlwr 7 1 2 5 1 3 1) := by decide +kernel

/-- Source: V-ENC-1. -/
theorem test_decode_txSetthr :
    decodeFrame [0xEB#8, 0x90#8, 0x00#8, 0x01#8, 0x00#8, 0x05#8, 0x00#8, 0x64#8, 0x63#8, 0x93#8] = .ok (.txSetthr 1 100) := by decide +kernel

/-- Source: V-ENC-7. -/
theorem test_decode_txSetacq :
    decodeFrame [0xEB#8, 0x90#8, 0x00#8, 0x02#8, 0x00#8, 0x06#8, 0xFF#8, 0xFF#8, 0xE5#8, 0x3C#8] = .ok (.txSetacq 2 65535) := by decide +kernel

/-- Source: V-ENC-11. -/
theorem test_decode_txSetdac :
    decodeFrame [0xEB#8, 0x90#8, 0x00#8, 0x03#8, 0x00#8, 0x07#8, 0x0F#8, 0xFF#8, 0x6B#8, 0x9C#8] = .ok (.txSetdac 3 4095) := by decide +kernel

/-- Source: V-ENC-13. -/
theorem test_decode_txSetint :
    decodeFrame [0xEB#8, 0x90#8, 0x00#8, 0x04#8, 0x00#8, 0x08#8, 0x00#8, 0x00#8, 0x2E#8, 0xB7#8] = .ok (.txSetint 4 0) := by decide +kernel

/-- Source: rule R39. -/
theorem test_decode_txTrigger :
    decodeFrame [0xEB#8, 0x90#8, 0x00#8, 0x00#8, 0x00#8, 0x0C#8, 0xAE#8, 0x00#8, 0x00#8, 0x00#8] = .ok (.txTrigger) := by decide +kernel

theorem test_decode_frame_refused :
    decodeFrame [0xEB#8, 0x90#8, 0x00#8, 0x01#8, 0x00#8, 0x05#8, 0x00#8, 0x64#8, 0x63#8, 0x94#8] = .error .badCrc ∧
    decodeFrame [0xEB#8, 0x90#8, 0x00#8, 0x01#8, 0x01#8, 0x05#8, 0x00#8, 0x64#8, 0x63#8, 0x93#8] = .error .badReserved ∧
    decodeFrame [0xEB#8, 0x91#8, 0x00#8, 0x01#8, 0x00#8, 0x05#8, 0x00#8, 0x64#8, 0x63#8, 0x93#8] = .error .badHeader ∧
    decodeFrame [0xEB#8, 0x90#8, 0x00#8, 0x01#8, 0x00#8, 0x05#8, 0x00#8] = .error .tooShort := by decide +kernel

theorem test_decode_rxHsZero : decodeClass .unset fixHSZ = .ok (.rxHsZero fixHSZ) := by decide +kernel

theorem test_decode_rxHsReady : decodeClass .unset fixHSR = .ok (.rxHsReady fixHSR) := by decide +kernel

theorem test_decode_rxHsFormat : decodeClass .unset fixHSF = .ok (.rxHsFormat fixHSF) := by decide +kernel

theorem test_decode_rxHsFail : decodeClass .unset fixHSX = .ok (.rxHsFail fixHSX) := by decide +kernel

theorem test_decode_rxDataZero :
    decodeClass (.active .hitCount) fixZ5 = .ok (.rxDataZero fixZ5) := by decide +kernel

theorem test_decode_rxAck : decodeClass (.active .shortPacket) fixA1 = .ok (.rxAck fixA1) := by decide +kernel

theorem test_decode_rxDataShort :
    decodeClass (.active .hitCount) fixS1 = .ok (.rxDataShort fixS1) := by decide +kernel

theorem test_decode_rxDataFull :
    decodeClass (.active .longPacket) fixS1 = .ok (.rxDataFull fixS1) := by decide +kernel

theorem test_decode_rxMalformed : decodeClass .unset fixBAD = .ok (.rxMalformed fixBAD) := by decide +kernel

theorem test_decode_datagram_refused : decodeClass .unset fixShort137 = .error .badLength := by decide +kernel

/-! The CRC generator (section 4.1). -/

/-- Source: V-CRC-3, V-CRC-4, V-CRC-8, V-CRC-10. -/
theorem test_crc_vectors :
    crc16 [0x00#8] = 0xE1F0#16 ∧ crc16 [0xFF#8] = 0xFF00#16 ∧ crc16 [0xEB#8, 0x90#8] = 0x52FE#16 ∧
    crc16 [0x31#8, 0x32#8, 0x33#8, 0x34#8, 0x35#8, 0x36#8, 0x37#8, 0x38#8, 0x39#8, 0x29#8, 0xB1#8] = 0x0000#16 := by decide +kernel

/-- Source: V-CRC-14. -/
theorem test_crc_long : crc16 (rep 0x00#8 128) = 0xF00A#16 := by decide +kernel

/-- Source: V-CTL-7. -/
theorem test_crc_event : evtOf (exec (.crc []) State.reset) = some [.crcValue 0xFFFF#16] := by decide +kernel

/-! The encoder (section 4.2): the frame sent, the event, `SEQ` and `LAST_SEQ` after. -/

/-- Source: V-ENC-3. -/
theorem test_enc_setthr :
    txOf (exec (.setthr 4095) State.reset) = some [[0xEB#8, 0x90#8, 0x00#8, 0x01#8, 0x00#8, 0x05#8, 0x0F#8, 0xFF#8, 0x41#8, 0x7F#8]] ∧
    evtOf (exec (.setthr 4095) State.reset) = some [.frameSent 1 0x05#8 10] ∧ seqsOf (exec (.setthr 4095) State.reset) = some (2, some 1) := by decide +kernel

/-- Source: V-ENC-7. -/
theorem test_enc_setacq :
    txOf (exec (.setacq 65535) (atSeq 2)) = some [[0xEB#8, 0x90#8, 0x00#8, 0x02#8, 0x00#8, 0x06#8, 0xFF#8, 0xFF#8, 0xE5#8, 0x3C#8]] ∧
    evtOf (exec (.setacq 65535) (atSeq 2)) = some [.frameSent 2 0x06#8 10] ∧ seqsOf (exec (.setacq 65535) (atSeq 2)) = some (3, some 2) := by decide +kernel

/-- Source: V-ENC-9. -/
theorem test_enc_setdac :
    txOf (exec (.setdac 0) State.reset) = some [[0xEB#8, 0x90#8, 0x00#8, 0x01#8, 0x00#8, 0x07#8, 0x00#8, 0x00#8, 0x21#8, 0xD1#8]] ∧
    evtOf (exec (.setdac 0) State.reset) = some [.frameSent 1 0x07#8 10] ∧ seqsOf (exec (.setdac 0) State.reset) = some (2, some 1) := by decide +kernel

/-- Source: V-ENC-14. -/
theorem test_enc_setint :
    txOf (exec (.setint 65535) State.reset) = some [[0xEB#8, 0x90#8, 0x00#8, 0x01#8, 0x00#8, 0x08#8, 0xFF#8, 0xFF#8, 0x10#8, 0xEF#8]] ∧
    evtOf (exec (.setint 65535) State.reset) = some [.frameSent 1 0x08#8 10] ∧ seqsOf (exec (.setint 65535) State.reset) = some (2, some 1) := by decide +kernel

/-- Source: V-ENC-18, V-ENC-16. -/
theorem test_enc_ctrlwr :
    txOf (exec (.ctrlwr 1 2 5 1 3 1) (atSeq 7)) = some [[0xEB#8, 0x90#8, 0x00#8, 0x07#8, 0x00#8, 0x04#8, 0x65#8, 0x1D#8, 0x82#8, 0x47#8]] ∧
    evtOf (exec (.ctrlwr 1 2 5 1 3 1) (atSeq 7)) = some [.frameSent 7 0x04#8 10] ∧ seqsOf (exec (.ctrlwr 1 2 5 1 3 1) (atSeq 7)) = some (8, some 7) ∧
    txOf (exec (.ctrlwr 3 3 15 1 3 3) State.reset) = some [[0xEB#8, 0x90#8, 0x00#8, 0x01#8, 0x00#8, 0x04#8, 0xFF#8, 0x1F#8, 0x98#8, 0xA0#8]] ∧
    evtOf (exec (.ctrlwr 3 3 15 1 3 3) State.reset) = some [.frameSent 1 0x04#8 10] ∧ seqsOf (exec (.ctrlwr 3 3 15 1 3 3) State.reset) = some (2, some 1) := by decide +kernel

/-- Source: V-ENC-22. -/
theorem test_enc_looptest :
    txOf (exec (.looptest [0x00#8, 0x00#8]) State.reset) = some [[0xEB#8, 0x90#8, 0x00#8, 0x01#8, 0x00#8, 0x01#8, 0x00#8, 0x00#8, 0x93#8, 0x71#8]] ∧
    evtOf (exec (.looptest [0x00#8, 0x00#8]) State.reset) = some [.frameSent 1 0x01#8 10] ∧ seqsOf (exec (.looptest [0x00#8, 0x00#8]) State.reset) = some (2, some 1) := by decide +kernel

/-- Source: V-ENC-24. -/
theorem test_enc_ctrlrd :
    txOf (exec (.ctrlrd) (atSeq 5)) = some [[0xEB#8, 0x90#8, 0x00#8, 0x05#8, 0x00#8, 0x01#8, 0x02#8, 0x00#8, 0x7C#8, 0x15#8]] ∧
    evtOf (exec (.ctrlrd) (atSeq 5)) = some [.frameSent 5 0x01#8 10] ∧ seqsOf (exec (.ctrlrd) (atSeq 5)) = some (6, some 5) := by decide +kernel

/-- Source: V-ENC-25. -/
theorem test_enc_fpgarst :
    txOf (exec (.fpgarst) State.reset) = some [[0xEB#8, 0x90#8, 0x00#8, 0x01#8, 0x00#8, 0x01#8, 0x01#8, 0x00#8, 0xA0#8, 0x40#8]] ∧
    evtOf (exec (.fpgarst) State.reset) = some [.frameSent 1 0x01#8 10] ∧ seqsOf (exec (.fpgarst) State.reset) = some (2, some 1) := by decide +kernel

/-- Source: V-ENC-27. -/
theorem test_enc_chthr :
    txOf (exec (.chthr [0x00#8, 0x05#8, 0x00#8, 0x64#8]) State.reset) = some [[0xEB#8, 0x90#8, 0x00#8, 0x01#8, 0x00#8, 0x02#8, 0x00#8, 0x05#8, 0x00#8, 0x64#8, 0x0A#8, 0x0E#8]] ∧
    evtOf (exec (.chthr [0x00#8, 0x05#8, 0x00#8, 0x64#8]) State.reset) = some [.frameSent 1 0x02#8 12] ∧ seqsOf (exec (.chthr [0x00#8, 0x05#8, 0x00#8, 0x64#8]) State.reset) = some (2, some 1) := by decide +kernel

/-- Source: V-ENC-29. -/
theorem test_enc_cntrst :
    txOf (exec (.cntrst [0x00#8, 0x00#8]) (atSeq 2)) = some [[0xEB#8, 0x90#8, 0x00#8, 0x02#8, 0x00#8, 0x03#8, 0x00#8, 0x00#8, 0x13#8, 0xC3#8]] ∧
    evtOf (exec (.cntrst [0x00#8, 0x00#8]) (atSeq 2)) = some [.frameSent 2 0x03#8 10] ∧ seqsOf (exec (.cntrst [0x00#8, 0x00#8]) (atSeq 2)) = some (3, some 2) := by decide +kernel

/-- Source: V-ENC-30, V-ENC-34. -/
theorem test_enc_build :
    txOf (exec (.build 0xFF#8 []) State.reset) = some [[0xEB#8, 0x90#8, 0x00#8, 0x01#8, 0x00#8, 0xFF#8, 0xAD#8, 0x00#8]] ∧
    evtOf (exec (.build 0xFF#8 []) State.reset) = some [.frameSent 1 0xFF#8 8] ∧ seqsOf (exec (.build 0xFF#8 []) State.reset) = some (2, some 1) ∧
    txOf (exec (.build 0x00#8 []) (atSeq 65534)) = some [[0xEB#8, 0x90#8, 0xFF#8, 0xFE#8, 0x00#8, 0x00#8, 0x37#8, 0x30#8]] ∧
    evtOf (exec (.build 0x00#8 []) (atSeq 65534)) = some [.frameSent 65534 0x00#8 8] ∧ seqsOf (exec (.build 0x00#8 []) (atSeq 65534)) = some (65535, some 65534) := by decide +kernel

/-- Source: V-ENC-38, V-ENC-39. -/
theorem test_enc_pre :
    txOf (exec (.setthr 100) (withParams preOrder State.reset)) = some [[0xEB#8, 0x90#8, 0x00#8, 0x02#8, 0x00#8, 0x05#8, 0x00#8, 0x64#8, 0x8D#8, 0x41#8]] ∧
    evtOf (exec (.setthr 100) (withParams preOrder State.reset)) = some [.frameSent 2 0x05#8 10] ∧ seqsOf (exec (.setthr 100) (withParams preOrder State.reset)) = some (2, some 2) ∧
    txOf (exec (.setthr 100) (withParams preOrder (atSeq 65534))) = some [[0xEB#8, 0x90#8, 0xFF#8, 0xFF#8, 0x00#8, 0x05#8, 0x00#8, 0x64#8, 0xC7#8, 0xD2#8]] ∧
    evtOf (exec (.setthr 100) (withParams preOrder (atSeq 65534))) = some [.frameSent 65535 0x05#8 10] ∧ seqsOf (exec (.setthr 100) (withParams preOrder (atSeq 65534))) = some (65535, some 65535) := by decide +kernel

/-- Source: V-ENC-4, V-ENC-36. -/
theorem test_enc_setthr_over :
    exec (.setthr 4096) State.reset = .next (afterError (.valueOutOfRange .threshold 4096) State.reset) ∧ errorCode (.valueOutOfRange .threshold 4096) = 0x05#8 ∧
    exec (.setthr 5000) (atSeq 65535) = .next (afterError (.valueOutOfRange .threshold 5000) (atSeq 65535)) ∧ errorCode (.valueOutOfRange .threshold 5000) = 0x05#8 := ⟨rfl, rfl, rfl, rfl⟩

/-- Source: V-ENC-8. -/
theorem test_enc_setacq_over :
    exec (.setacq 65536) State.reset = .next (afterError (.valueOutOfRange .acqTime 65536) State.reset) ∧ errorCode (.valueOutOfRange .acqTime 65536) = 0x05#8 := ⟨rfl, rfl⟩

/-- Source: V-ENC-20. -/
theorem test_enc_ctrlwr_over :
    exec (.ctrlwr 3 3 16 2 4 4) State.reset = .next (afterError (.valueOutOfRange .ctrlSr 16) State.reset) ∧ errorCode (.valueOutOfRange .ctrlSr 16) = 0x05#8 := ⟨rfl, rfl⟩

/-- Source: V-ENC-35. -/
theorem test_enc_build_exhausted :
    exec (.build 0x00#8 []) (atSeq 65535) = .next (afterError (.seqOverflow 65535) (atSeq 65535)) ∧ errorCode (.seqOverflow 65535) = 0x04#8 := ⟨rfl, rfl⟩

/-- The TX rows send the frames V-ENC-1 and V-ENC-18 (log entry 1). -/
theorem test_enc_tx_row :
    txOf (exec (.txSetthr 1 100) State.reset) = some [[0xEB#8, 0x90#8, 0x00#8, 0x01#8, 0x00#8, 0x05#8, 0x00#8, 0x64#8, 0x63#8, 0x93#8]] ∧
    txOf (exec (.txCtrlwr 7 1 2 5 1 3 1) (atSeq 7)) = some [[0xEB#8, 0x90#8, 0x00#8, 0x07#8, 0x00#8, 0x04#8, 0x65#8, 0x1D#8, 0x82#8, 0x47#8]] := by decide +kernel

/-! The classifier and the replies (section 4.3). -/

/-- Source: V-CLS-1, V-CLS-8. -/
theorem test_cls_ack :
    evtOf (exec (.rx fixA1) State.reset) = some [.ackAccepted (infoOf .ack 1 0xF1#8 0x210E#16 0x210E#16)] ∧
    flagOf (exec (.rx fixA1) State.reset) = some true ∧
    evtOf (exec (.rx fixM1) State.reset) = some [.ackAccepted (infoOf .ack 1 0xF1#8 0x3333#16 0x210E#16)] ∧
    flagOf (exec (.rx fixM1) State.reset) = some true := by decide +kernel

/-- Source: V-CLS-2, V-CLS-3, V-CLS-4. -/
theorem test_cls_notes :
    evtOf (exec (.rx fixA2b) State.reset) = some [.ackNote 0xF2#8 .possibleLostCommand, .ackAccepted (infoOf .ack 1 0xF2#8 0x785E#16 0x785E#16)] ∧
    flagOf (exec (.rx fixA2b) State.reset) = some true ∧
    evtOf (exec (.rx fixA3b) State.reset) = some [.ackNote 0xF3#8 .deviceBusy, .ackAccepted (infoOf .ack 1 0xF3#8 0x4F6E#16 0x4F6E#16)] ∧
    flagOf (exec (.rx fixA3b) State.reset) = some true ∧
    evtOf (exec (.rx fixA4) State.reset) = some [.ackNote 0xF4#8 .crcFaultTolerated, .ackAccepted (infoOf .ack 1 0xF4#8 0xCAFE#16 0xCAFE#16)] ∧
    flagOf (exec (.rx fixA4) State.reset) = some true := by decide +kernel

/-- Source: V-CLS-5, V-CLS-20. -/
theorem test_cls_code :
    evtOf (exec (.rx fixA5) State.reset) = some [.err 0x08#8 (.ackRejected .code (infoOf .ack 1 0xF5#8 0xFDCE#16 0xFDCE#16))] ∧
    flagOf (exec (.rx fixA5) State.reset) = some true ∧
    evtOf (exec (.rx fixA5) (withParams strictCrc (withParams strictSeq State.reset))) = some [.err 0x08#8 (.ackRejected .code (infoOf .ack 1 0xF5#8 0xFDCE#16 0xFDCE#16))] ∧
    flagOf (exec (.rx fixA5) (withParams strictCrc (withParams strictSeq State.reset))) = some true := by decide +kernel

/-- Source: V-CLS-9. -/
theorem test_cls_mode_unset :
    evtOf (exec (.rx fixL1) State.reset) = some [.err 0x09#8 .modeUnset] ∧
    flagOf (exec (.rx fixL1) State.reset) = some false := by decide +kernel

/-- Source: V-CLS-10, V-CLS-11. -/
theorem test_cls_data_zero :
    evtOf (exec (.rx fixZ5) (inMode .longPacket)) = some [.dataDecoded (infoOf .dataZero 1 0xF5#8 0x0000#16 0x8F58#16) 32] ∧
    flagOf (exec (.rx fixZ5) (inMode .longPacket)) = some true ∧
    evtOf (exec (.rx fixZ5) (withParams gated (inMode .longPacket))) = some [.err 0x08#8 (.ackRejected .code (infoOf .dataZero 1 0xF5#8 0x0000#16 0x8F58#16))] ∧
    flagOf (exec (.rx fixZ5) (withParams gated (inMode .longPacket))) = some true := by decide +kernel

/-- Source: V-CLS-13, V-CLS-14, V-CLS-15. -/
theorem test_cls_crc :
    evtOf (exec (.rx fixS1) (withParams strictCrc (inMode .longPacket))) = some [.err 0x08#8 (.ackRejected .crc (infoOf .dataFull 1 0xF1#8 0x2D2D#16 0x8F86#16))] ∧
    flagOf (exec (.rx fixS1) (withParams strictCrc (inMode .longPacket))) = some true ∧
    evtOf (exec (.rx fixZ1) (withParams strictCrc (inMode .longPacket))) = some [.err 0x08#8 (.ackRejected .crc (infoOf .dataZero 1 0xF1#8 0x0000#16 0x7A27#16))] ∧
    flagOf (exec (.rx fixZ1) (withParams strictCrc (inMode .longPacket))) = some true ∧
    evtOf (exec (.rx fixL1) (withParams strictCrc (inMode .longPacket))) = some [.dataDecoded (infoOf .dataFull 1 0xF1#8 0xD29E#16 0xD29E#16) 32] ∧
    flagOf (exec (.rx fixL1) (withParams strictCrc (inMode .longPacket))) = some true := by decide +kernel

/-- Source: V-CLS-17, V-CLS-18, its last step, V-CLS-19, its last step. -/
theorem test_cls_seq :
    evtOf (exec (.rx fixA1) (withParams strictSeq State.reset)) = some [.err 0x08#8 (.ackRejected .seq (infoOf .ack 1 0xF1#8 0x210E#16 0x210E#16))] ∧
    flagOf (exec (.rx fixA1) (withParams strictSeq State.reset)) = some true ∧
    evtOf (exec (.rx fixA1) (withParams strictSeq (writeLastSeq 1 State.reset))) = some [.ackAccepted (infoOf .ack 1 0xF1#8 0x210E#16 0x210E#16)] ∧
    flagOf (exec (.rx fixA1) (withParams strictSeq (writeLastSeq 1 State.reset))) = some true ∧
    evtOf (exec (.rx fixA2) (withParams strictSeq (writeLastSeq 1 State.reset))) = some [.err 0x08#8 (.ackRejected .seq (infoOf .ack 2 0xF1#8 0xCFDC#16 0xCFDC#16))] ∧
    flagOf (exec (.rx fixA2) (withParams strictSeq (writeLastSeq 1 State.reset))) = some true := by decide +kernel

/-- Source: V-CLS-22. -/
theorem test_cls_ack_as_data :
    evtOf (exec (.rx fixA98) (inMode .longPacket)) = some [.dataDecoded (infoOf .dataZero 0x62#16 0xF1#8 0x0000#16 0x0000#16) 32] ∧
    flagOf (exec (.rx fixA98) (inMode .longPacket)) = some true := by decide +kernel

/-- Source: fixture S1 and V-DEC-2, with the CRC check on. -/
theorem test_cls_short :
    evtOf (exec (.rx fixS1) (withParams strictCrc (inMode .shortPacket))) = some [.dataDecoded (infoOf .dataShort 1 0xF1#8 0xC42D#16 0xC42D#16) 32] ∧
    flagOf (exec (.rx fixS1) (withParams strictCrc (inMode .shortPacket))) = some true := by decide +kernel

/-- Source: V-CLS-25. -/
theorem test_cls_malformed :
    evtOf (exec (.rx fixBAD) State.reset) = some [.err 0x02#8 (.framingHeader [0x12#8, 0x34#8, 0x00#8, 0x00#8, 0x00#8])] ∧
    flagOf (exec (.rx fixBAD) State.reset) = some false := by decide +kernel

/-- Source: V-CLS-28, V-CLS-30. -/
theorem test_cls_length :
    evtOf (exec (.rx fixShort137) State.reset) = some [.err 0x01#8 (.framingLen 137)] ∧
    flagOf (exec (.rx fixShort137) State.reset) = some false ∧
    evtOf (exec (.rx []) State.reset) = some [.err 0x01#8 (.framingLen 0)] ∧
    flagOf (exec (.rx []) State.reset) = some false := by decide +kernel

/-- Source: V-CLS-31. -/
theorem test_cls_format :
    evtOf (exec (.rx fixHSF) State.reset) = some [.err 0x03#8 (.hsFormatErr [0x22#8, 0x22#8, 0x22#8, 0x22#8, 0x21#8])] ∧
    flagOf (exec (.rx fixHSF) State.reset) = some false := by decide +kernel

/-! The channel decoder (section 4.4). -/

/-- Source: V-DEC-1, V-DEC-13. -/
theorem test_dec_long :
    dataOf (exec (.rx fixL1) (inMode .longPacket)) = some [(List.range 32).map fun j => BitVec.ofNat 32 (0x01020300 + j)] ∧
    dataOf (exec (.rx fixZ1) (inMode .longPacket)) = some [0x5A000000#32 :: List.replicate 31 0] := by decide +kernel

/-- Source: V-DEC-2, V-CLS-24, V-DEC-14. -/
theorem test_dec_short :
    dataOf (exec (.rx fixS1) (inMode .shortPacket)) = some [(List.range 32).map fun j => BitVec.ofNat 32 (0x0100 + j)] ∧
    dataOf (exec (.rx fixS2) (inMode .shortPacket)) = some [(List.range 32).map fun j => BitVec.ofNat 32 (0x0100 + j)] ∧
    dataOf (exec (.rx fixZ1) (inMode .shortPacket)) = some [0x5A00#32 :: List.replicate 31 0] := by decide +kernel

/-- Source: V-DEC-5. -/
theorem test_dec_cluster :
    dataOf (exec (.rx fixC1) (inMode .clusterCount)) = some [(List.range 63).map fun j => BitVec.ofNat 32 (0x1000 + j)] := by decide +kernel

/-- Source: V-DEC-7, V-DEC-8, V-DEC-10. -/
theorem test_dec_hit :
    dataOf (exec (.rx fixH1) (inMode .hitCount)) = some [1 :: List.replicate 31 0] ∧
    dataOf (exec (.rx fixH2) (inMode .hitCount)) = some [List.replicate 32 16] ∧
    dataOf (exec (.rx fixL1) (inMode .hitCount)) = some [[8, 8, 8, 8, 0, 0, 0, 0, 16, 16, 0, 0, 0, 0, 0, 0, 0, 16, 0, 0, 0, 0, 0, 0, 16, 0, 0, 0, 0, 0, 0, 0]] := by decide +kernel

/-! The handshake (section 4.5), one step each. -/

/-- Source: V-HS-1, V-ENC-37. -/
theorem test_hs_trig :
    txOf (exec (.trig) State.reset) = some [[0xEB#8, 0x90#8, 0x00#8, 0x00#8, 0x00#8, 0x0C#8, 0xAE#8, 0x00#8, 0x00#8, 0x00#8]] ∧
    evtOf (exec (.trig) State.reset) = some [.trigSent 0] ∧ hsOf (exec (.trig) State.reset) = some (.awaitingReply, 0) ∧
    txOf (exec (.trig) (atSeq 65535)) = some [[0xEB#8, 0x90#8, 0x00#8, 0x00#8, 0x00#8, 0x0C#8, 0xAE#8, 0x00#8, 0x00#8, 0x00#8]] ∧
    evtOf (exec (.trig) (atSeq 65535)) = some [.trigSent 0] ∧ hsOf (exec (.trig) (atSeq 65535)) = some (.awaitingReply, 0) := by decide +kernel

/-- Source: V-HS-8, its third step. -/
theorem test_hs_tx_trigger :
    txOf (exec (.txTrigger) (inHs .awaitingReply 1)) = some [[0xEB#8, 0x90#8, 0x00#8, 0x00#8, 0x00#8, 0x0C#8, 0xAE#8, 0x00#8, 0x00#8, 0x00#8]] ∧
    evtOf (exec (.txTrigger) (inHs .awaitingReply 1)) = some [.trigSent 0] ∧ hsOf (exec (.txTrigger) (inHs .awaitingReply 1)) = some (.awaitingReply, 0) := by decide +kernel

/-- Source: V-HS-2. -/
theorem test_hs_ready :
    txOf (exec (.rx fixHSR) (inHs .awaitingReply 0)) = some [] ∧
    evtOf (exec (.rx fixHSR) (inHs .awaitingReply 0)) = some [.hsReadyToAcquire 0x22#8] ∧ hsOf (exec (.rx fixHSR) (inHs .awaitingReply 0)) = some (.readyToAcquire, 0) := by decide +kernel

/-- Source: V-HS-12, its third step. -/
theorem test_hs_zero :
    txOf (exec (.rx fixHSZ) (inHs .awaitingReply 1)) = some [] ∧
    evtOf (exec (.rx fixHSZ) (inHs .awaitingReply 1)) = some [.err 0x06#8 (.hsAbnormal .allZeros)] ∧ hsOf (exec (.rx fixHSZ) (inHs .awaitingReply 1)) = some (.abnormal, 0) := by decide +kernel

/-- Source: V-HS-4. -/
theorem test_hs_fail :
    txOf (exec (.rx fixHSX) (inHs .awaitingReply 0)) = some [] ∧
    evtOf (exec (.rx fixHSX) (inHs .awaitingReply 0)) = some [.err 0x06#8 (.hsAbnormal .failSignal)] ∧ hsOf (exec (.rx fixHSX) (inHs .awaitingReply 0)) = some (.abnormal, 0) := by decide +kernel

/-- Source: rule R91. -/
theorem test_hs_format :
    txOf (exec (.rx fixHSF) (inHs .awaitingReply 1)) = some [] ∧
    evtOf (exec (.rx fixHSF) (inHs .awaitingReply 1)) = some [.err 0x03#8 (.hsFormatErr [0x22#8, 0x22#8, 0x22#8, 0x22#8, 0x21#8])] ∧ hsOf (exec (.rx fixHSF) (inHs .awaitingReply 1)) = some (.awaitingReply, 1) := by decide +kernel

/-- Source: V-HS-6, V-HS-7. -/
theorem test_hs_expire_awaiting :
    txOf (exec (.expire) (inHs .awaitingReply 0)) = some [[0xEB#8, 0x90#8, 0x00#8, 0x00#8, 0x00#8, 0x0C#8, 0xAE#8, 0x00#8, 0x00#8, 0x00#8]] ∧
    evtOf (exec (.expire) (inHs .awaitingReply 0)) = some [.trigSent 1] ∧ hsOf (exec (.expire) (inHs .awaitingReply 0)) = some (.awaitingReply, 1) ∧
    txOf (exec (.expire) (inHs .awaitingReply 1)) = some [] ∧
    evtOf (exec (.expire) (inHs .awaitingReply 1)) = some [.err 0x07#8 .hsTimeout] ∧ hsOf (exec (.expire) (inHs .awaitingReply 1)) = some (.idle, 0) := by decide +kernel

/-- Source: V-HS-10. -/
theorem test_hs_expire_idle :
    txOf (exec (.expire) State.reset) = some [] ∧
    evtOf (exec (.expire) State.reset) = some [.expireIgnored .idle] ∧ hsOf (exec (.expire) State.reset) = some (.idle, 0) := by decide +kernel

/-- Source: V-HS-11. -/
theorem test_hs_unsolicited :
    txOf (exec (.rx fixHSR) (inHs .readyToAcquire 0)) = some [] ∧
    evtOf (exec (.rx fixHSR) (inHs .readyToAcquire 0)) = some [.hsUnsolicited .hsReady .readyToAcquire] ∧ hsOf (exec (.rx fixHSR) (inHs .readyToAcquire 0)) = some (.readyToAcquire, 0) := by decide +kernel

/-! Control (section 4.6). -/

/-- Source: V-CTL-2. -/
theorem test_ctl_setmode :
    evtOf (exec (.setmode 3) State.reset) = some [.modeSet 3] ∧
    (nextOf (exec (.setmode 3) State.reset)).map State.mode = some (.active .hitCount) := by decide +kernel

/-- Source: V-CTL-2. -/
theorem test_ctl_setmode_over :
    exec (.setmode 4) (inMode .hitCount) = .next (afterError (.valueOutOfRange .mode 4) (inMode .hitCount)) := rfl

/-- Source: V-CTL-1. -/
theorem test_ctl_stat :
    evtOf (exec .stat State.reset) =
    some [.status { seq := 1, lastSeq := none, mode := 0xFF#8, hs := 0, attempt := 0, replyFlag := false }] := by decide +kernel

/-- Source: V-CTL-6. -/
theorem test_ctl_reset :
    nextOf (exec .reset (writeHs .abnormal 0 (writeMode (.active .longPacket) (atSeq 65535)))) =
    some (afterEvent .resetDone State.reset) := by decide +kernel

/-! The step and the queue. -/

theorem test_step_waits : step State.reset = .next State.reset := rfl

theorem test_step_takes_one :
    nextOf (step (withQueue [.cmd ⟨0x0C#8, []⟩, .rx fixHSR] State.reset)) =
    some (withQueue [.rx fixHSR] (sendTrigger 0 State.reset)) := by decide +kernel

theorem test_step_refuses :
    step (withQueue [.cmd ⟨0x12#8, []⟩] State.reset) = .refused (.unknownOperation 0x12#8) := rfl

theorem test_fetch_word :
    step (State.reset.withFetchWord 8 0x0D) = exec .expire State.reset ∧
    step (State.reset.withFetchWord 8 0x07) = exec (.ctrlwr 0 0 0 0 0 0) State.reset := ⟨rfl, rfl⟩

/-- A TX row by its bytes EB 90 00 01 00 05, zero operand bytes after them. -/
theorem test_fetch_frame :
    nextOf (step (State.reset.withFetchWord 48 0x0500010090EB)) =
    nextOf (exec (.txSetthr 1 0) State.reset) := by decide +kernel

/-- Rule R32. -/
theorem test_queue_full :
    arrive (.rx fixHSX) (withParams (queueDepth 1) (withQueue [.rx fixHSR] State.reset)) =
    withParams (queueDepth 1) (withQueue [.rx fixHSR] State.reset) := by decide +kernel

/-! The assembler (rule R50). -/

theorem test_assemble :
    assemble [("A1", fixA1)] "SETMODE LongPacket ; mode\nCTRLWR 1, 2, 5, tse=1, 3, wm=0x1\n\nRX A1\nCNTRST [00 FF]\nSTAT" =
    some [.cmd ⟨0x0E#8, [.nat 1]⟩, .cmd ⟨0x07#8, [.nat 1, .nat 2, .nat 5, .nat 1, .nat 3, .nat 1]⟩, .rx fixA1,
      .cmd ⟨0x06#8, [.buf [0x00#8, 0xFF#8]]⟩, .cmd ⟨0x0F#8, []⟩] := by decide +kernel

theorem test_assemble_refuses :
    assemble [] "SETTHR" = none ∧ assemble [] "RX A1" = none ∧ assemble [] "NOP" = none := by decide +kernel

/-! The host agent. -/

/-- The OPEN parameters of program P2: the data-read frame is `BUILD 0x09, []`. -/
def hostParams : HostParams :=
  { cntRstPayload := [0x00#8, 0x00#8], loopTestPayload := [], chThrPayload := [], chThrChannelMax := 31
    dataReadCmd := 0x09#8, dataReadPayload := [], retryCap := none, hsWindow := 1, interCycleDelay := 0 }

/-- A host at its start, with what is still to happen during its waits and around its operations. -/
def hostWith (s : State) (xs : List Happening) (gs : List Gap) : HostRun :=
  { block := s, script := xs, gaps := gs, campaign := none, lines := [] }

/-- A host around whose operations nothing happens. -/
def hostAt (s : State) (xs : List Happening) : HostRun := hostWith s xs []

/-- A datagram arrives and is taken. -/
def reply (b : Buffer) : List Happening := [.arrives b, .takes]

/-- The script of one S-curve step in which everything succeeds at once. -/
def stepScript : List Happening := reply fixA1 ++ reply fixA1 ++ reply fixHSR ++ reply fixL1

/-- Source: scenario S-7. -/
theorem test_host_s7 :
    (retryUntilAck hostParams (.setthr 100) (hostAt State.reset (.elapses :: .elapses :: reply fixA3))).1 = .ok ∧
    (retryUntilAck hostParams (.setthr 100) (hostAt State.reset (.elapses :: .elapses :: reply fixA3))).2.block.tx =
      [[0xEB#8, 0x90#8, 0x00#8, 0x01#8, 0x00#8, 0x05#8, 0x00#8, 0x64#8, 0x63#8, 0x93#8],
       [0xEB#8, 0x90#8, 0x00#8, 0x02#8, 0x00#8, 0x05#8, 0x00#8, 0x64#8, 0x8D#8, 0x41#8],
       [0xEB#8, 0x90#8, 0x00#8, 0x03#8, 0x00#8, 0x05#8, 0x00#8, 0x64#8, 0x27#8, 0x10#8]] := by decide +kernel

/-- The columns' keys of a campaign that completed. -/
def keysOf : CampaignResult → List Nat
  | .completed h => h.map Prod.fst
  | .cancelled _ => []
  | .aborted _ _ _ => []
  | .refused => []
  | .notStarted _ => []
  | .running => []

/-- The snapshot of program P5: LongPacket, no further setting, steps of 10 below 30 from 50. -/
def snapshotP5 : Snapshot := { mode := .longPacket, settings := [], plan := .scurve 10 30 50 }

/-- Source: scenario S-9 (program P5). -/
theorem test_host_s9 :
    keysOf (runCampaign hostParams snapshotP5 (hostAt State.reset (stepScript ++ stepScript ++ stepScript))).1 =
      [50, 60, 70] := by decide +kernel

/-- The snapshot of a periodic campaign of two cycles, with a threshold to set. -/
def snapshotTwo : Snapshot := { mode := .longPacket, settings := [.setthr 100], plan := .periodic 2 }

/-- The script of its first cycle, a cancel request made while the inter-cycle delay passes. -/
def cancelledScript : List Happening :=
  reply fixA1 ++ reply fixA1 ++ reply fixHSR ++ reply fixL1 ++ [.cancels, .elapses]

/-- Source: rules R106, R133: the request is seen at the next iteration, the history so far is exported, and the flag goes with
the campaign. -/
theorem test_host_cancel :
    (exportedHistory (runCampaign hostParams snapshotTwo (hostAt State.reset cancelledScript)).1).map List.length = some 1 ∧
    (runCampaign hostParams snapshotTwo (hostAt State.reset cancelledScript)).2.campaign = none := by decide +kernel

/-- The handshake reply comes between the STAT that ends the first wait and EXPIRE: the third operation's gap. -/
def lateReply : HostRun := hostWith State.reset [.elapses] [Gap.quiet, Gap.quiet, { before := reply fixHSR, pending := [] }]

/-- Source: rules R31, R93, R102: EXPIRE finds the handshake over, is reported as ignored, and the result is ReadyToAcquire. The
second wait is over at once. -/
theorem test_host_reply_before_expire :
    (runHandshake hostParams lateReply).1 = .ended .readyToAcquire ∧
    (runHandshake hostParams lateReply).2.block.tx = [triggerFrame] ∧
    .expireIgnored .readyToAcquire ∈ (runHandshake hostParams lateReply).2.block.evt := by decide +kernel

/-- An ack comes after the silent wait's STAT and is taken while the action issued again is queued. -/
def lateAck : HostRun :=
  hostWith State.reset [.elapses] [Gap.quiet, Gap.quiet, { before := [.arrives fixA3], pending := [.takes] }]

/-- Source: rules R31, R101, R125: the frame sent again clears the flag the late ack set, so the retry goes on waiting. -/
theorem test_host_late_ack_is_cleared :
    (retryUntilAck hostParams (.setthr 100) lateAck).1 = .running ∧
    (retryUntilAck hostParams (.setthr 100) lateAck).2.block.replyFlag = false ∧
    framesReported (retryUntilAck hostParams (.setthr 100) lateAck).2.block.evt = 2 := by decide +kernel

/-- A cancel request made while the snapshot's SETMODE is queued. -/
def cancelledAtOnce : HostRun := hostWith State.reset [] [{ before := [], pending := [.cancels] }]

/-- Source: rules R106, R133: the first iteration's check sees it, and the history is empty. -/
theorem test_host_cancel_before_first_check :
    (runCampaign hostParams snapshotP5 cancelledAtOnce).1 = .cancelled [] ∧
    (runCampaign hostParams snapshotP5 cancelledAtOnce).2.block.tx = [] := by decide +kernel

/-! Witnesses: for every obligation with hypotheses, states and operands that meet them, each clause at a boundary of its range. -/

/-- The state after a command, for the hypotheses that name one. -/
def okState : State := withParams (payloadCap 2) State.reset
def fullState : State := withParams (payloadCap 2) (atSeq 65535)

theorem canSend_unbounded (p : Buffer) (s : State) (h : s.params.maxPayloadLen = none) (hs : s.seq ≠ 65535#16) :
    canSend p s := ⟨by rw [h]; exact nofun, hs⟩

theorem canSend_cap (p : Buffer) (s : State) (n : Nat) (h : s.params.maxPayloadLen = some n) (hp : p.length ≤ n)
    (hs : s.seq ≠ 65535#16) : canSend p s := ⟨by rw [h]; rintro m ⟨⟩; exact hp, hs⟩

def tightState : State := withParams (payloadCap 1) State.reset

theorem tight_short : ∃ m, tightState.params.maxPayloadLen = some m ∧ m < 2 := ⟨1, rfl, by decide⟩

theorem capTwo : ∀ m, okState.params.maxPayloadLen = some m → 2 ≤ m := by rintro m ⟨⟩; decide

theorem capTwoFull : ∀ m, fullState.params.maxPayloadLen = some m → 2 ≤ m := by rintro m ⟨⟩; decide

theorem witness_FrameFieldsComeBackBySlicing :
    canSend [] State.reset ∧ canSend [0x00#8, 0x64#8] okState ∧ canSend [] (withParams preOrder (atSeq 65534)) :=
  ⟨canSend_unbounded _ _ rfl (by decide), canSend_cap _ _ 2 rfl (by decide) (by decide),
    canSend_unbounded _ _ rfl (by decide)⟩

theorem witness_ControlWordHoldsItsFields :
    (3 ≤ 3 ∧ 3 ≤ 3 ∧ 15 ≤ 15 ∧ 1 ≤ 1 ∧ 3 ≤ 3 ∧ 3 ≤ 3) ∧ ctrlWord 3 3 15 1 3 3 = 0xFF1F#16 ∧
      ctrlWord 0 0 0 0 0 0 = 0x0000#16 := by decide

theorem witness_BuildSendsOrReports :
    canSend [0x00#8, 0x64#8] okState ∧
    (∃ m, okState.params.maxPayloadLen = some m ∧ m < [0x00#8, 0x64#8, 0xAA#8].length) ∧
    ((∀ m, fullState.params.maxPayloadLen = some m → 2 ≤ m) ∧ fullState.seq = 65535#16) :=
  ⟨canSend_cap _ _ 2 rfl (by decide) (by decide), ⟨2, rfl, by decide⟩, capTwoFull, rfl⟩

theorem witness_BuildersExpandToBuild : 4095 ≤ 4095 ∧ 65535 ≤ 65535 ∧ (3 ≤ 3 ∧ 15 ≤ 15 ∧ 1 ≤ 1) := by decide

theorem witness_PlainBuildersSendTheirFrames :
    canSend [] (atSeq 65534) ∧ canSend [0x02#8, 0x00#8] okState ∧ canSend [0x01#8, 0x00#8] okState ∧
    (∃ m, tightState.params.maxPayloadLen = some m ∧ m < [0x02#8, 0x00#8].length) ∧
    ((∀ m, fullState.params.maxPayloadLen = some m → 2 ≤ m) ∧ fullState.seq = 65535#16) :=
  ⟨canSend_unbounded _ _ rfl (by decide), canSend_cap _ _ 2 rfl (by decide) (by decide),
    canSend_cap _ _ 2 rfl (by decide) (by decide), tight_short, capTwoFull, rfl⟩

theorem witness_ValueBuildersCheckThenSend :
    (4095 ≤ 4095 ∧ canSend (bytes16 (BitVec.ofNat 16 4095)) okState) ∧ 4095 < 4096 ∧
    (65535 ≤ 65535 ∧ canSend (bytes16 (BitVec.ofNat 16 65535)) okState) ∧ 65535 < 65536 ∧
    (∃ m, tightState.params.maxPayloadLen = some m ∧ m < 2) ∧
    ((∀ m, fullState.params.maxPayloadLen = some m → 2 ≤ m) ∧ fullState.seq = 65535#16) :=
  ⟨⟨by decide, canSend_cap _ _ 2 rfl (by decide) (by decide)⟩, by decide,
    ⟨by decide, canSend_cap _ _ 2 rfl (by decide) (by decide)⟩, by decide, tight_short, capTwoFull, rfl⟩

theorem witness_CtrlwrChecksInOrderThenSends :
    (3 < 4 ∧ 15 < 16 ∧ 1 < 2) ∧ (3 ≤ 3 ∧ 15 ≤ 15 ∧ 1 ≤ 1) ∧ canSend (bytes16 0xFF1F#16) okState ∧
    (∃ m, tightState.params.maxPayloadLen = some m ∧ m < 2) ∧
    ((∀ m, fullState.params.maxPayloadLen = some m → 2 ≤ m) ∧ fullState.seq = 65535#16) :=
  ⟨by decide, by decide, canSend_cap _ _ 2 rfl (by decide) (by decide), tight_short, capTwoFull, rfl⟩

theorem witness_ExhaustedSequenceStopsEveryBuilder :
    (atSeq 65535).seq = 65535#16 ∧ isBuilder .ctrlrd = true ∧ isFrameRow (.txCtrlrd 1) = true := by decide

theorem witness_FrameRowsRunTheirOperation :
    canSend [] (atSeq 65534) ∧ canSend (bytes16 4095) okState ∧ canSend (ctrlBytes 3 3 15 1 3 3) okState ∧
    (4095#16).toNat ≤ 4095 ∧ 4095 < (4096#16).toNat ∧
    (∃ m, tightState.params.maxPayloadLen = some m ∧ m < (bytes16 4095).length) ∧
    ((∀ m, fullState.params.maxPayloadLen = some m → 2 ≤ m) ∧ fullState.seq = 65535#16) :=
  ⟨canSend_unbounded _ _ rfl (by decide), canSend_cap _ _ 2 rfl (by decide) (by decide),
    canSend_cap _ _ 2 rfl (by decide) (by decide), by decide, by decide, tight_short, capTwoFull, rfl⟩

theorem witness_FrameRowSendsItsOwnEncoding :
    isFrameRow (.txSetthr 1 4095) = true ∧ (Instr.txSetthr 1 4095).wf = true ∧
    encode (.txSetthr 1 4095) = .frame (frame 1 0x05#8 [0x0F#8, 0xFF#8]) ∧
    be16 (frame 1 0x05#8 [0x0F#8, 0xFF#8]) 2 = nextNumber okState ∧ okState.seq ≠ 65535#16 ∧
    (∀ m, okState.params.maxPayloadLen = some m → (frame 1 0x05#8 [0x0F#8, 0xFF#8]).length ≤ 8 + m) :=
  ⟨rfl, by decide, rfl, by decide, by decide, by rintro m ⟨⟩; decide⟩

theorem witness_SentFrameDecodesToItsRow :
    isBuilder (.setthr 100) = true ∧
      ∃ t, exec (.setthr 100) State.reset = .next t ∧ t.tx = State.reset.tx ++ [frame 1 0x05#8 [0x00#8, 0x64#8]] :=
  ⟨rfl, _, rfl, rfl⟩

theorem witness_OnlySuccessfulBuildsMoveSeq :
    (∃ t, exec .ctrlrd State.reset = .next t ∧ t.seq ≠ State.reset.seq) ∧ Instr.ctrlrd ≠ .reset ∧
    (∃ t, exec .trig State.reset = .next t) ∧ isBuilder .trig = false ∧ isFrameRow .trig = false :=
  ⟨⟨_, rfl, by decide⟩, nofun, ⟨_, rfl⟩, rfl, rfl⟩

theorem witness_SeqCountsTheFramesOfARun :
    (∀ x ∈ [command 0x03#8 []], isReset x = false) ∧
      ∃ t, Host.Core.run Sys2Proof.core 1 (withQueue [command 0x03#8 []] State.reset) = .next t :=
  ⟨by decide, _, rfl⟩

theorem witness_ExpireEscalatesThenTimesOut :
    ((inHs .awaitingReply 0).hsState = .awaitingReply ∧ (inHs .awaitingReply 0).hsAttempt = 0) ∧
    ((inHs .awaitingReply 1).hsState = .awaitingReply ∧ (inHs .awaitingReply 1).hsAttempt ≠ 0) ∧
    State.reset.hsState ≠ .awaitingReply := by decide

theorem witness_HandshakeRepliesMoveOnlyAwaitingReply :
    (inHs .awaitingReply 1).hsState = .awaitingReply ∧ (inHs .abnormal 0).hsState ≠ .awaitingReply := by decide

theorem witness_HandshakeFollowsItsTable :
    ((inHs .awaitingReply 1).hsAttempt ≠ 0 → (inHs .awaitingReply 1).hsState = .awaitingReply) ∧
    hasClass fixHSR .unset .hsReady ∧ hasClass fixHSZ .unset .hsZero ∧ hasClass fixHSX .unset .hsFail ∧
    hasClass fixHSF .unset .hsFormat :=
  ⟨fun _ => rfl, ⟨by decide +kernel, by decide +kernel⟩, ⟨by decide +kernel, by decide +kernel⟩,
    ⟨by decide +kernel, by decide +kernel⟩, ⟨by decide +kernel, by decide +kernel⟩⟩

theorem witness_OnlyHandshakeInputsMoveTheHandshake :
    ∃ t, exec .expire (inHs .awaitingReply 1) = .next t ∧ t.hsState = .idle := ⟨_, rfl, rfl⟩

theorem witness_HandshakeInputsKeepTheSequence :
    isReceive (.rx fixHSR) = true ∧ (∃ t, exec (.rx fixHSR) (inHs .awaitingReply 0) = .next t) ∧
      ∃ t, exec .expire State.reset = .next t := ⟨rfl, ⟨_, rfl⟩, _, rfl⟩

theorem witness_OneHandshakeSendsAtMostTwoTriggers :
    ∃ t u, exec .trig (withQueue [command 0x0D#8 [], .rx fixHSR] State.reset) = .next t ∧
      (∀ x ∈ t.queue, startsOrResets x = false) ∧ Host.Core.run Sys2Proof.core 1 t = .next u ∧
      triggerFrames u.tx = 2 :=
  ⟨_, _, rfl, by decide, rfl, by decide⟩

theorem witness_WrongLengthIsDropped : fixShort137.length ≠ 138 ∧ ([] : Buffer).length ≠ 138 := by decide +kernel

theorem witness_DatagramRunsItsClassRow : fixL1.length = 138 := by decide +kernel

theorem witness_ClassesByTheirBytes :
    fixA1.length = 138 ∧ classify fixHSZ .unset = .hsZero ∧ classify fixHSR .unset = .hsReady ∧
    classify fixHSF .unset = .hsFormat ∧ classify fixHSX .unset = .hsFail ∧ classify fixA98 .unset = .dataZero ∧
    classify fixA1 .unset = .ack ∧ classify fixS1 (.active .hitCount) = .dataShort ∧
    classify fixS1 .unset = .dataFull ∧ classify fixBAD .unset = .malformed := by decide +kernel

theorem witness_HandshakeReplyIsItsFirstTenBytes :
    fixHSR.length = 138 ∧ (rep 0x11#8 5 ++ rep 0x22#8 133).length = 138 ∧
    (∀ i, i < 10 → byteAt fixHSR i = byteAt (rep 0x11#8 5 ++ rep 0x22#8 133) i) ∧
    (∀ i, 0 ≤ i → i < 5 → byteAt fixHSR i = 0x11#8) :=
  ⟨by decide +kernel, by decide +kernel, by decide +kernel, fun i _ h => by revert i h; decide +kernel⟩

/-- A5 fails by its code, M1 by its CRC, A2 by its sequence echo; A1 and L1 pass every check. -/
theorem witness_Eb90ReplyOutcomes :
    (hasClass fixL1 State.reset.mode .dataFull ∧ isDataClass .dataFull = true ∧ State.reset.mode = .unset) ∧
    (codeCounts .ack State.reset = true ∧ ackVerdict (byteAt fixA5 5) = .rejected) ∧
    (ackVerdict (byteAt fixM1 5) = .accepted ∧ crcFails (replyInfo .ack fixM1 8) (withParams strictCrc State.reset)) ∧
    (echoFails (replyInfo .ack fixA2 8) (withParams strictSeq State.reset) ∧
      ¬ crcFails (replyInfo .ack fixA2 8) (withParams strictSeq State.reset) ∧
      ackVerdict (byteAt fixA2 5) = .accepted) ∧
    (¬ echoFails (replyInfo .ack fixA1 8) (withParams strictSeq (writeLastSeq 1 State.reset)) ∧
      ¬ crcFails (replyInfo .ack fixA1 8) State.reset ∧ ackVerdict (byteAt fixA1 5) = .accepted) ∧
    ((inMode .longPacket).mode = .active .longPacket ∧ ¬ crcFails (replyInfo .dataFull fixL1 136) (inMode .longPacket) ∧
      ¬ echoFails (replyInfo .dataFull fixL1 136) (inMode .longPacket) ∧
      codeCounts .dataFull (inMode .longPacket) = false) :=
  ⟨⟨⟨by decide +kernel, by decide +kernel⟩, rfl, rfl⟩, ⟨rfl, by decide⟩, ⟨by decide, rfl, by decide +kernel⟩,
    ⟨⟨rfl, .inl rfl⟩, fun h => absurd h.1 (by decide), by decide⟩,
    ⟨by rintro ⟨_, h | ⟨n, h, hn⟩⟩
        · cases h
        · cases h; revert hn; decide +kernel,
      fun h => absurd h.1 (by decide), by decide⟩,
    ⟨rfl, fun h => absurd h.1 (by decide), fun h => absurd h.1 (by decide), rfl⟩⟩

theorem witness_ReplyFlagFollowsReplies :
    (fixA1.length = 138 ∧ passesModeCheck (classify fixA1 .unset) .unset) ∧
    (fixL1.length = 138 ∧ passesModeCheck (classify fixL1 (.active .longPacket)) (.active .longPacket)) ∧
    (¬ (fixShort137.length = 138 ∧ passesModeCheck (classify fixShort137 .unset) .unset)) ∧
    (∃ t, exec .trig State.reset = .next t ∧ t.tx ≠ State.reset.tx) :=
  ⟨⟨by decide +kernel, .inl (by decide +kernel)⟩, ⟨by decide +kernel, .inr ⟨by decide +kernel, nofun⟩⟩,
    fun h => absurd h.1 (by decide +kernel), _, rfl, by decide⟩

theorem witness_EchoIsReportedNotInterpreted :
    State.reset.params.seqEchoCheck = false ∧ ∃ t, exec (.rx fixA2) State.reset = .next t := ⟨rfl, _, rfl⟩

theorem witness_StrictCrcRejectsZeroTail :
    hasClass fixZ1 (.active .longPacket) .dataZero ∧ (inMode .longPacket).mode ≠ .unset ∧
    (withParams strictCrc (inMode .longPacket)).params.crcCheckOnReceive = true ∧ crc16 (slice fixZ1 2 136) ≠ 0#16 ∧
    codeCounts .dataZero (withParams strictCrc (inMode .longPacket)) = false ∧
    (hasClass fixZ5 (.active .longPacket) .dataZero ∧ crc16 (slice fixZ5 2 136) ≠ 0#16 ∧
      (withParams strictGated (inMode .longPacket)).params.crcCheckOnReceive = true ∧
      codeCounts .dataZero (withParams strictGated (inMode .longPacket)) = true ∧
      ackVerdict (byteAt fixZ5 5) = .rejected) :=
  ⟨⟨by decide +kernel, by decide +kernel⟩, by decide, rfl, by decide +kernel, rfl,
    ⟨by decide +kernel, by decide +kernel⟩, by decide +kernel, rfl, rfl, by decide⟩

theorem witness_DirectGeometriesReadBigEndian : 31 < 32 ∧ 62 < 63 ∧ 0 < 32 := by decide

theorem witness_HitCountCountsSetBits : 31 < 32 ∧ 0 < 32 := by decide

/-- Two buffers that differ at byte 136 only from the decoder's point of view. -/
theorem witness_DecoderReadsOnlyItsBytes :
    (∀ i, 8 ≤ i → i < 136 → byteAt fixL1 i = byteAt (fixL1.take 136 ++ [0x00#8, 0x00#8]) i) ∧ 72 ≤ 136 ∧ 134 ≤ 136 :=
  ⟨fun i _ h => by revert i h; decide +kernel, by decide, by decide⟩

theorem witness_ZeroTailIsChannelZero : hasClass fixZ1 .unset .dataZero := ⟨by decide +kernel, by decide +kernel⟩

theorem witness_SetmodeSelectsOrRefuses : 3 < 4 := by decide

theorem witness_StatReportsEveryRegister :
    State.reset.mode = .unset ∧ (inMode .shortPacket).mode = .active .shortPacket ∧
    (inMode .longPacket).mode = .active .longPacket ∧ (inMode .clusterCount).mode = .active .clusterCount ∧
    (inMode .hitCount).mode = .active .hitCount ∧ State.reset.hsState = .idle ∧
    (inHs .awaitingReply 1).hsState = .awaitingReply ∧ (inHs .abnormal 0).hsState = .abnormal ∧
    (inHs .readyToAcquire 0).hsState = .readyToAcquire := by decide

theorem witness_StreamsOnlyGrowAndAreNeverRead :
    (∃ t, exec .trig State.reset = .next t) ∧ ∃ t, exec .stat (withoutStreams (sendTrigger 0 State.reset)) = .next t :=
  ⟨⟨_, rfl⟩, _, rfl⟩

theorem witness_AnErrorIsTheLastEventOfItsStep :
    ∃ t, exec (.setmode 4) State.reset = .next t ∧ t.evt = [.err 0x05#8 (.valueOutOfRange .mode 4)] := ⟨_, rfl, rfl⟩

theorem witness_StepRunsTheDecodedInstruction :
    decodeItem (command 0x0C#8 []) = .ok .trig ∧ (withQueue [command 0x0C#8 []] State.reset).queue = [command 0x0C#8 []] ∧
    ((Instr.rxDataShort fixS1).wf = true ∧ (Instr.rxDataShort fixS1).modeOk (inMode .hitCount).mode = true ∧
      (withQueue [.rx fixS1] (inMode .hitCount)).queue = [queueItem (.rxDataShort fixS1)]) :=
  ⟨rfl, rfl, by decide +kernel, by decide +kernel, rfl⟩

theorem witness_StepWaitsOrRefuses :
    State.reset.queue = [] ∧ (0x12#8).toNat > 0x11 ∧ (0x00#8).toNat = 0 ∧
    decodeCommand { op := 0x08#8, args := [] } = .error .badOperands := ⟨rfl, by decide, rfl, rfl⟩

theorem witness_DecodeOfEncode :
    (Instr.txCtrlwr 65535 3 3 15 1 3 3).wf = true ∧ (Instr.txCtrlwr 65535 3 3 15 1 3 3).modeOk .unset = true ∧
    (Instr.rxDataFull fixL1).wf = true ∧ (Instr.rxDataFull fixL1).modeOk (.active .hitCount) = true := by decide +kernel

theorem witness_EncodeOfDecode :
    decode .unset (.datagram fixL1) = .ok (.rxDataFull fixL1) ∧
    decode .unset (.frame triggerFrame) = .ok .txTrigger := by decide +kernel

theorem inv_reset (q : List Item) : Inv (withQueue q State.reset) := by
  constructor <;>
    simp [withQueue, State.reset, Config.seqInit, lastSeqAgrees, framesReported, triggersReported, repliesDecoded]

theorem witness_StepKeepsTheInvariant :
    Inv (withQueue [command 0x03#8 []] State.reset) ∧
      ∃ t, step (withQueue [command 0x03#8 []] State.reset) = .next t ∧ t.tx.length = 1 :=
  ⟨inv_reset _, _, rfl, rfl⟩

theorem witness_ArrivalsQueueInOrder :
    (∀ d, (withParams (queueDepth 1) State.reset).params.rxqDepth = some d →
      ((withParams (queueDepth 1) State.reset).queue.filter isDatagram).length < d) ∧
    (∃ d, (withParams (queueDepth 1) (withQueue [.rx fixHSR] State.reset)).params.rxqDepth = some d ∧
      d ≤ ((withParams (queueDepth 1) (withQueue [.rx fixHSR] State.reset)).queue.filter isDatagram).length) ∧
    State.reset.params.rxqDepth = none :=
  ⟨by rintro d ⟨⟩; decide, ⟨1, rfl, by decide⟩, rfl⟩

theorem witness_RunsTakeItemsInOrder :
    runnable (withQueue [command 0x0F#8 [], .rx []] State.reset) ∧
      ∃ t, Host.Core.run Sys2Proof.core 1 (withQueue [command 0x0F#8 [], .rx []] State.reset) = .next t := by
  refine ⟨?_, _, rfl⟩
  intro x hx
  simp only [withQueue, List.mem_cons, List.not_mem_nil, or_false] at hx
  rcases hx with rfl | rfl
  · exact ⟨.stat, rfl⟩
  · exact ⟨.rx [], rfl⟩

theorem witness_RetryRepeatsUntilAReply :
    hostParams.retryCap = none ∧ 4095 ≤ 4095 ∧ (atSeq 65532).queue = [] ∧ (atSeq 65532).params.maxPayloadLen = none ∧
    (withParams (queueDepth 1) (atSeq 65532)).params.rxqDepth ≠ some 0 ∧ (atSeq 65532).seq.toNat + 2 < 65535 ∧
    hasClass fixA3 (atSeq 65532).mode .ack :=
  ⟨rfl, by decide, rfl, rfl, by decide, by decide, by decide +kernel, by decide +kernel⟩

/-- One number left: one wait more keeps the retry going on, two end it; a cap of 1 is reached at once. -/
theorem witness_SilentRetryEndsOnlyByCapOrLastNumber :
    hostParams.retryCap = none ∧ 4095 ≤ 4095 ∧ (atSeq 65534).queue = [] ∧ (atSeq 65534).params.maxPayloadLen = none ∧
    (atSeq 65534).seq.toNat + 0 < 65535 ∧ 65535 ≤ (atSeq 65534).seq.toNat + 1 ∧
    ({ hostParams with retryCap := some 1 }.retryCap = some 1 ∧ 1 ≤ 1 ∧ (atSeq 65534).seq.toNat + 1 ≤ 65535) :=
  ⟨rfl, by decide, rfl, rfl, by decide, by decide, rfl, by decide, by decide⟩

theorem witness_SilentHandshakeEndsIdle :
    State.reset.queue = [] ∧
    (runHandshake hostParams (hostAt State.reset [.elapses, .elapses])).1 = .ended .idle := by decide +kernel

theorem witness_CompletedScurveHasItsColumns :
    snapshotP5.plan = .scurve 10 30 50 ∧
    ∃ history h', runCampaign hostParams { snapshotP5 with plan := .scurve 10 0 50 } (hostAt State.reset []) =
      (.completed history, h') := ⟨rfl, [], _, rfl⟩

theorem witness_CampaignsOwnTheirFlag :
    lateAck.campaign = none ∧ .cancels ∉ lateAck.script ∧
    (∀ g ∈ lateAck.gaps, .cancels ∉ g.before ∧ .cancels ∉ g.pending) ∧
    { hostAt State.reset [] with campaign := some CampaignRun.fresh }.campaign ≠ none ∧
    (runCampaign hostParams snapshotTwo (hostAt State.reset cancelledScript)).1 ≠ .running := by decide +kernel

theorem witness_CampaignKeepsItsMode :
    (hostAt (withQueue [.rx fixA1] State.reset) []).campaign = none ∧
    ∀ x ∈ (hostAt (withQueue [.rx fixA1] State.reset) []).block.queue, isDatagram x = true := ⟨rfl, by decide +kernel⟩

end Sys2Proof.Tests
end

section
/-! PROOFS. The output streams (rule R19). Every instruction is one function of the state that commutes with putting streams
before the state's own: so it reads none of them, and since a state is its own streams put before the state without any, what
it leaves begins with what stood there. -/

namespace Sys2Proof.Machine

/-! States with streams put before their own. -/

@[simp] theorem afterStreams_withoutStreams (s : State) : afterStreams s (withoutStreams s) = s := by
  simp [afterStreams, withoutStreams]

theorem streams_prefix_afterStreams (s t : State) :
    s.tx <+: (afterStreams s t).tx ∧ s.evt <+: (afterStreams s t).evt ∧ s.data <+: (afterStreams s t).data :=
  ⟨List.prefix_append _ _, List.prefix_append _ _, List.prefix_append _ _⟩

/-- `f` reads no stream and only appends to them: streams put before the state's own stand unchanged before what `f` leaves. -/
def ReadsNoStream (f : State → State) : Prop := ∀ r : State, Function.Commute f (afterStreams r)

theorem ReadsNoStream.comp {f g : State → State} (hf : ReadsNoStream f) (hg : ReadsNoStream g) :
    ReadsNoStream fun s => f (g s) := fun r => (hf r).comp_left (hg r)

/-! The named operations. -/

theorem setReply_readsNoStream : ReadsNoStream setReply := fun _ _ => rfl
theorem clearReply_readsNoStream : ReadsNoStream clearReply := fun _ _ => rfl
theorem writeSeq_readsNoStream (n : Word16) : ReadsNoStream (writeSeq n) := fun _ _ => rfl
theorem writeLastSeq_readsNoStream (n : Word16) : ReadsNoStream (writeLastSeq n) := fun _ _ => rfl
theorem writeMode_readsNoStream (m : Mode) : ReadsNoStream (writeMode m) := fun _ _ => rfl
theorem writeHs_readsNoStream (h : HsState) (a : Fin 2) : ReadsNoStream (writeHs h a) := fun _ _ => rfl
theorem resetRegisters_readsNoStream : ReadsNoStream resetRegisters := fun _ _ => rfl

theorem emitTx_readsNoStream (f : Buffer) : ReadsNoStream (emitTx f) := fun _ _ => by
  simp [emitTx, afterStreams]

theorem emitEvt_readsNoStream (e : Event) : ReadsNoStream (emitEvt e) := fun _ _ => by
  simp [emitEvt, afterStreams]

theorem emitData_readsNoStream (v : List Word32) : ReadsNoStream (emitData v) := fun _ _ => by
  simp [emitData, afterStreams]

theorem raise_readsNoStream (e : BlockError) : ReadsNoStream (raise e) := emitEvt_readsNoStream _

/-! The encoder. -/

theorem checked_readsNoStream (f : FieldId) (v m : Nat) {k : State → State} (hk : ReadsNoStream k) :
    ReadsNoStream (checked f v m k) := by
  intro r s
  by_cases hv : v ≤ m
  · rw [checked_pass f v m k s hv, checked_pass f v m k _ hv, hk r s]
  · have hv' : m < v := by omega
    rw [checked_fail f v m k s hv', checked_fail f v m k _ hv']
    exact raise_readsNoStream _ r s

theorem sendFrame_readsNoStream (n next : Word16) (cmd : Byte) (p : Buffer) : ReadsNoStream (sendFrame n next cmd p) :=
  (emitEvt_readsNoStream _).comp <| (emitTx_readsNoStream _).comp <| clearReply_readsNoStream.comp <|
    (writeLastSeq_readsNoStream n).comp <| writeSeq_readsNoStream next

theorem buildFrame_readsNoStream (cmd : Byte) (p : Buffer) : ReadsNoStream (buildFrame cmd p) := by
  intro r s
  have hlong : payloadTooLong p (afterStreams r s) = payloadTooLong p s := rfl
  have halloc : allocSeq (afterStreams r s) = allocSeq s := rfl
  unfold buildFrame
  rw [hlong, halloc]
  cases payloadTooLong p s with
  | true => exact raise_readsNoStream _ r s
  | false =>
    cases allocSeq s with
    | none => exact raise_readsNoStream _ r s
    | some a => exact sendFrame_readsNoStream a.1 a.2 cmd p r s

theorem buildValue_readsNoStream (cmd : Byte) (f : FieldId) (m v : Nat) : ReadsNoStream (buildValue cmd f m v) :=
  checked_readsNoStream _ _ _ (buildFrame_readsNoStream _ _)

theorem buildCtrl_readsNoStream (tc ft sr tse dm wm : Nat) : ReadsNoStream (buildCtrl tc ft sr tse dm wm) :=
  checked_readsNoStream _ _ _ <| checked_readsNoStream _ _ _ <| checked_readsNoStream _ _ _ <|
    checked_readsNoStream _ _ _ <| checked_readsNoStream _ _ _ <| checked_readsNoStream _ _ _ <|
    buildFrame_readsNoStream _ _

/-! The handshake. -/

theorem sendTrigger_readsNoStream (a : Fin 2) : ReadsNoStream (sendTrigger a) :=
  (emitEvt_readsNoStream _).comp <| (emitTx_readsNoStream _).comp <| clearReply_readsNoStream.comp <|
    writeHs_readsNoStream _ a

theorem expireWindow_readsNoStream : ReadsNoStream expireWindow := by
  intro r s
  by_cases h : s.hsState = .awaitingReply
  · by_cases ha : s.hsAttempt = 0
    · rw [expireWindow_first s h ha, expireWindow_first (afterStreams r s) h ha]
      exact sendTrigger_readsNoStream 1 r s
    · rw [expireWindow_second s h ha, expireWindow_second (afterStreams r s) h ha]
      exact raise_readsNoStream _ r (writeHs .idle 0 s)
  · rw [expireWindow_held s h, expireWindow_held (afterStreams r s) h]
    exact emitEvt_readsNoStream _ r s

theorem hsReply_readsNoStream (c : RxClass) {k : State → State} (hk : ReadsNoStream k) : ReadsNoStream (hsReply c k) := by
  intro r s
  by_cases h : s.hsState = .awaitingReply
  · rw [hsReply_awaiting c k s h, hsReply_awaiting c k (afterStreams r s) h, hk r s]
  · rw [hsReply_held c k s h, hsReply_held c k (afterStreams r s) h]
    exact emitEvt_readsNoStream _ r s

/-! Replies. -/

theorem noteAck_readsNoStream (info : ReplyInfo) : ReadsNoStream (noteAck info) := by
  intro r s
  have hgate : ackGated info.cls (afterStreams r s) = ackGated info.cls s := rfl
  unfold noteAck
  rw [hgate]
  cases ackGated info.cls s with
  | false => rfl
  | true =>
    cases ackNote info.ackCode with
    | none => rfl
    | some n => exact emitEvt_readsNoStream _ r s

theorem eb90Reply_readsNoStream (info : ReplyInfo) {accept : State → State} (ha : ReadsNoStream accept) :
    ReadsNoStream (eb90Reply info accept) := by
  intro r s
  have hchecks : rejection info (afterStreams r s) = rejection info s := rfl
  have hnoted := (noteAck_readsNoStream info).comp setReply_readsNoStream
  unfold eb90Reply
  rw [hchecks]
  cases rejection info s with
  | none => exact ha.comp hnoted r s
  | some reason => exact (raise_readsNoStream _).comp hnoted r s

theorem eb90Data_readsNoStream (c : RxClass) (b : Buffer) (k : Nat) : ReadsNoStream (eb90Data c b k) := by
  intro r s
  have hmode : (afterStreams r s).mode = s.mode := rfl
  unfold eb90Data
  rw [hmode]
  cases s.mode with
  | unset => exact raise_readsNoStream _ r s
  | active m =>
    exact eb90Reply_readsNoStream _ ((emitEvt_readsNoStream _).comp (emitData_readsNoStream _)) r s

theorem receiveClass_readsNoStream (c : RxClass) (b : Buffer) : ReadsNoStream (receiveClass c b) := by
  cases c with
  | hsReady => exact hsReply_readsNoStream _ ((emitEvt_readsNoStream _).comp (writeHs_readsNoStream _ _))
  | hsZero => exact hsReply_readsNoStream _ ((raise_readsNoStream _).comp (writeHs_readsNoStream _ _))
  | hsFail => exact hsReply_readsNoStream _ ((raise_readsNoStream _).comp (writeHs_readsNoStream _ _))
  | hsFormat => exact raise_readsNoStream _
  | malformed => exact raise_readsNoStream _
  | ack => exact eb90Reply_readsNoStream _ (emitEvt_readsNoStream _)
  | dataShort => exact eb90Data_readsNoStream _ _ _
  | dataZero => exact eb90Data_readsNoStream _ _ _
  | dataFull => exact eb90Data_readsNoStream _ _ _

theorem receive_readsNoStream (b : Buffer) : ReadsNoStream (receive b) := by
  intro r s
  by_cases hl : b.length ≠ Config.rxLen
  · simp only [receive, if_pos hl]
    exact raise_readsNoStream _ r s
  · simp only [receive, if_neg hl]
    exact receiveClass_readsNoStream (classify b s.mode) b r s

/-! Control. -/

theorem selectMode_readsNoStream (m : Nat) : ReadsNoStream (selectMode m) := by
  intro r s
  unfold selectMode
  cases modeOfNat m with
  | none => exact raise_readsNoStream _ r s
  | some a => exact (emitEvt_readsNoStream _).comp (writeMode_readsNoStream _) r s

theorem reportStatus_readsNoStream : ReadsNoStream fun s => emitEvt (.status (statusOf s)) s :=
  fun r s => emitEvt_readsNoStream (.status (statusOf s)) r s

/-! Every instruction. -/

/-- Every instruction is a function of the state that reads no stream. -/
theorem exec_readsNoStream (i : Instr) : ∃ f, ReadsNoStream f ∧ ∀ s, exec i s = .next (f s) := by
  cases i with
  | build cmd p => exact ⟨_, buildFrame_readsNoStream cmd p, fun _ => rfl⟩
  | looptest p => exact ⟨_, buildFrame_readsNoStream _ p, fun _ => rfl⟩
  | ctrlrd => exact ⟨_, buildFrame_readsNoStream _ _, fun _ => rfl⟩
  | fpgarst => exact ⟨_, buildFrame_readsNoStream _ _, fun _ => rfl⟩
  | chthr p => exact ⟨_, buildFrame_readsNoStream _ p, fun _ => rfl⟩
  | cntrst p => exact ⟨_, buildFrame_readsNoStream _ p, fun _ => rfl⟩
  | ctrlwr tc ft sr tse dm wm => exact ⟨_, buildCtrl_readsNoStream tc ft sr tse dm wm, fun _ => rfl⟩
  | setthr v => exact ⟨_, buildValue_readsNoStream _ _ _ v, fun _ => rfl⟩
  | setacq v => exact ⟨_, buildValue_readsNoStream _ _ _ v, fun _ => rfl⟩
  | setdac v => exact ⟨_, buildValue_readsNoStream _ _ _ v, fun _ => rfl⟩
  | setint v => exact ⟨_, buildValue_readsNoStream _ _ _ v, fun _ => rfl⟩
  | trig => exact ⟨_, sendTrigger_readsNoStream 0, fun _ => rfl⟩
  | expire => exact ⟨_, expireWindow_readsNoStream, fun _ => rfl⟩
  | setmode m => exact ⟨_, selectMode_readsNoStream m, fun _ => rfl⟩
  | stat => exact ⟨_, reportStatus_readsNoStream, fun _ => rfl⟩
  | reset => exact ⟨_, (emitEvt_readsNoStream _).comp resetRegisters_readsNoStream, fun _ => rfl⟩
  | crc d => exact ⟨_, emitEvt_readsNoStream (.crcValue (crc16 d)), fun _ => rfl⟩
  | rx b => exact ⟨_, receive_readsNoStream b, fun _ => rfl⟩
  | txBuild seq cmd p => exact ⟨_, buildFrame_readsNoStream cmd p, fun _ => rfl⟩
  | txLooptest seq p => exact ⟨_, buildFrame_readsNoStream _ p, fun _ => rfl⟩
  | txCtrlrd seq => exact ⟨_, buildFrame_readsNoStream _ _, fun _ => rfl⟩
  | txFpgarst seq => exact ⟨_, buildFrame_readsNoStream _ _, fun _ => rfl⟩
  | txChthr seq p => exact ⟨_, buildFrame_readsNoStream _ p, fun _ => rfl⟩
  | txCntrst seq p => exact ⟨_, buildFrame_readsNoStream _ p, fun _ => rfl⟩
  | txCtrlwr seq tc ft sr tse dm wm => exact ⟨_, buildCtrl_readsNoStream _ _ _ _ _ _, fun _ => rfl⟩
  | txSetthr seq v => exact ⟨_, buildValue_readsNoStream _ _ _ v.toNat, fun _ => rfl⟩
  | txSetacq seq v => exact ⟨_, buildValue_readsNoStream _ _ _ v.toNat, fun _ => rfl⟩
  | txSetdac seq v => exact ⟨_, buildValue_readsNoStream _ _ _ v.toNat, fun _ => rfl⟩
  | txSetint seq v => exact ⟨_, buildValue_readsNoStream _ _ _ v.toNat, fun _ => rfl⟩
  | txTrigger => exact ⟨_, sendTrigger_readsNoStream 0, fun _ => rfl⟩
  | rxHsZero b => exact ⟨_, receiveClass_readsNoStream .hsZero b, fun _ => rfl⟩
  | rxHsReady b => exact ⟨_, receiveClass_readsNoStream .hsReady b, fun _ => rfl⟩
  | rxHsFormat b => exact ⟨_, receiveClass_readsNoStream .hsFormat b, fun _ => rfl⟩
  | rxHsFail b => exact ⟨_, receiveClass_readsNoStream .hsFail b, fun _ => rfl⟩
  | rxDataZero b => exact ⟨_, receiveClass_readsNoStream .dataZero b, fun _ => rfl⟩
  | rxAck b => exact ⟨_, receiveClass_readsNoStream .ack b, fun _ => rfl⟩
  | rxDataShort b => exact ⟨_, receiveClass_readsNoStream .dataShort b, fun _ => rfl⟩
  | rxDataFull b => exact ⟨_, receiveClass_readsNoStream .dataFull b, fun _ => rfl⟩
  | rxMalformed b => exact ⟨_, receiveClass_readsNoStream .malformed b, fun _ => rfl⟩

/-- What an instruction leaves is what it leaves with the streams emptied, put after them. -/
theorem exec_eq_afterStreams (i : Instr) (s : State) :
    ∃ t, exec i (withoutStreams s) = .next t ∧ exec i s = .next (afterStreams s t) := by
  obtain ⟨f, hf, hexec⟩ := exec_readsNoStream i
  have hs : f s = afterStreams s (f (withoutStreams s)) := by
    simpa using hf s (withoutStreams s)
  exact ⟨_, hexec _, by rw [hexec, hs]⟩

/-- Settles O43: all of it follows from an instruction commuting with streams put before the state's own. -/
theorem streamsOnlyGrowAndAreNeverRead : Obligations.StreamsOnlyGrowAndAreNeverRead := by
  refine ⟨⟨rfl, rfl, rfl⟩, fun i s t h => ?grows, fun i s t h => ?neverRead⟩
  case grows =>
    obtain ⟨u, -, hfull⟩ := exec_eq_afterStreams i s
    cases h.symm.trans hfull
    exact streams_prefix_afterStreams s u
  case neverRead =>
    obtain ⟨u, hempty, hfull⟩ := exec_eq_afterStreams i s
    cases h.symm.trans hempty
    exact hfull

end Sys2Proof.Machine
end

section
/-! PROOFS. The control word (rules R42, R65) and the builders' expansions (rule R51). Rule R42 packs the control word by shifts
and ors; the row TX.CTRLWR writes it field by field. They are one word, so what is known of the row's slices holds of the
packed word. -/

namespace Sys2Proof.Machine

/-! The control word. -/

/-- Rule R42's shifts and ors pack the fields into the word whose bytes the row TX.CTRLWR writes. -/
theorem ctrlWord_eq_payloadValue (tc ft : BitVec 2) (sr : BitVec 4) (tse : BitVec 1) (dm wm : BitVec 2) :
    ctrlWord tc.toNat ft.toNat sr.toNat tse.toNat dm.toNat wm.toNat = payloadValue (ctrlBytes tc ft sr tse dm wm) := by
  have hpack : tc.toNat <<< 14 ||| ft.toNat <<< 12 ||| sr.toNat <<< 8 ||| tse.toNat <<< 4 ||| dm.toNat <<< 2 ||| wm.toNat =
      ((tc ++ ft ++ sr) ++ (0#3 ++ tse ++ dm ++ wm)).toNat := by
    simp only [BitVec.toNat_append]
    simp only [BitVec.toNat_ofNat, Nat.zero_mod, Nat.zero_shiftLeft, Nat.zero_or, Nat.shiftLeft_or_distrib,
      ← Nat.shiftLeft_add, Nat.reduceAdd, Nat.or_assoc]
  rw [ctrlWord, hpack, BitVec.ofNat_toNat]
  exact BitVec.setWidth_eq _

/-- An operand within a field's width is the value of a field. -/
theorem exists_field_toNat_eq {w n : Nat} (h : n < 2 ^ w) : ∃ b : BitVec w, b.toNat = n := ⟨BitVec.ofNatLT n h, rfl⟩

/-- Settles O7: operands within their widths are values of fields, and the word of those fields has them as its slices. -/
theorem controlWordHoldsItsFields : Obligations.ControlWordHoldsItsFields := by
  intro tc ft sr tse dm wm htc hft hsr htse hdm hwm
  obtain ⟨tc, rfl⟩ := exists_field_toNat_eq (w := 2) (Nat.lt_succ_of_le htc)
  obtain ⟨ft, rfl⟩ := exists_field_toNat_eq (w := 2) (Nat.lt_succ_of_le hft)
  obtain ⟨sr, rfl⟩ := exists_field_toNat_eq (w := 4) (Nat.lt_succ_of_le hsr)
  obtain ⟨tse, rfl⟩ := exists_field_toNat_eq (w := 1) (Nat.lt_succ_of_le htse)
  obtain ⟨dm, rfl⟩ := exists_field_toNat_eq (w := 2) (Nat.lt_succ_of_le hdm)
  obtain ⟨wm, rfl⟩ := exists_field_toNat_eq (w := 2) (Nat.lt_succ_of_le hwm)
  obtain ⟨etc, eft, esr, ezero, etse, edm, ewm⟩ := ctrlBytes_fields tc ft sr tse dm wm
  simp only [ctrlWord_eq_payloadValue, BitVec.ofNat_toNat, BitVec.setWidth_eq, etc, eft, esr, ezero, etse, edm, ewm,
    bytes16_payloadValue (ctrlBytes tc ft sr tse dm wm) rfl, and_self]

/-! The builders. -/

/-- A value builder whose check passes is BUILD with `bytes16(v)` (rules R66 to R69). -/
theorem buildValue_pass (cmd : Byte) (f : FieldId) (max v : Nat) (s : State) (h : v ≤ max) :
    buildValue cmd f max v s = buildFrame cmd (bytes16 (BitVec.ofNat 16 v)) s := checked_pass f v max _ s h

/-- Settles O9: five builders are BUILD as they are written, the others once their checks pass. -/
theorem buildersExpandToBuild : Obligations.BuildersExpandToBuild := by
  intro s
  refine ⟨fun _ => rfl, rfl, rfl, fun _ => rfl, fun _ => rfl, ?ctrlwr, ?setthr, ?setacq, ?setdac, ?setint⟩
  case ctrlwr =>
    intro tc ft sr tse dm wm htc hft hsr htse hdm hwm
    exact congrArg _ (buildCtrl_pass tc ft sr tse dm wm s htc hft hsr htse hdm hwm)
  case setthr => exact fun v hv => congrArg _ (buildValue_pass 0x05#8 .threshold Config.thrMax v s hv)
  case setacq => exact fun v hv => congrArg _ (buildValue_pass 0x06#8 .acqTime Config.timeMax v s hv)
  case setdac => exact fun v hv => congrArg _ (buildValue_pass 0x07#8 .scaleDac Config.thrMax v s hv)
  case setint => exact fun v hv => congrArg _ (buildValue_pass 0x08#8 .scaleInterval Config.timeMax v s hv)

end Sys2Proof.Machine
end

section
/-! PROOFS. The CRC generator (rules R53, R54) and the CRC operation (rule R55). -/

namespace Sys2Proof.Machine

/-! The generator. -/

/-- The byte step's eight turns, written out (rule R54). -/
theorem crcStep_eq_turns (reg : Word16) (x : Byte) :
    crcStep reg x = crcBit (crcBit (crcBit (crcBit (crcBit (crcBit (crcBit (crcBit
      (reg ^^^ (x.zeroExtend 16 <<< 8))))))))) := rfl

/-- A buffer's CRC goes on over what follows the buffer (rule R54 (a)). -/
theorem crc16_append (d e : Buffer) : crc16 (d ++ e) = e.foldl crcStep (crc16 d) := by
  rw [crc16_def, crc16_def, List.foldl_append]

/-- A zero byte leaves the zero register as it is. -/
theorem crcStep_zero : crcStep 0x0000#16 0x00#8 = 0x0000#16 := by decide

/-- Settles O1: the register after a buffer is the fold's, so a longer buffer goes on from it, and its own two bytes are
shifted out of it. -/
theorem crcIsTheFoldOfItsByteStep : Obligations.CrcIsTheFoldOfItsByteStep :=
  ⟨crcStep_eq_turns, crc16_def, crc16_append, fun d => crcStep_own_bytes (crc16 d), crcStep_zero⟩

/-! The operation. -/

/-- The CRC of no bytes is the initial register (rule R53). -/
theorem crc16_nil : crc16 [] = 0xFFFF#16 := rfl

/-- The CRC of the nine digits "123456789" (rule R53). -/
theorem crc16_digits :
    crc16 [0x31#8, 0x32#8, 0x33#8, 0x34#8, 0x35#8, 0x36#8, 0x37#8, 0x38#8, 0x39#8] = 0x29B1#16 := by decide

/-- CRC only emits the value of its buffer (rule R55). -/
theorem exec_crc (d : Buffer) (s : State) : exec (.crc d) s = .next (emitEvt (.crcValue (crc16 d)) s) := rfl

/-- Settles O3: the two worked buffers are cases of the operation's one equation. -/
theorem crcReportsItsValue : Obligations.CrcReportsItsValue := by
  intro s
  refine ⟨fun d => exec_crc d s, ?empty, ?digits⟩
  case empty => rw [exec_crc, crc16_nil]; rfl
  case digits => rw [exec_crc, crc16_digits]; rfl

end Sys2Proof.Machine
end

section
/-! PROOFS. The frame encoder: what BUILD does (rule R59), how its frame is read back (rule R70), and the builders that check
their operands first (rules R65 to R69). A builder whose checks pass is BUILD (rule R51), so its outcomes are BUILD's. -/

namespace Sys2Proof.Machine

/-! BUILD. -/

/-- Settles O8: the three cases of BUILD as an instruction. -/
theorem buildSendsOrReports : Obligations.BuildSendsOrReports := fun cmd p s =>
  ⟨fun h => congrArg _ (buildFrame_of_canSend cmd p s h), fun h => congrArg _ (buildFrame_tooLong cmd p s h),
    fun h hs => congrArg _ (buildFrame_exhausted cmd p s h hs)⟩

/-! Reading a frame back. -/

/-- A buffer followed by its own CRC has residue zero (rule R54 (b)). -/
theorem crc16_append_own (d : Buffer) : crc16 (d ++ bytes16 (crc16 d)) = 0x0000#16 := by
  rw [crc16_append, crcStep_own_bytes]

/-- After the header, a frame is its CRC's span and the CRC (rule R37). -/
theorem slice_frame_body (seq : Word16) (cmd : Byte) (p : Buffer) :
    slice (frame seq cmd p) 2 (frame seq cmd p).length = crcSpan seq cmd p ++ bytes16 (crc16 (crcSpan seq cmd p)) :=
  slice_full _ 2

/-- Settles O4: BUILD sends the frame of the allocated number, whose slices are the fields it was laid out from. -/
theorem frameFieldsComeBackBySlicing : Obligations.FrameFieldsComeBackBySlicing := by
  intro cmd p s hsend
  obtain ⟨hbuild, -, -⟩ := buildSendsOrReports cmd p s
  obtain ⟨-, hseq, hzero, hcmd⟩ := byteAt_frame_header (nextNumber s) cmd p
  have hend : 6 + p.length = (frame (nextNumber s) cmd p).length - 2 := by simp; omega
  refine ⟨_, frame (nextNumber s) cmd p, hbuild hsend, afterBuild_tx cmd p s, rfl, hseq, hzero, hcmd, ?payload, ?crc,
    ?residue⟩
  case payload => rw [hend, slice_frame_payload]
  case crc => rw [be16_frame_crc, slice_frame_span]
  case residue => rw [slice_frame_body, crc16_append_own]

/-! The builders with range checks. -/

/-- An instruction that is a value builder refuses a value above the maximum; otherwise it does what BUILD does with
`bytes16(v)`. -/
theorem valueBuilder_outcomes {i : Instr} {cmd : Byte} {f : FieldId} {max v : Nat} {s : State}
    (hi : exec i s = .next (buildValue cmd f max v s)) :
    (max < v → exec i s = .next (afterError (.valueOutOfRange f v) s)) ∧
    (v ≤ max → exec i s = exec (.build cmd (bytes16 (BitVec.ofNat 16 v))) s) :=
  ⟨fun hv => hi.trans (congrArg _ (checked_fail f v max _ s hv)),
    fun hv => hi.trans (congrArg _ (buildValue_pass cmd f max v s hv))⟩

/-- Settles O11: the check refuses, or the outcome is BUILD's. -/
theorem valueBuildersCheckThenSend : Obligations.ValueBuildersCheckThenSend := by
  intro v s p builds
  have hbuilds {i : Instr} {cmd : Byte} {f : FieldId} {max : Nat} (hi : exec i s = .next (buildValue cmd f max v s)) :
      builds i cmd f max := by
    obtain ⟨hfail, hpass⟩ := valueBuilder_outcomes hi
    obtain ⟨hsend, hlong, hfull⟩ := buildSendsOrReports cmd p s
    exact ⟨hfail, fun hv h => (hpass hv).trans (hsend h), fun hv h => (hpass hv).trans (hlong h),
      fun hv h hs => (hpass hv).trans (hfull h hs)⟩
  exact ⟨hbuilds rfl, hbuilds rfl, hbuilds rfl, hbuilds rfl⟩

/-- A check that passes leaves the result of the rest of the operation (rule R58). -/
theorem checked_pass_trans {f : FieldId} {v m : Nat} {k : State → State} {s t : State} (h : v ≤ m) (hk : k s = t) :
    checked f v m k s = t := (checked_pass f v m k s h).trans hk

/-- Settles O12: the checks before the first that fails pass on to it; when all pass, CTRLWR is BUILD. -/
theorem ctrlwrChecksInOrderThenSends : Obligations.CtrlwrChecksInOrderThenSends := by
  intro tc ft sr tse dm wm s w refuses
  have hrefuses {f : FieldId} {v : Nat} (h : buildCtrl tc ft sr tse dm wm s = afterError (.valueOutOfRange f v) s) :
      refuses f v := congrArg _ h
  obtain ⟨-, -, -, -, -, hctrlwr, -⟩ := buildersExpandToBuild s
  have hpass := hctrlwr tc ft sr tse dm wm
  obtain ⟨hsend, hlong, hfull⟩ := buildSendsOrReports 0x04#8 (bytes16 w) s
  refine ⟨?tc, ?ft, ?sr, ?tse, ?dm, ?wm, ?send, ?long, ?full⟩
  case tc => exact fun h => hrefuses (checked_fail _ _ _ _ _ h)
  case ft => exact fun h1 h => hrefuses (checked_pass_trans h1 (checked_fail _ _ _ _ _ h))
  case sr => exact fun h1 h2 h => hrefuses (checked_pass_trans h1 (checked_pass_trans h2 (checked_fail _ _ _ _ _ h)))
  case tse =>
    exact fun h1 h2 h3 h => hrefuses (checked_pass_trans h1 (checked_pass_trans h2 (checked_pass_trans h3
      (checked_fail _ _ _ _ _ h))))
  case dm =>
    exact fun h1 h2 h3 h4 h => hrefuses (checked_pass_trans h1 (checked_pass_trans h2 (checked_pass_trans h3
      (checked_pass_trans h4 (checked_fail _ _ _ _ _ h)))))
  case wm =>
    exact fun h1 h2 h3 h4 h5 h => hrefuses (checked_pass_trans h1 (checked_pass_trans h2 (checked_pass_trans h3
      (checked_pass_trans h4 (checked_pass_trans h5 (checked_fail _ _ _ _ _ h))))))
  case send => exact fun h1 h2 h3 h4 h5 h6 h => (hpass h1 h2 h3 h4 h5 h6).trans (hsend h)
  case long => exact fun h1 h2 h3 h4 h5 h6 h => (hpass h1 h2 h3 h4 h5 h6).trans (hlong h)
  case full => exact fun h1 h2 h3 h4 h5 h6 h hs => (hpass h1 h2 h3 h4 h5 h6).trans (hfull h hs)

end Sys2Proof.Machine
end

section
/-! PROOFS. The RX classifier: the length check (rule R73), the nine classes (rule R74), the ack codes (rule R77) and the reply
flag (rule R79). -/

namespace Sys2Proof.Machine

/-! The length check. -/

/-- A datagram of another length is dropped before its class is read (rule R73). -/
theorem receive_of_length_ne {b : Buffer} {s : State} (hl : b.length ≠ 138) :
    receive b s = afterError (.framingLen b.length) s := if_pos hl

/-- Settles O26: RX answers what `receive` leaves, and the length check comes first there. -/
theorem wrongLengthIsDropped : Obligations.WrongLengthIsDropped := fun _ _ hl => congrArg _ (receive_of_length_ne hl)

/-! The nine classes. -/

/-- What rule R74 asks of a buffer and a mode for each class: the class's own test, and that the tests before it fail where its
own does not say so already. -/
def classBytes (b : Buffer) (m : Mode) : RxClass → Prop
  | .hsZero => allBytes b 0 5 0x11#8 ∧ allBytes b 5 10 0x00#8
  | .hsReady => allBytes b 0 5 0x11#8 ∧ allBytes b 5 10 0x22#8
  | .hsFormat => allBytes b 0 5 0x11#8 ∧ ¬ allBytes b 5 10 0x00#8 ∧ ¬ allBytes b 5 10 0x22#8
  | .hsFail => allBytes b 0 5 0x00#8
  | .dataZero => isEb90 b ∧ allBytes b 9 138 0x00#8
  | .ack => isEb90 b ∧ ¬ allBytes b 9 138 0x00#8 ∧ allBytes b 10 138 (byteAt b 9)
  | .dataShort => isEb90 b ∧ ¬ allBytes b 9 138 0x00#8 ∧ ¬ allBytes b 10 138 (byteAt b 9) ∧
      (m = .active .shortPacket ∨ m = .active .hitCount) ∧ allBytes b 74 138 (byteAt b 73)
  | .dataFull => isEb90 b ∧ ¬ allBytes b 9 138 0x00#8 ∧ ¬ allBytes b 10 138 (byteAt b 9) ∧
      ¬ ((m = .active .shortPacket ∨ m = .active .hitCount) ∧ allBytes b 74 138 (byteAt b 73))
  | .malformed => ¬ allBytes b 0 5 0x11#8 ∧ ¬ allBytes b 0 5 0x00#8 ∧ ¬ isEb90 b

theorem isShortMode_iff (m : Mode) : isShortMode m = true ↔ m = .active .shortPacket ∨ m = .active .hitCount := by
  rcases m with _ | (_ | _ | _ | _) <;> decide

/-- The classifier's test of a slice, byte by byte. -/
theorem slice_eq_rep_iff_allBytes {b : Buffer} {a c n : Nat} {v : Byte} (hl : b.length = 138) (hc : c ≤ 138)
    (hn : c - a = n) : slice b a c = rep v n ↔ allBytes b a c v := by
  subst hn
  exact slice_eq_rep_iff b a c v (hl ▸ hc)

/-- Bytes that hold `w` somewhere are not all another value `v`. -/
theorem not_allBytes_of_byteAt {b : Buffer} {a c : Nat} {v w : Byte} (i : Nat) (hi : byteAt b i = w) (hne : w ≠ v)
    (ha : a ≤ i) (hc : i < c) : ¬ allBytes b a c v := fun h => hne (hi.symm.trans (h i ha hc))

/-- An EB90 buffer passes neither test of the first five bytes (rule R74). -/
theorem not_allBytes_of_isEb90 {b : Buffer} (h : isEb90 b) : ¬ allBytes b 0 5 0x11#8 ∧ ¬ allBytes b 0 5 0x00#8 :=
  ⟨not_allBytes_of_byteAt 0 h.1 (by decide) (by decide) (by decide),
    not_allBytes_of_byteAt 0 h.1 (by decide) (by decide) (by decide)⟩

open Classical in
/-- The classifier with its tests written byte by byte. -/
theorem classify_eq {b : Buffer} (m : Mode) (hl : b.length = 138) : classify b m =
    if allBytes b 0 5 0x11#8 then
      if allBytes b 5 10 0x00#8 then .hsZero else if allBytes b 5 10 0x22#8 then .hsReady else .hsFormat
    else if allBytes b 0 5 0x00#8 then .hsFail
    else if isEb90 b then
      if allBytes b 9 138 0x00#8 then .dataZero
      else if allBytes b 10 138 (byteAt b 9) then .ack
      else if (m = .active .shortPacket ∨ m = .active .hitCount) ∧ allBytes b 74 138 (byteAt b 73) then .dataShort
      else .dataFull
    else .malformed := by
  simp (disch := decide) only [classify, slice_eq_rep_iff_allBytes hl, isShortMode_iff, isEb90]
  congr

/-- The class the classifier gives is one whose bytes the buffer has. -/
theorem classBytes_classify {b : Buffer} (m : Mode) (hl : b.length = 138) : classBytes b m (classify b m) := by
  rw [classify_eq m hl]
  split_ifs with hones hzero hready hzeros heb htail hnine hshort
  · exact ⟨hones, hzero⟩
  · exact ⟨hones, hready⟩
  · exact ⟨hones, hzero, hready⟩
  · exact hzeros
  · exact ⟨heb, htail⟩
  · exact ⟨heb, htail, hnine⟩
  · exact ⟨heb, htail, hnine, hshort⟩
  · exact ⟨heb, htail, hnine, hshort⟩
  · exact ⟨hones, hzeros, heb⟩

/-- A buffer that has the bytes of a class gets that class: no test before the class's own passes. -/
theorem classify_of_classBytes {b : Buffer} {m : Mode} {c : RxClass} (hl : b.length = 138) (h : classBytes b m c) :
    classify b m = c := by
  rw [classify_eq m hl]
  cases c with
  | hsZero =>
    obtain ⟨hones, hzero⟩ := h
    rw [if_pos hones, if_pos hzero]
  | hsReady =>
    obtain ⟨hones, hready⟩ := h
    have hzero : ¬ allBytes b 5 10 0x00#8 :=
      not_allBytes_of_byteAt 5 (hready 5 (by decide) (by decide)) (by decide) (by decide) (by decide)
    rw [if_pos hones, if_neg hzero, if_pos hready]
  | hsFormat =>
    obtain ⟨hones, hzero, hready⟩ := h
    rw [if_pos hones, if_neg hzero, if_neg hready]
  | hsFail =>
    have hzeros : allBytes b 0 5 0x00#8 := h
    have hones : ¬ allBytes b 0 5 0x11#8 :=
      not_allBytes_of_byteAt 0 (hzeros 0 (by decide) (by decide)) (by decide) (by decide) (by decide)
    rw [if_neg hones, if_pos hzeros]
  | dataZero =>
    obtain ⟨heb, htail⟩ := h
    obtain ⟨hones, hzeros⟩ := not_allBytes_of_isEb90 heb
    rw [if_neg hones, if_neg hzeros, if_pos heb, if_pos htail]
  | ack =>
    obtain ⟨heb, htail, hnine⟩ := h
    obtain ⟨hones, hzeros⟩ := not_allBytes_of_isEb90 heb
    rw [if_neg hones, if_neg hzeros, if_pos heb, if_neg htail, if_pos hnine]
  | dataShort =>
    obtain ⟨heb, htail, hnine, hshort⟩ := h
    obtain ⟨hones, hzeros⟩ := not_allBytes_of_isEb90 heb
    rw [if_neg hones, if_neg hzeros, if_pos heb, if_neg htail, if_neg hnine, if_pos hshort]
  | dataFull =>
    obtain ⟨heb, htail, hnine, hshort⟩ := h
    obtain ⟨hones, hzeros⟩ := not_allBytes_of_isEb90 heb
    rw [if_neg hones, if_neg hzeros, if_pos heb, if_neg htail, if_neg hnine, if_neg hshort]
  | malformed =>
    obtain ⟨hones, hzeros, heb⟩ := h
    rw [if_neg hones, if_neg hzeros, if_neg heb]

theorem classify_eq_iff {b : Buffer} {m : Mode} (hl : b.length = 138) (c : RxClass) :
    classify b m = c ↔ classBytes b m c :=
  ⟨fun h => h ▸ classBytes_classify m hl, classify_of_classBytes hl⟩

/-- Settles O28: one case of `classify_eq_iff` for each class. -/
theorem classesByTheirBytes : Obligations.ClassesByTheirBytes := by
  intro b m hl
  have hiff (c : RxClass) := classify_eq_iff (m := m) hl c
  exact ⟨hiff .hsZero, hiff .hsReady, hiff .hsFormat, hiff .hsFail, hiff .dataZero, hiff .ack, hiff .dataShort,
    hiff .dataFull, hiff .malformed⟩

/-! The ack codes. -/

theorem ackVerdict_accepted_iff (x : Byte) :
    ackVerdict x = .accepted ↔ x = 0xF1#8 ∨ x = 0xF2#8 ∨ x = 0xF3#8 ∨ x = 0xF4#8 := by
  unfold ackVerdict
  split_ifs with h
  · exact iff_of_true rfl h
  · exact iff_of_false nofun h

/-- Settles O30: the accepted codes are the four bytes from F1 to F4; a code with none of the three notes gets to the end of the
tests. -/
theorem ackCodeVerdictsAndNotes : Obligations.AckCodeVerdictsAndNotes := by
  refine ⟨fun x => ?verdict, rfl, rfl, rfl, fun x h2 h3 h4 => ?noNote⟩
  case verdict =>
    simp only [ackVerdict_accepted_iff, ← BitVec.toNat_inj, BitVec.toNat_ofNat]
    omega
  case noNote => rw [ackNote, if_neg h2, if_neg h3, if_neg h4]

/-! The reply flag. -/

/-- Only the EB90 classes pass the `MODE_UNSET` check. -/
theorem not_passesModeCheck_of_not_eb90 {c : RxClass} {m : Mode} (hack : c ≠ .ack) (hdata : isDataClass c ≠ true) :
    ¬ passesModeCheck c m
  | .inl h => hack h
  | .inr ⟨h, _⟩ => hdata h

/-- What any processing of a datagram does to `REPLY_FLAG`: it is set past the mode check and left alone otherwise (rule R79). -/
theorem Received.replyFlag {c : RxClass} {b : Buffer} {s t : State} (h : Received c b s t) :
    (passesModeCheck c s.mode ∧ t.replyFlag = true) ∨ (¬ passesModeCheck c s.mode ∧ t.replyFlag = s.replyFlag) := by
  cases h with
  | unsolicited _ hc => rcases hc with rfl | rfl | rfl <;> exact .inr ⟨not_passesModeCheck_of_not_eb90 nofun nofun, rfl⟩
  | ready _ hc => subst hc; exact .inr ⟨not_passesModeCheck_of_not_eb90 nofun nofun, rfl⟩
  | abnormal _ _ hc => rcases hc with rfl | rfl <;> exact .inr ⟨not_passesModeCheck_of_not_eb90 nofun nofun, rfl⟩
  | dropped _ hc =>
    refine .inr ⟨?_, rfl⟩
    rcases hc with rfl | rfl | ⟨hc, hm⟩
    · exact not_passesModeCheck_of_not_eb90 nofun nofun
    · exact not_passesModeCheck_of_not_eb90 nofun nofun
    · rintro (rfl | ⟨-, hne⟩)
      · cases hc
      · exact hne hm
  | rejected _ _ hp => exact .inl ⟨hp, rfl⟩
  | acked _ hp _ => exact .inl ⟨hp, rfl⟩
  | decoded _ _ hp _ => exact .inl ⟨hp, rfl⟩

/-- No datagram makes a frame go out. -/
theorem Received.tx {c : RxClass} {b : Buffer} {s t : State} (h : Received c b s t) : t.tx = s.tx := by
  cases h <;> rfl

/-- An instruction that changes TX leaves `REPLY_FLAG` clear: BUILD and the trigger sends are what writes TX (rule R79). -/
theorem replyFlag_of_tx_ne {i : Instr} {s t : State} (h : exec i s = .next t) (htx : t.tx ≠ s.tx) :
    t.replyFlag = false := by
  cases effect_of_exec h with
  | sends _ _ hsent =>
    rcases hsent with ⟨cmd, p, -, rfl⟩ | ⟨e, -, rfl⟩
    · exact afterBuild_replyFlag cmd p s
    · exact absurd rfl htx
  | triggers _ => rfl
  | expires _ =>
    rcases expireWindow_cases s with ⟨-, -, hsent⟩ | ⟨-, -, hout⟩ | ⟨-, hheld⟩
    · rw [hsent]; rfl
    · exact absurd (congrArg State.tx hout) htx
    · exact absurd (congrArg State.tx hheld) htx
  | receives c b _ _ hr => exact absurd hr.tx htx
  | refusesMode _ _ => exact absurd rfl htx
  | selects _ _ _ => exact absurd rfl htx
  | reports _ => exact absurd rfl htx
  | resets _ => exact absurd rfl htx
  | sums _ _ => exact absurd rfl htx
  | drops _ _ _ => exact absurd rfl htx

/-- A datagram of the right length is received as the class of its bytes and the mode (rule R72). -/
theorem receive_received {b : Buffer} (s : State) (hl : b.length = 138) :
    Received (classify b s.mode) b s (receive b s) := by
  rw [receive_of_class ⟨hl, rfl⟩]
  exact receiveClass_received _ b s

/-- Settles O32: a datagram of the right length is received as its class, which sets the flag or leaves it; one of another length
is dropped. -/
theorem replyFlagFollowsReplies : Obligations.ReplyFlagFollowsReplies := by
  refine ⟨fun b s hl hp => ⟨_, rfl, ?sets⟩, fun b s h => ⟨_, rfl, ?leaves⟩, fun i s t => replyFlag_of_tx_ne⟩
  case sets =>
    rcases (receive_received s hl).replyFlag with ⟨-, hset⟩ | ⟨hnot, -⟩
    · exact hset
    · exact absurd hp hnot
  case leaves =>
    by_cases hl : b.length = 138
    · rcases (receive_received s hl).replyFlag with ⟨hp, -⟩ | ⟨-, hkept⟩
      · exact absurd ⟨hl, hp⟩ h
      · exact hkept
    · rw [receive_of_length_ne hl, afterError_replyFlag]

end Sys2Proof.Machine
end

section
/-! PROOFS. The channel decoder: what each geometry holds at a channel, and the numbers those entries are (rules R82 to R86). -/

namespace Sys2Proof.Machine

/-! The entry at a channel. -/

/-- A vector built channel by channel holds at a channel what was built for it. -/
theorem getElem?_map_range {α : Type} (f : Nat → α) {n j : Nat} (hj : j < n) : ((List.range n).map f)[j]? = some (f j) := by
  rw [List.getElem?_map, List.getElem?_range hj, Option.map_some]

/-! Counts as numbers. -/

/-- A two-byte count read from byte 8 on keeps its value when it is widened (rules R83, R85). -/
theorem toNat_zeroExtend_be16_channel (b : Buffer) (j : Nat) :
    ((be16 b (8 + 2 * j)).zeroExtend 32).toNat = (byteAt b (8 + 2 * j)).toNat * 256 + (byteAt b (9 + 2 * j)).toNat := by
  have hwiden : ((be16 b (8 + 2 * j)).zeroExtend 32).toNat = (be16 b (8 + 2 * j)).toNat :=
    BitVec.toNat_setWidth_of_le (by decide)
  rw [hwiden, toNat_be16, show 8 + 2 * j + 1 = 9 + 2 * j by omega]

/-- A four-byte count read from byte 8 on (rule R84). -/
theorem toNat_be32_channel (b : Buffer) (j : Nat) :
    (be32 b (8 + 4 * j)).toNat = (byteAt b (8 + 4 * j)).toNat * 2 ^ 24 + (byteAt b (9 + 4 * j)).toNat * 2 ^ 16 +
      (byteAt b (10 + 4 * j)).toNat * 256 + (byteAt b (11 + 4 * j)).toNat := by
  rw [toNat_be32, show 8 + 4 * j + 1 = 9 + 4 * j by omega, show 8 + 4 * j + 2 = 10 + 4 * j by omega,
    show 8 + 4 * j + 3 = 11 + 4 * j by omega]

/-- The number of words with bit `j` set is the sum of their bits `j` (rule R86). -/
theorem bitCount_eq_sum (ws : List Word32) (j : Nat) : bitCount ws j = (ws.map fun w => (w.getLsbD j).toNat).sum := by
  induction ws with
  | nil => rfl
  | cons w ws ih =>
    have hstep : bitCount (w :: ws) j = (w.getLsbD j).toNat + bitCount ws j := by
      cases h : w.getLsbD j
      · simp [bitCount, h]
      · simp [bitCount, h, Nat.add_comm]
    rw [hstep, ih, List.map_cons, List.sum_cons]

/-- No bit is counted oftener than there are words. -/
theorem bitCount_le_length (ws : List Word32) (j : Nat) : bitCount ws j ≤ ws.length := List.length_filter_le _ ws

@[simp] theorem length_hitWords (b : Buffer) : (hitWords b).length = 16 := by simp [hitWords]

theorem bitCount_hitWords_le (b : Buffer) (j : Nat) : bitCount (hitWords b) j ≤ 16 :=
  (bitCount_le_length _ j).trans_eq (length_hitWords b)

/-- A HitCount channel's 32 bits hold its whole count, which is at most 16. -/
theorem toNat_ofNat_bitCount_hitWords (b : Buffer) (j : Nat) :
    (BitVec.ofNat 32 (bitCount (hitWords b) j)).toNat = bitCount (hitWords b) j :=
  (BitVec.toNat_ofNat _ _).trans (Nat.mod_eq_of_lt ((bitCount_hitWords_le b j).trans_lt (by decide)))

/-! The statements. -/

/-- Settles O35: each vector is built channel by channel, so a channel's entry is its count, read as a number. -/
theorem directGeometriesReadBigEndian : Obligations.DirectGeometriesReadBigEndian := by
  intro b
  refine ⟨?short, ?long, ?cluster, ?hit, fun j hj => ⟨_, getElem?_map_range _ hj, toNat_zeroExtend_be16_channel b j⟩,
    fun j hj => ⟨_, getElem?_map_range _ hj, toNat_be32_channel b j⟩,
    fun j hj => ⟨_, getElem?_map_range _ hj, toNat_zeroExtend_be16_channel b j⟩⟩
  case short => simp [decodeChannels, decodeShort]
  case long => simp [decodeChannels, decodeLong]
  case cluster => simp [decodeChannels, decodeCluster]
  case hit => simp [decodeChannels, decodeHit]

/-- Settles O36: a channel's entry is its bit count over the sixteen words, and that count is the sum of the bits. -/
theorem hitCountCountsSetBits : Obligations.HitCountCountsSetBits := by
  intro b j hj
  refine ⟨_, getElem?_map_range _ hj, ?sum, ?bound⟩
  case sum =>
    rw [toNat_ofNat_bitCount_hitWords, bitCount_eq_sum, hitWords, List.map_map]
    rfl
  case bound =>
    rw [toNat_ofNat_bitCount_hitWords]
    exact bitCount_hitWords_le b j

end Sys2Proof.Machine
end

section
/-! PROOFS. The trigger handshake: the literal TRIG sends (rule R89), the window expiry (rule R93), and the transition table with
its replies (rules R90 to R92, R94). -/

namespace Sys2Proof.Machine

/-! The operations. -/

theorem exec_trig (s : State) : exec .trig s = .next (sendTrigger 0 s) := rfl

theorem exec_expire (s : State) : exec .expire s = .next (expireWindow s) := rfl

theorem exec_rx (b : Buffer) (s : State) : exec (.rx b) s = .next (receive b s) := rfl

/-- Settles O19: TRIG is one trigger send, and the frame it sends is the literal. -/
theorem trigSendsTheLiteral : Obligations.TrigSendsTheLiteral := by
  intro s
  rw [exec_trig, sendTrigger_eq, triggerFrame]

/-- Settles O20: the three cases of the window expiry. -/
theorem expireEscalatesThenTimesOut : Obligations.ExpireEscalatesThenTimesOut := by
  intro s
  refine ⟨fun hs ha => ?first, fun hs ha => ?second, fun hs => ?held⟩
  case first => rw [exec_expire, expireWindow_first s hs ha, sendTrigger_eq, hs]
  case second => rw [exec_expire, expireWindow_second s hs ha]; rfl
  case held => rw [exec_expire, expireWindow_held s hs]

/-! The table's rows. -/

theorem handshakeTable_awaiting {h : HsState} (hs : h = .awaitingReply) (a : Fin 2) (x : HsInput) :
    handshakeTable h a x = awaitingCell a x := by
  rw [hs, handshakeTable]

theorem handshakeTable_held {h : HsState} (hs : h ≠ .awaitingReply) (a : Fin 2) (x : HsInput) :
    handshakeTable h a x = heldCell h x := by
  cases h with
  | awaitingReply => exact absurd rfl hs
  | idle => rfl
  | abnormal => rfl
  | readyToAcquire => rfl

/-- The column TRIG is the same in every row. -/
theorem handshakeTable_trig (h : HsState) (a : Fin 2) : handshakeTable h a .trig = ⟨.awaitingReply, 0, true, .trigSent 0⟩ := by
  by_cases hs : h = .awaitingReply
  · rw [handshakeTable_awaiting hs, awaitingCell]
  · rw [handshakeTable_held hs, heldCell]

/-! What a cell leaves. -/

theorem followsCell_send (s : State) (a : Fin 2) :
    followsCell s ⟨.awaitingReply, a, true, .trigSent a⟩ = sendTrigger a s := rfl

theorem followsCell_move (s : State) (h : HsState) (a : Fin 2) (e : Event) :
    followsCell s ⟨h, a, false, e⟩ = afterEvent e (writeHs h a s) := rfl

/-- A cell with the state's own entries only reports its event. -/
theorem followsCell_stay (s : State) (e : Event) : followsCell s ⟨s.hsState, s.hsAttempt, false, e⟩ = afterEvent e s := rfl

/-! The table's columns. The rows other than AwaitingReply write attempt 0, which changes nothing because the attempt is 0 there
(rules R17, R95 (c)). -/

theorem sendTrigger_follows_table (s : State) :
    sendTrigger 0 s = followsCell s (handshakeTable s.hsState s.hsAttempt .trig) := by
  rw [handshakeTable_trig, followsCell_send]

section
variable {s : State} (hatt : s.hsAttempt ≠ 0 → s.hsState = .awaitingReply)
include hatt

/-- Outside AwaitingReply a cell that keeps the state only reports its event. -/
theorem followsCell_held (hs : s.hsState ≠ .awaitingReply) (e : Event) :
    followsCell s ⟨s.hsState, 0, false, e⟩ = afterEvent e s := by
  have hzero : s.hsAttempt = 0 := by_contra fun h => hs (hatt h)
  rw [← hzero, followsCell_stay]

theorem expireWindow_follows_table :
    expireWindow s = followsCell s (handshakeTable s.hsState s.hsAttempt .expire) := by
  rcases expireWindow_cases s with ⟨hs, ha, hsent⟩ | ⟨hs, ha, hout⟩ | ⟨hs, hheld⟩
  · rw [hsent, handshakeTable_awaiting hs, awaitingCell, if_pos ha, followsCell_send]
  · rw [hout, handshakeTable_awaiting hs, awaitingCell, if_neg ha, followsCell_move]; rfl
  · rw [hheld, handshakeTable_held hs, heldCell, followsCell_held hatt hs]

/-- A handshake reply follows the column whose AwaitingReply cell is what it does there (`hawait`) and whose other cells are
HS_UNSOLICITED (`hheld`) (rules R90, R92). -/
theorem hsReply_follows_table {c : RxClass} {k : State → State} {x : HsInput}
    (hawait : k s = followsCell s (awaitingCell s.hsAttempt x))
    (hheld : heldCell s.hsState x = ⟨s.hsState, 0, false, .hsUnsolicited c s.hsState⟩) :
    hsReply c k s = followsCell s (handshakeTable s.hsState s.hsAttempt x) := by
  by_cases hs : s.hsState = .awaitingReply
  · rw [hsReply_awaiting c k s hs, handshakeTable_awaiting hs, hawait]
  · rw [hsReply_held c k s hs, handshakeTable_held hs, hheld, followsCell_held hatt hs]

theorem hsReadyReply_follows_table (b : Buffer) :
    hsReadyReply b s = followsCell s (handshakeTable s.hsState s.hsAttempt (.ready (byteAt b 5))) := by
  rw [hsReadyReply]
  exact hsReply_follows_table hatt rfl rfl

theorem hsZeroReply_follows_table : hsZeroReply s = followsCell s (handshakeTable s.hsState s.hsAttempt .zero) := by
  rw [hsZeroReply]
  exact hsReply_follows_table hatt rfl rfl

theorem hsFailReply_follows_table : hsFailReply s = followsCell s (handshakeTable s.hsState s.hsAttempt .fail) := by
  rw [hsFailReply]
  exact hsReply_follows_table hatt rfl rfl

/-- HS_FORMAT_ERR is the column of a status that is no known reply: only an event, in every row (rule R91). -/
theorem hsFormatErr_follows_table (status : Buffer) :
    afterError (.hsFormatErr status) s = followsCell s (handshakeTable s.hsState s.hsAttempt (.format status)) := by
  by_cases hs : s.hsState = .awaitingReply
  · rw [handshakeTable_awaiting hs, awaitingCell, ← hs, followsCell_stay]; rfl
  · rw [handshakeTable_held hs, heldCell, followsCell_held hatt hs]; rfl

end

/-- The status byte HS_READY reports is 0x22 (rule R74). -/
theorem statusByte_of_hsReady {b : Buffer} {m : Mode} (h : hasClass b m .hsReady) : byteAt b 5 = 0x22#8 := by
  obtain ⟨-, hready⟩ := (classify_eq_iff h.1 .hsReady).1 h.2
  exact hready 5 (by decide) (by decide)

/-- Settles O22: column by column; a datagram of a handshake class is that class's reply, and HS_READY's event carries the 0x22
its class asks for. -/
theorem handshakeFollowsItsTable : Obligations.HandshakeFollowsItsTable := by
  intro b s hatt
  refine ⟨?trig, ?expire, fun hc => ?ready, fun hc => ?zero, fun hc => ?fail, fun hc => ?format, _, rfl, rfl, rfl⟩
  case trig => rw [exec_trig, sendTrigger_follows_table]
  case expire => rw [exec_expire, expireWindow_follows_table hatt]
  case ready =>
    rw [exec_rx, receive_of_class hc, receiveClass, hsReadyReply_follows_table hatt, statusByte_of_hsReady hc]
  case zero => rw [exec_rx, receive_of_class hc, receiveClass, hsZeroReply_follows_table hatt]
  case fail => rw [exec_rx, receive_of_class hc, receiveClass, hsFailReply_follows_table hatt]
  case format => rw [exec_rx, receive_of_class hc, receiveClass, raise_eq, hsFormatErr_follows_table hatt]

end Sys2Proof.Machine
end

section
/-! PROOFS. The control operations: SETMODE (rule R97), STAT (rule R98) and RESET (rule R99). -/

namespace Sys2Proof.Machine

/-! SETMODE. -/

theorem exec_setmode (m : Nat) (s : State) : exec (.setmode m) s = .next (selectMode m s) := rfl

/-- 0 to 3 are the only mode numbers (rule R15). -/
theorem modeOfNat_eq_none : ∀ {m : Nat}, 3 < m → modeOfNat m = none
  | _ + 4, _ => rfl

theorem selectMode_of_some {m : Nat} {a : AcqMode} (h : modeOfNat m = some a) (s : State) :
    selectMode m s = { s with mode := .active a, evt := s.evt ++ [.modeSet m] } := by
  rw [selectMode, h]; rfl

theorem selectMode_of_none {m : Nat} (h : modeOfNat m = none) (s : State) :
    selectMode m s = afterError (.valueOutOfRange .mode m) s := by
  rw [selectMode, h, raise_eq]

/-- Settles O39: an operand selects a mode when it is a mode's number, and is refused when it is none. -/
theorem setmodeSelectsOrRefuses : Obligations.SetmodeSelectsOrRefuses := by
  intro s
  refine ⟨?short, ?long, ?cluster, ?hit, fun m hm => ?refused⟩
  case short => rw [exec_setmode, selectMode_of_some (a := .shortPacket) rfl]
  case long => rw [exec_setmode, selectMode_of_some (a := .longPacket) rfl]
  case cluster => rw [exec_setmode, selectMode_of_some (a := .clusterCount) rfl]
  case hit => rw [exec_setmode, selectMode_of_some (a := .hitCount) rfl]
  case refused => rw [exec_setmode, selectMode_of_none (modeOfNat_eq_none hm)]

/-! STAT. -/

theorem exec_stat (s : State) : exec .stat s = .next (afterEvent (.status (statusOf s)) s) := rfl

theorem statusOf_mode {s : State} {m : Mode} (h : s.mode = m) : (statusOf s).mode = modeCode m := by
  rw [statusOf, h]

theorem statusOf_hs {s : State} {x : HsState} (h : s.hsState = x) : (statusOf s).hs = hsCode x := by
  rw [statusOf, h]

/-- Settles O40: the record is `statusOf` of the state, whose codes are those of the registers. -/
theorem statReportsEveryRegister : Obligations.StatReportsEveryRegister := fun s =>
  ⟨statusOf s, exec_stat s, rfl, rfl, rfl, rfl,
    statusOf_mode, statusOf_mode, statusOf_mode, statusOf_mode, statusOf_mode,
    statusOf_hs, statusOf_hs, statusOf_hs, statusOf_hs⟩

/-! RESET. -/

theorem exec_reset (s : State) : exec .reset s = .next (afterEvent .resetDone (resetRegisters s)) := rfl

/-- Settles O41: RESET is `resetRegisters`, whose fields are the six reset values and the state's own, and the event after it. -/
theorem resetWritesTheRegistersOnly : Obligations.ResetWritesTheRegistersOnly := by
  intro s
  simp [exec_reset, afterEvent]

end Sys2Proof.Machine
end

section
/-! PROOFS. The decoder against the encoder, and the words of the table (rules R37 to R49, R70, R74). -/

namespace Sys2Proof.Machine

/-! Decoding an encoding. -/

/-- Settles O49: row by row, from the round trip of each constructor. -/
theorem decodeOfEncode : Obligations.DecodeOfEncode := by
  intro i
  cases i with
  | build cmd p => exact Laws.RoundTrip.build cmd p
  | looptest p => exact Laws.RoundTrip.looptest p
  | ctrlrd => exact Laws.RoundTrip.ctrlrd
  | fpgarst => exact Laws.RoundTrip.fpgarst
  | chthr p => exact Laws.RoundTrip.chthr p
  | cntrst p => exact Laws.RoundTrip.cntrst p
  | ctrlwr tc ft sr tse dm wm => exact Laws.RoundTrip.ctrlwr tc ft sr tse dm wm
  | setthr v => exact Laws.RoundTrip.setthr v
  | setacq v => exact Laws.RoundTrip.setacq v
  | setdac v => exact Laws.RoundTrip.setdac v
  | setint v => exact Laws.RoundTrip.setint v
  | trig => exact Laws.RoundTrip.trig
  | expire => exact Laws.RoundTrip.expire
  | setmode m => exact Laws.RoundTrip.setmode m
  | stat => exact Laws.RoundTrip.stat
  | reset => exact Laws.RoundTrip.reset
  | crc d => exact Laws.RoundTrip.crc d
  | rx b => exact Laws.RoundTrip.rx b
  | txBuild seq cmd p => exact Laws.RoundTrip.txBuild seq cmd p
  | txLooptest seq p => exact Laws.RoundTrip.txLooptest seq p
  | txCtrlrd seq => exact Laws.RoundTrip.txCtrlrd seq
  | txFpgarst seq => exact Laws.RoundTrip.txFpgarst seq
  | txChthr seq p => exact Laws.RoundTrip.txChthr seq p
  | txCntrst seq p => exact Laws.RoundTrip.txCntrst seq p
  | txCtrlwr seq tc ft sr tse dm wm => exact Laws.RoundTrip.txCtrlwr seq tc ft sr tse dm wm
  | txSetthr seq v => exact Laws.RoundTrip.txSetthr seq v
  | txSetacq seq v => exact Laws.RoundTrip.txSetacq seq v
  | txSetdac seq v => exact Laws.RoundTrip.txSetdac seq v
  | txSetint seq v => exact Laws.RoundTrip.txSetint seq v
  | txTrigger => exact Laws.RoundTrip.txTrigger
  | rxHsZero b => exact Laws.RoundTrip.rxHsZero b
  | rxHsReady b => exact Laws.RoundTrip.rxHsReady b
  | rxHsFormat b => exact Laws.RoundTrip.rxHsFormat b
  | rxHsFail b => exact Laws.RoundTrip.rxHsFail b
  | rxDataZero b => exact Laws.RoundTrip.rxDataZero b
  | rxAck b => exact Laws.RoundTrip.rxAck b
  | rxDataShort b => exact Laws.RoundTrip.rxDataShort b
  | rxDataFull b => exact Laws.RoundTrip.rxDataFull b
  | rxMalformed b => exact Laws.RoundTrip.rxMalformed b

/-! Encoding what was decoded. -/

/-- A host command is its own queue item, and always well formed (rule R49). -/
theorem encode_of_command {i : Instr} (hframe : isFrameRow i = false) (hrecv : isReceive i = false) (htrig : i ≠ .txTrigger) :
    encode i = .item (queueItem i) ∧ i.wf = true ∧ ∀ m, i.modeOk m = true := by
  cases i <;> simp_all [isFrameRow, isReceive, encode, queueItem, Instr.wf, Instr.modeOk]

theorem txRow_isFrameRow (seq : Word16) (cmd : Byte) (p : Buffer) : isFrameRow (txRow seq cmd p) = true := by
  simp only [txRow]
  split_ifs <;> rfl

/-- A frame's row does not read the mode. -/
theorem modeOk_of_isFrameRow {i : Instr} (h : isFrameRow i = true) (m : Mode) : i.modeOk m = true := by
  cases i <;> simp_all [isFrameRow, Instr.modeOk]

theorem encode_classRow (c : RxClass) (b : Buffer) : encode (classRow c b) = .datagram b := by cases c <;> rfl

/-- A datagram of step 3c of rule R74 in some mode is one in ShortPacket. -/
theorem classify_shortPacket {b : Buffer} {m : Mode} (hl : b.length = 138) (h : classify b m = .dataShort) :
    classify b (.active .shortPacket) = .dataShort := by
  obtain ⟨heb, hzero, hnine, -, hshort⟩ := (classify_eq_iff hl .dataShort).1 h
  exact classify_of_classBytes hl ⟨heb, hzero, hnine, .inl rfl, hshort⟩

/-- A datagram of step 3d in some mode is one before any mode is set. -/
theorem classify_unset {b : Buffer} {m : Mode} (hl : b.length = 138) (h : classify b m = .dataFull) :
    classify b .unset = .dataFull := by
  obtain ⟨heb, hzero, hnine, -⟩ := (classify_eq_iff hl .dataFull).1 h
  exact classify_of_classBytes hl ⟨heb, hzero, hnine, by simp⟩

/-- The class row of a datagram's class is well formed. -/
theorem classRow_wf {b : Buffer} {m : Mode} {c : RxClass} (h : hasClass b m c) :
    (classRow c b).wf = true ∧ (classRow c b).modeOk m = true := by
  obtain ⟨hl, hc⟩ := h
  have free (hs : c ≠ .dataShort) (hf : c ≠ .dataFull) : isClass c .unset b = true := by
    refine (Laws.isClass_iff _ _ _).2 ⟨hl, ?_⟩
    rw [Laws.classify_mode_free b m .unset (hc ▸ hs) (hc ▸ hf), hc]
  cases c with
  | dataShort => exact ⟨(Laws.isClass_iff _ _ _).2 ⟨hl, classify_shortPacket hl hc⟩, beq_iff_eq.2 hc⟩
  | dataFull => exact ⟨(Laws.isClass_iff _ _ _).2 ⟨hl, classify_unset hl hc⟩, beq_iff_eq.2 hc⟩
  | hsReady => exact ⟨free nofun nofun, rfl⟩
  | hsZero => exact ⟨free nofun nofun, rfl⟩
  | hsFormat => exact ⟨free nofun nofun, rfl⟩
  | hsFail => exact ⟨free nofun nofun, rfl⟩
  | ack => exact ⟨free nofun nofun, rfl⟩
  | dataZero => exact ⟨free nofun nofun, rfl⟩
  | malformed => exact ⟨free nofun nofun, rfl⟩

theorem decodeClass_of_length {b : Buffer} (m : Mode) (hl : b.length = 138) :
    decodeClass m b = .ok (classRow (classify b m) b) := if_neg (not_not.2 hl)

/-- A datagram that decodes is one of the right length, and its class's row. -/
theorem decodeClass_cases {m : Mode} {b : Buffer} {i : Instr} (h : decodeClass m b = .ok i) :
    b.length = 138 ∧ i = classRow (classify b m) b := by
  by_cases hl : b.length = 138
  · rw [decodeClass_of_length m hl] at h
    exact ⟨hl, (Except.ok.inj h).symm⟩
  · simp [decodeClass, Config.rxLen, hl] at h

/-- Settles O50: format by format; a frame is the one its fields make, and a datagram has the class of its row. -/
theorem encodeOfDecode : Obligations.EncodeOfDecode := by
  intro m w i h
  match w with
  | .item (.rx b) => cases h; exact ⟨rfl, rfl, rfl⟩
  | .item (.cmd c) =>
    obtain ⟨hitem, -, -, hframe, hrecv, htrig⟩ := decodeCommand_cases h
    obtain ⟨henc, hwf, hmode⟩ := encode_of_command hframe hrecv htrig
    exact ⟨henc.trans (congrArg _ hitem), hwf, hmode m⟩
  | .frame f =>
    rcases decodeFrame_cases f i h with ⟨rfl, rfl⟩ | ⟨seq, cmd, p, rfl, rfl⟩
    · exact ⟨rfl, rfl, rfl⟩
    · obtain ⟨hwf, henc⟩ := txRow_wf_encode seq cmd p
      exact ⟨henc, hwf, modeOk_of_isFrameRow (txRow_isFrameRow seq cmd p) m⟩
  | .datagram b =>
    obtain ⟨hl, rfl⟩ := decodeClass_cases h
    exact ⟨encode_classRow _ b, classRow_wf ⟨hl, rfl⟩⟩

/-! Frames and words. -/

/-- The literal's bytes 2 to 7 as an instruction frame's would have the CRC 0x4500 (rule R39). -/
theorem crc16_triggerFrame : crc16 (slice triggerFrame 2 8) = 0x4500#16 := by decide

/-- Settles O6: the literal's last two bytes are not the CRC a frame of its other bytes would carry. -/
theorem triggerLiteralIsNoInstructionFrame : Obligations.TriggerLiteralIsNoInstructionFrame :=
  ⟨rfl, crc16_triggerFrame, frame_ne_triggerFrame⟩

/-- Settles O5: eight bytes beside the payload. -/
theorem frameLengthIsEightAndThePayload : Obligations.FrameLengthIsEightAndThePayload := fun seq cmd =>
  ⟨length_frame seq cmd, fun v => length_frame seq cmd (bytes16 v), length_frame seq cmd []⟩

/-- Settles O2: the empty fold, and the nine digits. -/
theorem crcCheckValues : Obligations.CrcCheckValues := ⟨crc16_nil, crc16_digits⟩

theorem byteAt_replicate {n i : Nat} (v : Byte) (hi : i < n) : byteAt (List.replicate n v) i = v := by
  simp [byteAt, List.getD, hi]

/-- Settles O48: each word is decoded as it stands. -/
theorem wordsOfTheTable : Obligations.WordsOfTheTable := by
  refine ⟨rfl, rfl, rfl, rfl, rfl, rfl, rfl, rfl, ?setthr, rfl, ?zeros⟩
  case setthr => decide
  case zeros =>
    have hclass : classify (List.replicate 138 0x00#8) .unset = .hsFail :=
      classify_of_classBytes List.length_replicate fun i _ hi => byteAt_replicate _ (hi.trans (by decide))
    rw [decodeClass_of_length _ List.length_replicate, hclass]
    rfl

end Sys2Proof.Machine
end

section
/-! PROOFS. The invariant (rules R13, R14, R17, R19, R82, R111, R112): what every named operation keeps of it, then what every
instruction keeps, by the instruction's effect. -/

namespace Sys2Proof.Machine

/-! Events that report no frame and no vector. -/

/-- Events that the invariant does not count, their errors with their own codes. -/
def uncounted (es : List Event) : Prop :=
  framesReported es = 0 ∧ triggersReported es = 0 ∧ repliesDecoded es = 0 ∧
    ∀ code e, Event.err code e ∈ es → code = errorCode e

theorem uncounted_error (e : BlockError) : uncounted [.err (errorCode e) e] := by
  refine ⟨rfl, rfl, rfl, fun code e' he => ?_⟩
  cases List.mem_singleton.1 he
  rfl

/-- No error event stands among events none of which is one. -/
theorem codes_of_no_error {es : List Event} (h : ∀ e ∈ es, isError e = false) (code : Byte) (e : BlockError)
    (he : Event.err code e ∈ es) : code = errorCode e := absurd (h _ he) (by simp [isError])

theorem noteEvents_no_error (c : Bool) (x : Byte) : ∀ e ∈ noteEvents c x, isError e = false := by
  intro e he
  obtain ⟨n, rfl⟩ := noteEvents_plain c x e he
  rfl

theorem uncounted_notes (c : Bool) (x : Byte) : uncounted (noteEvents c x) :=
  ⟨framesReported_noteEvents c x, triggersReported_noteEvents c x, repliesDecoded_noteEvents c x,
    codes_of_no_error (noteEvents_no_error c x)⟩

/-- An event that is no error, no frame's and no vector's. -/
theorem uncounted_single {e : Event} (hf : isFrameSent e = false) (ht : isTrigSent e = false)
    (hd : isDataDecoded e = false) (he : isError e = false) : uncounted [e] :=
  ⟨by simp [framesReported, hf], by simp [triggersReported, ht], by simp [repliesDecoded, hd],
    codes_of_no_error (by simpa using he)⟩

/-! What each operation keeps. -/

namespace Inv

variable {s : State} (h : Inv s)
include h

theorem frames_append {f : Buffer} (hf : sentFrame f) : ∀ g ∈ s.tx ++ [f], sentFrame g :=
  List.forall_mem_append.2 ⟨h.frames, List.forall_mem_singleton.2 hf⟩

theorem errorCodes_append {es : List Event} (hes : ∀ code e, Event.err code e ∈ es → code = errorCode e) (code : Byte)
    (e : BlockError) (he : .err code e ∈ s.evt ++ es) : code = errorCode e :=
  (List.mem_append.1 he).elim (h.errorCodes code e) (hes code e)

theorem report {es : List Event} (hes : uncounted es) : Inv { s with evt := s.evt ++ es } := by
  obtain ⟨hframes, htrigs, hreplies, hcodes⟩ := hes
  refine ⟨h.seqPositive, h.attemptAwaiting, h.lastSeq, h.frames, h.vectors, ?tx, ?data, h.errorCodes_append hcodes⟩
  case tx => rw [framesReported_append, triggersReported_append, hframes, htrigs]; exact h.txReported
  case data => rw [repliesDecoded_append, hreplies]; exact h.dataReported

theorem afterEvent {e : Event} (he : uncounted [e]) : Inv (afterEvent e s) := h.report he

theorem afterError (e : BlockError) : Inv (afterError e s) := h.report (uncounted_error e)

theorem setReply : Inv (setReply s) :=
  ⟨h.seqPositive, h.attemptAwaiting, h.lastSeq, h.frames, h.vectors, h.txReported, h.dataReported, h.errorCodes⟩

theorem afterReply {es : List Event} (hes : uncounted es) : Inv (afterReply es s) := h.setReply.report hes

theorem withQueue (q : List Item) : Inv (withQueue q s) :=
  ⟨h.seqPositive, h.attemptAwaiting, h.lastSeq, h.frames, h.vectors, h.txReported, h.dataReported, h.errorCodes⟩

theorem writeMode (m : Mode) : Inv (writeMode m s) :=
  ⟨h.seqPositive, h.attemptAwaiting, h.lastSeq, h.frames, h.vectors, h.txReported, h.dataReported, h.errorCodes⟩

theorem writeHs {x : HsState} {a : Fin 2} (ha : a ≠ 0 → x = .awaitingReply) : Inv (writeHs x a s) :=
  ⟨h.seqPositive, ha, h.lastSeq, h.frames, h.vectors, h.txReported, h.dataReported, h.errorCodes⟩

/-- RESET starts the counter again, with no number before it. -/
theorem resetRegisters : Inv (resetRegisters s) :=
  ⟨nofun, fun ha => absurd rfl ha, rfl, h.frames, h.vectors, h.txReported, h.dataReported, h.errorCodes⟩

theorem sendTrigger (a : Fin 2) : Inv (sendTrigger a s) := by
  rw [sendTrigger_eq]
  refine ⟨h.seqPositive, fun _ => rfl, h.lastSeq, ?frames, h.vectors, ?tx, ?data, ?codes⟩
  case frames => exact h.frames_append (.inl rfl)
  case tx =>
    simp only [List.length_append, framesReported_append, triggersReported_append, h.txReported]
    rfl
  case data => rw [repliesDecoded_append]; exact h.dataReported
  case codes => exact h.errorCodes_append (codes_of_no_error (List.forall_mem_singleton.2 rfl))

theorem one_le_seq : 1 ≤ s.seq.toNat := Nat.one_le_iff_ne_zero.2 fun h0 => h.seqPositive (BitVec.eq_of_toNat_eq h0)

theorem nextNumber_ne_zero (hs : s.seq ≠ 65535#16) : nextNumber s ≠ 0#16 := by
  have hsucc := toNat_seq_succ s hs
  unfold nextNumber
  split
  · exact h.seqPositive
  · intro h0
    rw [h0] at hsucc
    cases hsucc

/-- The number BUILD allocates is the one just below the new counter, or the new counter itself (rule R57). -/
theorem lastSeqAgrees_afterBuild (cmd : Byte) (p : Buffer) (hs : s.seq ≠ 65535#16) :
    lastSeqAgrees (Machine.afterBuild cmd p s) := by
  have hsucc := toNat_seq_succ s hs
  have hone := h.one_le_seq
  simp only [lastSeqAgrees, afterBuild_lastSeq, afterBuild_params, afterBuild_seq, nextNumber]
  cases s.params.seqOrder with
  | post => exact ⟨hone, hsucc.symm⟩
  | pre => exact ⟨by rw [hsucc]; exact Nat.succ_le_succ hone, rfl⟩

theorem afterBuild {cmd : Byte} {p : Buffer} (hsend : canSend p s) : Inv (afterBuild cmd p s) := by
  have hs : s.seq ≠ 65535#16 := hsend.2
  have hsucc := toNat_seq_succ s hs
  refine ⟨fun h0 => ?seq, h.attemptAwaiting, h.lastSeqAgrees_afterBuild cmd p hs, ?frames, h.vectors, ?tx, ?data, ?codes⟩
  case seq =>
    rw [show s.seq + 1#16 = 0#16 from h0] at hsucc
    cases hsucc
  case frames => exact h.frames_append (.inr ⟨_, cmd, p, h.nextNumber_ne_zero hs, rfl⟩)
  case tx =>
    simp only [afterBuild_tx, afterBuild_evt, List.length_append, framesReported_append, triggersReported_append,
      h.txReported]
    exact Nat.add_right_comm _ _ _
  case data => rw [afterBuild_evt, repliesDecoded_append]; exact h.dataReported
  case codes => exact h.errorCodes_append (codes_of_no_error (List.forall_mem_singleton.2 rfl))

/-- A decoded vector with its event. -/
theorem decoded {v : List Word32} (hv : v.length = 32 ∨ v.length = 63) (info : ReplyInfo) (n : Nat) :
    Inv (emitData v (Machine.afterEvent (.dataDecoded info n) s)) := by
  refine ⟨h.seqPositive, h.attemptAwaiting, h.lastSeq, h.frames, ?vectors, ?tx, ?data, ?codes⟩
  case vectors => exact List.forall_mem_append.2 ⟨h.vectors, List.forall_mem_singleton.2 hv⟩
  case tx =>
    simp only [emitData_tx, emitData_evt, afterEvent_tx, afterEvent_evt, framesReported_append, triggersReported_append,
      h.txReported]
    rfl
  case data =>
    simp only [emitData_data, emitData_evt, afterEvent_data, afterEvent_evt, List.length_append, repliesDecoded_append,
      h.dataReported]
    rfl
  case codes => exact h.errorCodes_append (codes_of_no_error (List.forall_mem_singleton.2 rfl))

end Inv

/-! What every instruction keeps. -/

/-- Every geometry has 32 channels or 63 (rule R82). -/
theorem length_decodeChannels (b : Buffer) (m : AcqMode) :
    (decodeChannels b m).length = 32 ∨ (decodeChannels b m).length = 63 := by
  obtain ⟨hshort, hlong, hcluster, hhit, -⟩ := directGeometriesReadBigEndian b
  cases m with
  | shortPacket => exact .inl hshort
  | longPacket => exact .inl hlong
  | clusterCount => exact .inr hcluster
  | hitCount => exact .inl hhit

/-- Events before others are the same as both reported one after the other. -/
theorem afterReply_append (es : List Event) (e : Event) (s : State) :
    afterReply (es ++ [e]) s = afterEvent e (afterReply es s) := by
  simp [afterReply, afterEvent]

theorem Received.inv {c : RxClass} {b : Buffer} {s t : State} (hr : Received c b s t) (h : Inv s) : Inv t := by
  have noted (info : ReplyInfo) : Inv (afterReply (noteEvents (codeCounts info.cls s) info.ackCode) s) :=
    h.afterReply (uncounted_notes _ _)
  cases hr with
  | unsolicited _ _ => exact h.afterEvent (uncounted_single rfl rfl rfl rfl)
  | ready _ _ => exact (h.writeHs nofun).afterEvent (uncounted_single rfl rfl rfl rfl)
  | abnormal _ a _ => exact (h.writeHs nofun).afterError _
  | dropped e _ => exact h.afterError e
  | rejected r info _ => rw [afterReply_append]; exact (noted info).afterError (.ackRejected r info)
  | acked info _ _ => rw [afterReply_append]; exact (noted info).afterEvent (uncounted_single rfl rfl rfl rfl)
  | decoded m info _ _ => rw [afterReply_append]; exact (noted info).decoded (length_decodeChannels b m) info _

theorem expireWindow_inv {s : State} (h : Inv s) : Inv (expireWindow s) := by
  rcases expireWindow_cases s with ⟨-, -, hsent⟩ | ⟨-, -, hout⟩ | ⟨-, hheld⟩
  · rw [hsent]; exact h.sendTrigger 1
  · rw [hout]; exact (h.writeHs nofun).afterError _
  · rw [hheld]; exact h.afterEvent (uncounted_single rfl rfl rfl rfl)

theorem Effect.inv {i : Instr} {s t : State} (he : Effect i s t) (h : Inv s) : Inv t := by
  cases he with
  | sends _ _ hsent =>
    rcases hsent with ⟨cmd, p, hsend, rfl⟩ | ⟨e, -, rfl⟩
    · exact h.afterBuild hsend
    · exact h.afterError e
  | triggers _ => exact h.sendTrigger 0
  | expires _ => exact expireWindow_inv h
  | refusesMode m _ => exact h.afterError _
  | selects m a _ => exact (h.writeMode _).afterEvent (uncounted_single rfl rfl rfl rfl)
  | reports _ => exact h.afterEvent (uncounted_single rfl rfl rfl rfl)
  | resets _ => exact h.resetRegisters.afterEvent (uncounted_single rfl rfl rfl rfl)
  | sums d _ => exact h.afterEvent (uncounted_single rfl rfl rfl rfl)
  | drops b _ _ => exact h.afterError _
  | receives c b _ _ hr => exact hr.inv h

/-- Settles O51: a step waits, or it is the effect of one instruction on the state without the item taken. -/
theorem stepKeepsTheInvariant : Obligations.StepKeepsTheInvariant := by
  intro s t h hstep
  rcases step_cases hstep with ⟨-, rfl⟩ | ⟨x, rest, i, -, -, hexec⟩
  · exact h
  · exact (effect_of_exec hexec).inv (h.withQueue rest)

/-- Settles O52: nothing was sent, decoded or reported, and the counter is at its start. -/
theorem powerOnHasTheInvariant : Obligations.PowerOnHasTheInvariant := fun _ =>
  ⟨nofun, fun ha => absurd rfl ha, rfl, nofun, nofun, rfl, rfl, nofun⟩

end Sys2Proof.Machine
end

section
/-! PROOFS. Builders and frame rows (rules R51, R57 to R69, log entries 1, 12, 16): a well-formed row runs BUILD on the command
and payload its frame carries. -/

namespace Sys2Proof.Machine

/-! What a row runs. -/

/-- What BUILD does, any instruction does that runs it. -/
theorem build_outcomes {i : Instr} {cmd : Byte} {p : Buffer} {s : State} (hi : exec i s = exec (.build cmd p) s) :
    (canSend p s → exec i s = .next (afterBuild cmd p s)) ∧
    ((∃ m, s.params.maxPayloadLen = some m ∧ m < p.length) →
      exec i s = .next (afterError (.valueOutOfRange .payloadLen p.length) s)) ∧
    ((∀ m, s.params.maxPayloadLen = some m → p.length ≤ m) → s.seq = 65535#16 →
      exec i s = .next (afterError (.seqOverflow 65535#16) s)) := by
  rw [hi]
  exact buildSendsOrReports cmd p s

/-- Settles O10: each of the five is BUILD as it is written. -/
theorem plainBuildersSendTheirFrames : Obligations.PlainBuildersSendTheirFrames := fun _ =>
  ⟨fun _ => build_outcomes rfl, build_outcomes rfl, build_outcomes rfl, fun _ => build_outcomes rfl,
    fun _ => build_outcomes rfl⟩

/-- The fields of TX.CTRLWR are within their bounds, and pack into the bytes the row writes (rules R42, R65). -/
theorem exec_txCtrlwr (seq : Word16) (tc ft : BitVec 2) (sr : BitVec 4) (tse : BitVec 1) (dm wm : BitVec 2) (s : State) :
    exec (.txCtrlwr seq tc ft sr tse dm wm) s = exec (.build 0x04#8 (ctrlBytes tc ft sr tse dm wm)) s := by
  have hpass := buildCtrl_pass tc.toNat ft.toNat sr.toNat tse.toNat dm.toNat wm.toNat s (Nat.le_of_lt_succ tc.isLt)
    (Nat.le_of_lt_succ ft.isLt) (Nat.le_of_lt_succ sr.isLt) (Nat.le_of_lt_succ tse.isLt) (Nat.le_of_lt_succ dm.isLt)
    (Nat.le_of_lt_succ wm.isLt)
  rw [ctrlWord_eq_payloadValue, bytes16_payloadValue (ctrlBytes tc ft sr tse dm wm) rfl] at hpass
  exact congrArg _ hpass

/-- A value builder on a 16-bit value within its bound is BUILD with that value's bytes. -/
theorem buildValue_toNat_pass (cmd : Byte) (f : FieldId) {max : Nat} {v : Word16} (s : State) (h : v.toNat ≤ max) :
    buildValue cmd f max v.toNat s = buildFrame cmd (bytes16 v) s := by
  rw [buildValue_pass cmd f max v.toNat s h, BitVec.ofNat_toNat, BitVec.setWidth_eq]

theorem exec_txSetthr (seq : Word16) {v : Word16} (s : State) (h : v.toNat ≤ 4095) :
    exec (.txSetthr seq v) s = exec (.build 0x05#8 (bytes16 v)) s := congrArg _ (buildValue_toNat_pass _ _ s h)

theorem exec_txSetacq (seq v : Word16) (s : State) : exec (.txSetacq seq v) s = exec (.build 0x06#8 (bytes16 v)) s :=
  congrArg _ (buildValue_toNat_pass _ _ s (Nat.le_of_lt_succ v.isLt))

theorem exec_txSetdac (seq : Word16) {v : Word16} (s : State) (h : v.toNat ≤ 4095) :
    exec (.txSetdac seq v) s = exec (.build 0x07#8 (bytes16 v)) s := congrArg _ (buildValue_toNat_pass _ _ s h)

theorem exec_txSetint (seq v : Word16) (s : State) : exec (.txSetint seq v) s = exec (.build 0x08#8 (bytes16 v)) s :=
  congrArg _ (buildValue_toNat_pass _ _ s (Nat.le_of_lt_succ v.isLt))

/-- Settles O14: each row is BUILD on its frame's command and payload, the two bounded rows once their check passes. -/
theorem frameRowsRunTheirOperation : Obligations.FrameRowsRunTheirOperation := fun seq s =>
  ⟨fun _ _ => build_outcomes rfl, fun _ => build_outcomes rfl, build_outcomes rfl, build_outcomes rfl,
    fun _ => build_outcomes rfl, fun _ => build_outcomes rfl,
    fun tc ft sr tse dm wm => build_outcomes (exec_txCtrlwr seq tc ft sr tse dm wm s),
    fun _ hv => build_outcomes (exec_txSetthr seq s hv), fun v => build_outcomes (exec_txSetacq seq v s),
    fun _ hv => build_outcomes (exec_txSetdac seq s hv), fun v => build_outcomes (exec_txSetint seq v s),
    fun _ hv => ⟨congrArg _ (checked_fail _ _ _ _ s hv), congrArg _ (checked_fail _ _ _ _ s hv)⟩, rfl⟩

/-- A well-formed frame row names one frame, and runs BUILD on that frame's command and payload. -/
theorem exec_frameRow {i : Instr} {f : Buffer} (hi : isFrameRow i = true) (hwf : i.wf = true) (hf : encode i = .frame f)
    (s : State) : ∃ seq cmd p, f = frame seq cmd p ∧ exec i s = exec (.build cmd p) s := by
  cases i with
  | txBuild seq cmd p => cases hf; exact ⟨seq, cmd, p, rfl, rfl⟩
  | txLooptest seq p => cases hf; exact ⟨seq, _, p, rfl, rfl⟩
  | txCtrlrd seq => cases hf; exact ⟨seq, _, _, rfl, rfl⟩
  | txFpgarst seq => cases hf; exact ⟨seq, _, _, rfl, rfl⟩
  | txChthr seq p => cases hf; exact ⟨seq, _, p, rfl, rfl⟩
  | txCntrst seq p => cases hf; exact ⟨seq, _, p, rfl, rfl⟩
  | txCtrlwr seq tc ft sr tse dm wm => cases hf; exact ⟨seq, _, _, rfl, exec_txCtrlwr seq tc ft sr tse dm wm s⟩
  | txSetthr seq v => cases hf; exact ⟨seq, _, _, rfl, exec_txSetthr seq s (of_decide_eq_true hwf)⟩
  | txSetacq seq v => cases hf; exact ⟨seq, _, _, rfl, exec_txSetacq seq v s⟩
  | txSetdac seq v => cases hf; exact ⟨seq, _, _, rfl, exec_txSetdac seq s (of_decide_eq_true hwf)⟩
  | txSetint seq v => cases hf; exact ⟨seq, _, _, rfl, exec_txSetint seq v s⟩
  | _ => cases hi

/-- Settles O15: the row runs BUILD on its frame's command and payload, and BUILD sends them with the row's own number. -/
theorem frameRowSendsItsOwnEncoding : Obligations.FrameRowSendsItsOwnEncoding := by
  intro i f s hi hwf hf hnum hseq hfits
  obtain ⟨seq, cmd, p, rfl, hexec⟩ := exec_frameRow hi hwf hf s
  obtain ⟨-, hnumber, -⟩ := byteAt_frame_header seq cmd p
  have hsend : canSend p s := ⟨fun m hm => by simpa using hfits m hm, hseq⟩
  obtain ⟨hsends, -⟩ := build_outcomes hexec
  refine ⟨_, hsends hsend, ?_⟩
  rw [afterBuild_tx, ← hnum, hnumber]

/-! What a builder sends. -/

/-- A frame's fields are read back from it, so equal frames have equal fields (rule R70). -/
theorem frame_injective {seq seq' : Word16} {cmd cmd' : Byte} {p p' : Buffer} (h : frame seq cmd p = frame seq' cmd' p') :
    seq = seq' ∧ cmd = cmd' ∧ p = p' := by
  obtain ⟨-, hseq, -, hcmd⟩ := byteAt_frame_header seq cmd p
  obtain ⟨-, hseq', -, hcmd'⟩ := byteAt_frame_header seq' cmd' p'
  have hp := slice_frame_payload seq cmd p
  rw [h] at hseq hcmd hp
  exact ⟨hseq.symm.trans hseq', hcmd.symm.trans hcmd', hp.symm.trans (slice_frame_payload seq' cmd' p')⟩

theorem classRow_no_sender (c : RxClass) (b : Buffer) :
    ¬ (isBuilder (classRow c b) = true ∨ isFrameRow (classRow c b) = true) := by
  cases c <;> exact nofun

/-- A builder and a frame row only send, or report an error (rules R51, R115). -/
theorem sendsOrReports_of_exec {i : Instr} {s t : State} (hi : isBuilder i = true ∨ isFrameRow i = true)
    (h : exec i s = .next t) : sendsOrReports s t := by
  cases effect_of_exec h with
  | sends _ _ hsent => exact hsent
  | triggers hi' => rcases hi' with rfl | rfl <;> exact absurd hi nofun
  | expires hi' => subst hi'; exact absurd hi nofun
  | refusesMode _ hi' => subst hi'; exact absurd hi nofun
  | selects _ _ hi' => subst hi'; exact absurd hi nofun
  | reports hi' => subst hi'; exact absurd hi nofun
  | resets hi' => subst hi'; exact absurd hi nofun
  | sums _ hi' => subst hi'; exact absurd hi nofun
  | drops _ hi' _ => subst hi'; exact absurd hi nofun
  | receives c b _ hi' _ =>
    rcases hi' with rfl | ⟨rfl, -⟩
    · exact absurd hi (classRow_no_sender c b)
    · exact absurd hi nofun

/-- Settles O13: with no number left nothing can be sent, and TRIG allocates none. -/
theorem exhaustedSequenceStopsEveryBuilder : Obligations.ExhaustedSequenceStopsEveryBuilder := by
  intro i s hs
  refine ⟨fun hi => ?_, _, rfl, hs, rfl⟩
  obtain ⟨t, ht, -⟩ := exec_effect i s
  rcases sendsOrReports_of_exec hi ht with ⟨cmd, p, hsend, -⟩ | ⟨e, he, rfl⟩
  · exact absurd hs hsend.2
  · exact ⟨e, ht, he.imp_left And.left⟩

/-- Settles O16: the frame's narrowest row names it, and runs BUILD on the fields it was sent with. -/
theorem sentFrameDecodesToItsRow : Obligations.SentFrameDecodesToItsRow := by
  intro i s t f hi hexec htx
  rcases sendsOrReports_of_exec (.inl hi) hexec with ⟨cmd, p, hsend, rfl⟩ | ⟨e, -, rfl⟩
  case inr => simp at htx
  obtain rfl : frame (nextNumber s) cmd p = f := by simpa using htx
  obtain ⟨hwf, henc⟩ := txRow_wf_encode (nextNumber s) cmd p
  have hrow := txRow_isFrameRow (nextNumber s) cmd p
  obtain ⟨seq', cmd', p', hframe, hrun⟩ := exec_frameRow hrow hwf henc s
  obtain ⟨-, rfl, rfl⟩ := frame_injective hframe
  obtain ⟨hsends, -⟩ := build_outcomes hrun
  exact ⟨_, decodeFrame_frame _ cmd p, hrow, hwf, hsends hsend⟩

end Sys2Proof.Machine
end

section
/-! PROOFS. What every instruction keeps, and over runs: the events of a step (rule R115), the sequence counter (rule R71), the
handshake registers (rules R88 to R95), the parameters (rule R22). -/

namespace Sys2Proof.Machine

/-! The events of one instruction. -/

/-- What an instruction reports: one event, after a note at most. -/
theorem Effect.evt {i : Instr} {s t : State} (h : Effect i s t) :
    ∃ notes e, t.evt = s.evt ++ (notes ++ [e]) ∧ ∀ n ∈ notes, isError n = false := by
  have one (e : Event) : ∃ notes e', s.evt ++ [e] = s.evt ++ (notes ++ [e']) ∧ ∀ n ∈ notes, isError n = false :=
    ⟨[], e, rfl, nofun⟩
  cases h with
  | sends _ _ hsent => rcases hsent with ⟨cmd, p, -, rfl⟩ | ⟨e, -, rfl⟩ <;> exact one _
  | triggers _ => exact one _
  | expires _ => rcases expireWindow_cases s with ⟨-, -, h⟩ | ⟨-, -, h⟩ | ⟨-, h⟩ <;> rw [h] <;> exact one _
  | refusesMode _ _ => exact one _
  | selects _ _ _ => exact one _
  | reports _ => exact one _
  | resets _ => exact one _
  | sums _ _ => exact one _
  | drops _ _ _ => exact one _
  | receives c b _ _ hr =>
    cases hr with
    | unsolicited _ _ => exact one _
    | ready _ _ => exact one _
    | abnormal _ _ _ => exact one _
    | dropped _ _ => exact one _
    | rejected r info _ => exact ⟨_, _, rfl, noteEvents_no_error _ _⟩
    | acked info _ _ => exact ⟨_, _, rfl, noteEvents_no_error _ _⟩
    | decoded m info _ _ => exact ⟨_, _, rfl, noteEvents_no_error _ _⟩

/-- Settles O44: the one event an instruction ends with is its only possible error. -/
theorem anErrorIsTheLastEventOfItsStep : Obligations.AnErrorIsTheLastEventOfItsStep := by
  intro i s t h
  obtain ⟨notes, e, hevt, hnotes⟩ := (effect_of_exec h).evt
  refine ⟨_, hevt, ?_⟩
  rw [errorOnlyLast, List.dropLast_concat]
  exact hnotes

/-- Settles O45: every instruction has an effect, and no effect is on the parameters or the queue. -/
theorem everyInstructionCompletes : Obligations.EveryInstructionCompletes := by
  intro i s
  obtain ⟨t, ht, -⟩ := exec_effect i s
  obtain ⟨hqueue, hparams⟩ := exec_frame ht
  exact ⟨t, ht, hparams, hqueue⟩

/-! The sequence counter. -/

/-- The numbers stand, and no frame is reported. -/
def keepsNumbers (s t : State) : Prop :=
  t.seq = s.seq ∧ t.lastSeq = s.lastSeq ∧ framesReported t.evt = framesReported s.evt

theorem keepsNumbers_of_evt {s t : State} {es : List Event} (hseq : t.seq = s.seq) (hlast : t.lastSeq = s.lastSeq)
    (hevt : t.evt = s.evt ++ es) (hes : framesReported es = 0) : keepsNumbers s t :=
  ⟨hseq, hlast, by rw [hevt, framesReported_append, hes, Nat.add_zero]⟩

theorem Received.keepsNumbers {c : RxClass} {b : Buffer} {s t : State} (h : Received c b s t) : keepsNumbers s t := by
  have noted (info : ReplyInfo) {e : Event} (he : isFrameSent e = false) :
      framesReported (noteEvents (codeCounts info.cls s) info.ackCode ++ [e]) = 0 := by
    rw [framesReported_append, framesReported_noteEvents]
    simp [framesReported, he]
  cases h with
  | unsolicited _ _ => exact keepsNumbers_of_evt rfl rfl rfl rfl
  | ready _ _ => exact keepsNumbers_of_evt rfl rfl rfl rfl
  | abnormal _ _ _ => exact keepsNumbers_of_evt rfl rfl rfl rfl
  | dropped _ _ => exact keepsNumbers_of_evt rfl rfl rfl rfl
  | rejected r info _ => exact keepsNumbers_of_evt rfl rfl rfl (noted info rfl)
  | acked info _ _ => exact keepsNumbers_of_evt rfl rfl rfl (noted info rfl)
  | decoded m info _ _ => exact keepsNumbers_of_evt rfl rfl rfl (noted info rfl)

/-- Only a frame that goes out moves the counter (rule R71), RESET apart. -/
theorem Effect.numbers {i : Instr} {s t : State} (h : Effect i s t) (hr : i ≠ .reset) :
    keepsNumbers s t ∨
      ((isBuilder i = true ∨ isFrameRow i = true) ∧ ∃ cmd p, canSend p s ∧ t = afterBuild cmd p s) := by
  cases h with
  | sends _ hi hsent =>
    rcases hsent with hbuilt | ⟨e, -, rfl⟩
    · exact .inr ⟨hi, hbuilt⟩
    · exact .inl (keepsNumbers_of_evt rfl rfl rfl rfl)
  | resets hi => exact absurd hi hr
  | expires _ =>
    rcases expireWindow_cases s with ⟨-, -, h⟩ | ⟨-, -, h⟩ | ⟨-, h⟩ <;> rw [h] <;>
      exact .inl (keepsNumbers_of_evt rfl rfl rfl rfl)
  | receives c b _ _ hr => exact .inl hr.keepsNumbers
  | triggers _ => exact .inl (keepsNumbers_of_evt rfl rfl rfl rfl)
  | refusesMode _ _ => exact .inl (keepsNumbers_of_evt rfl rfl rfl rfl)
  | selects _ _ _ => exact .inl (keepsNumbers_of_evt rfl rfl rfl rfl)
  | reports _ => exact .inl (keepsNumbers_of_evt rfl rfl rfl rfl)
  | sums _ _ => exact .inl (keepsNumbers_of_evt rfl rfl rfl rfl)
  | drops _ _ _ => exact .inl (keepsNumbers_of_evt rfl rfl rfl rfl)

theorem framesReported_afterBuild (cmd : Byte) (p : Buffer) (s : State) :
    framesReported (afterBuild cmd p s).evt = framesReported s.evt + 1 := framesReported_append _ _

/-- The counter and the frames reported go up together (rule R71). -/
def countsFrames (s t : State) : Prop := t.seq.toNat + framesReported s.evt = s.seq.toNat + framesReported t.evt

theorem exec_countsFrames {i : Instr} {s t : State} (h : exec i s = .next t) (hr : i ≠ .reset) : countsFrames s t := by
  rcases (effect_of_exec h).numbers hr with ⟨hseq, -, hframes⟩ | ⟨-, cmd, p, hsend, rfl⟩
  · rw [countsFrames, hseq, hframes]
  · rw [countsFrames, framesReported_afterBuild, afterBuild_seq, toNat_seq_succ s hsend.2]
    omega

/-- Settles O17: an instruction keeps the numbers, or it sent one frame as BUILD does. -/
theorem onlySuccessfulBuildsMoveSeq : Obligations.OnlySuccessfulBuildsMoveSeq := by
  intro i s t h hr
  refine ⟨exec_countsFrames h hr, ?_⟩
  rcases (effect_of_exec h).numbers hr with ⟨hseq, -, hframes⟩ | ⟨hi, cmd, p, -, rfl⟩
  · exact ⟨fun _ _ => ⟨hseq, hframes⟩, fun hmoved => absurd hseq hmoved⟩
  · refine ⟨fun hb hf => ?_, fun _ => ⟨rfl, _, cmd, p, rfl, rfl⟩⟩
    rcases hi with hi | hi
    · exact absurd hi (by simp [hb])
    · exact absurd hi (by simp [hf])

/-! Steps and runs. -/

/-- A step takes the head of the queue, if there is one (rule R31). -/
theorem step_queue {s t : State} (h : step s = .next t) : t.queue = s.queue.drop 1 := by
  rcases step_cases h with ⟨hq, rfl⟩ | ⟨x, rest, i, hq, -, hexec⟩
  · rw [hq]; rfl
  · rw [hq]; exact (exec_frame hexec).1

/-- What all queued items have, those left after a step have. -/
theorem step_queue_forall {P : Item → Prop} {s t : State} (h : step s = .next t) (hq : ∀ x ∈ s.queue, P x) :
    ∀ x ∈ t.queue, P x := by
  rw [step_queue h]
  exact fun x hx => hq x (List.mem_of_mem_drop hx)

/-- An item that is no RESET command carries another instruction. -/
theorem ne_reset_of_item {x : Item} {i : Instr} (h : itemInstr x = .ok i) (hx : isReset x = false) : i ≠ .reset := by
  rcases itemInstr_cases h with ⟨b, -, rfl⟩ | ⟨c, rfl, hc⟩
  · exact nofun
  · obtain ⟨-, hreset, -⟩ := decodeCommand_cases hc
    exact fun hi => absurd (hreset.1 hi) (by simpa [isReset] using hx)

theorem step_countsFrames {s t : State} (h : step s = .next t) (hq : ∀ x ∈ s.queue, isReset x = false) :
    countsFrames s t := by
  rcases step_cases h with ⟨-, rfl⟩ | ⟨x, rest, i, hs, hi, hexec⟩
  · rfl
  · have hreset : i ≠ .reset := ne_reset_of_item hi (hq x (hs ▸ List.mem_cons_self))
    exact (exec_countsFrames hexec hreset : countsFrames (withQueue rest s) t)

theorem run_countsFrames {k : Nat} {s t : State} (hq : ∀ x ∈ s.queue, isReset x = false)
    (h : Host.Core.run core k s = .next t) : countsFrames s t := by
  refine run_induction (fun s t => (∀ x ∈ s.queue, isReset x = false) → countsFrames s t) (fun _ _ => rfl) ?_ k s t h hq
  intro s t u hstep hrest hq
  have h1 := step_countsFrames hstep hq
  have h2 := hrest (step_queue_forall hstep hq)
  unfold countsFrames at *
  omega

/-- Settles O18: over the steps of a run the counts add up; power-on starts the counter at 1 with nothing reported. -/
theorem seqCountsTheFramesOfARun : Obligations.SeqCountsTheFramesOfARun :=
  ⟨fun _ _ _ hq h => run_countsFrames hq h, fun _ _ _ hq h => run_countsFrames hq h⟩

/-! The handshake registers. -/

/-- Settles O23: an effect that writes `HS_STATE` or `HS_ATTEMPT` is one of those named. -/
theorem onlyHandshakeInputsMoveTheHandshake : Obligations.OnlyHandshakeInputsMoveTheHandshake := by
  intro i s t h
  cases effect_of_exec h with
  | sends _ _ hsent => rcases hsent with ⟨cmd, p, -, rfl⟩ | ⟨e, -, rfl⟩ <;> exact .inl ⟨rfl, rfl⟩
  | triggers hi => exact .inr (.inl ⟨hi, rfl, rfl⟩)
  | resets hi => exact .inr (.inr (.inl ⟨hi, rfl, rfl⟩))
  | expires hi =>
    rcases expireWindow_cases s with ⟨hs, ha, hsent⟩ | ⟨hs, ha, hout⟩ | ⟨-, hheld⟩
    · rw [hsent]; exact .inr (.inr (.inr ⟨hs, .inl ⟨hi, ha, rfl, rfl⟩⟩))
    · rw [hout]; exact .inr (.inr (.inr ⟨hs, .inr (.inl ⟨hi, ha, rfl, rfl⟩)⟩))
    · rw [hheld]; exact .inl ⟨rfl, rfl⟩
  | receives c b _ hi hr =>
    cases hr with
    | ready hs hc =>
      subst hc
      exact .inr (.inr (.inr ⟨hs, .inr (.inr (.inl ⟨b, hi, rfl, rfl⟩))⟩))
    | abnormal hs a hc =>
      refine .inr (.inr (.inr ⟨hs, .inr (.inr (.inr ⟨b, ?_, rfl, rfl⟩))⟩))
      rcases hc with rfl | rfl
      · exact hi.imp_right fun hrx => .inr (hrx.imp_right .inl)
      · exact .inr (hi.imp_right fun hrx => hrx.imp_right .inr)
    | unsolicited _ _ => exact .inl ⟨rfl, rfl⟩
    | dropped _ _ => exact .inl ⟨rfl, rfl⟩
    | rejected _ _ _ => exact .inl ⟨rfl, rfl⟩
    | acked _ _ _ => exact .inl ⟨rfl, rfl⟩
    | decoded _ _ _ _ => exact .inl ⟨rfl, rfl⟩
  | refusesMode _ _ => exact .inl ⟨rfl, rfl⟩
  | selects _ _ _ => exact .inl ⟨rfl, rfl⟩
  | reports _ => exact .inl ⟨rfl, rfl⟩
  | sums _ _ => exact .inl ⟨rfl, rfl⟩
  | drops _ _ _ => exact .inl ⟨rfl, rfl⟩

/-- A handshake input and a datagram are no builder, no frame row, no SETMODE and no RESET. -/
theorem handshakeInput_kind {i : Instr} (h : i = .trig ∨ i = .txTrigger ∨ i = .expire ∨ isReceive i = true) :
    ¬ (isBuilder i = true ∨ isFrameRow i = true) ∧ (∀ m, i ≠ .setmode m) ∧ i ≠ .reset := by
  cases i <;> simp_all [isBuilder, isFrameRow, isReceive]

/-- Settles O24: only a sent frame moves the numbers, and only SETMODE and RESET write `MODE`. -/
theorem handshakeInputsKeepTheSequence : Obligations.HandshakeInputsKeepTheSequence := by
  intro i s t hi h
  obtain ⟨hsender, hsetmode, hreset⟩ := handshakeInput_kind hi
  rcases (effect_of_exec h).numbers hreset with ⟨hseq, hlast, -⟩ | ⟨hi', -⟩
  · exact ⟨hseq, hlast, exec_mode h hsetmode hreset⟩
  · exact absurd hi' hsender

/-! The triggers of one handshake. -/

/-- How many triggers EXPIRE may still send in this handshake (rule R95 (b)). -/
def resendsLeft (s : State) : Nat := if s.hsState = .awaitingReply ∧ s.hsAttempt = 0 then 1 else 0

theorem triggerFrames_append_frame (fs : List Buffer) (n : Word16) (cmd : Byte) (p : Buffer) :
    triggerFrames (fs ++ [frame n cmd p]) = triggerFrames fs := by
  simp [triggerFrames, frame_ne_triggerFrame n cmd p]

theorem triggerFrames_append_trigger (fs : List Buffer) : triggerFrames (fs ++ [triggerFrame]) = triggerFrames fs + 1 := by
  simp [triggerFrames]

/-- The triggers sent and still to be sent become no more. -/
def boundsTriggers (s t : State) : Prop := triggerFrames t.tx + resendsLeft t ≤ triggerFrames s.tx + resendsLeft s

/-- With no trigger sent, leaving the handshake registers or ending the handshake leaves no more to be sent. -/
theorem boundsTriggers_of_tx {s t : State} (htx : triggerFrames t.tx = triggerFrames s.tx)
    (hleft : resendsLeft t = resendsLeft s ∨ resendsLeft t = 0) : boundsTriggers s t := by
  unfold boundsTriggers
  omega

theorem expireWindow_boundsTriggers (s : State) : boundsTriggers s (expireWindow s) := by
  rcases expireWindow_cases s with ⟨hs, ha, hsent⟩ | ⟨-, -, hout⟩ | ⟨-, hheld⟩
  · have hs1 : resendsLeft s = 1 := if_pos ⟨hs, ha⟩
    rw [hsent, boundsTriggers, hs1]
    exact (triggerFrames_append_trigger s.tx).le
  · rw [hout]; exact boundsTriggers_of_tx rfl (.inr rfl)
  · rw [hheld]; exact boundsTriggers_of_tx rfl (.inl rfl)

theorem Received.boundsTriggers {c : RxClass} {b : Buffer} {s t : State} (h : Received c b s t) : boundsTriggers s t := by
  refine boundsTriggers_of_tx (congrArg triggerFrames h.tx) ?_
  cases h with
  | ready _ _ => exact .inr rfl
  | abnormal _ _ _ => exact .inr rfl
  | unsolicited _ _ => exact .inl rfl
  | dropped _ _ => exact .inl rfl
  | rejected _ _ _ => exact .inl rfl
  | acked _ _ _ => exact .inl rfl
  | decoded _ _ _ _ => exact .inl rfl

/-- An instruction that starts no handshake sends no trigger but the one EXPIRE had left. -/
theorem exec_boundsTriggers {i : Instr} {s t : State} (h : exec i s = .next t) (htrig : i ≠ .trig)
    (hrow : i ≠ .txTrigger) : boundsTriggers s t := by
  cases effect_of_exec h with
  | sends _ _ hsent =>
    rcases hsent with ⟨cmd, p, -, rfl⟩ | ⟨e, -, rfl⟩
    · exact boundsTriggers_of_tx (triggerFrames_append_frame s.tx _ cmd p) (.inl rfl)
    · exact boundsTriggers_of_tx rfl (.inl rfl)
  | triggers hi => exact (hi.elim htrig hrow).elim
  | expires _ => exact expireWindow_boundsTriggers s
  | receives c b _ _ hr => exact hr.boundsTriggers
  | resets _ => exact boundsTriggers_of_tx rfl (.inr rfl)
  | refusesMode _ _ => exact boundsTriggers_of_tx rfl (.inl rfl)
  | selects _ _ _ => exact boundsTriggers_of_tx rfl (.inl rfl)
  | reports _ => exact boundsTriggers_of_tx rfl (.inl rfl)
  | sums _ _ => exact boundsTriggers_of_tx rfl (.inl rfl)
  | drops _ _ _ => exact boundsTriggers_of_tx rfl (.inl rfl)

/-- An item that is neither TRIG nor RESET carries neither TRIG nor its row. -/
theorem no_trigger_of_item {x : Item} {i : Instr} (h : itemInstr x = .ok i) (hx : startsOrResets x = false) :
    i ≠ .trig ∧ i ≠ .txTrigger := by
  rcases itemInstr_cases h with ⟨b, -, rfl⟩ | ⟨c, rfl, hc⟩
  · exact ⟨nofun, nofun⟩
  · obtain ⟨-, -, htrig, -, -, hrow⟩ := decodeCommand_cases hc
    exact ⟨fun hi => by simp [startsOrResets, htrig.1 hi] at hx, hrow⟩

theorem step_boundsTriggers {s t : State} (h : step s = .next t) (hq : ∀ x ∈ s.queue, startsOrResets x = false) :
    boundsTriggers s t := by
  rcases step_cases h with ⟨-, rfl⟩ | ⟨x, rest, i, hs, hi, hexec⟩
  · exact le_refl _
  · obtain ⟨htrig, hrow⟩ := no_trigger_of_item hi (hq x (hs ▸ List.mem_cons_self))
    exact (exec_boundsTriggers hexec htrig hrow : boundsTriggers (withQueue rest s) t)

theorem run_boundsTriggers {k : Nat} {s t : State} (hq : ∀ x ∈ s.queue, startsOrResets x = false)
    (h : Host.Core.run core k s = .next t) : boundsTriggers s t := by
  refine run_induction (fun s t => (∀ x ∈ s.queue, startsOrResets x = false) → boundsTriggers s t)
    (fun _ _ => le_refl _) ?_ k s t h hq
  intro s t u hstep hrest hq
  exact (hrest (step_queue_forall hstep hq)).trans (step_boundsTriggers hstep hq)

/-- Settles O25: TRIG sends one literal and leaves one to EXPIRE, and nothing in the queue leaves more. -/
theorem oneHandshakeSendsAtMostTwoTriggers : Obligations.OneHandshakeSendsAtMostTwoTriggers := by
  intro k s t u htrig hq hrun
  cases htrig
  have hbound := run_boundsTriggers hq hrun
  have hsent : triggerFrames (sendTrigger 0 s).tx = triggerFrames s.tx + 1 := triggerFrames_append_trigger s.tx
  have hleft : resendsLeft (sendTrigger 0 s) = 1 := rfl
  rw [boundsTriggers, hsent, hleft] at hbound
  omega

end Sys2Proof.Machine
end

section
/-! PROOFS. Received datagrams by their class (rules R72 to R81, R90 to R92, log entry 9). -/

namespace Sys2Proof.Machine

/-! A datagram and its class's row. -/

/-- A datagram of class `c` does what the row of that class does (rule R72). -/
theorem exec_rx_of_class {b : Buffer} {s : State} {c : RxClass} (h : hasClass b s.mode c) :
    exec (.rx b) s = exec (classRow c b) s := by
  rw [exec_rx, receive_of_class h, exec_classRow]

/-- Settles O27: a datagram of the right length has a class, and runs that class's row. -/
theorem datagramRunsItsClassRow : Obligations.DatagramRunsItsClassRow := fun _ s =>
  ⟨fun hl => ⟨_, decodeClass_of_length s.mode hl, exec_rx_of_class ⟨hl, rfl⟩⟩, rfl⟩

/-! Handshake replies. -/

theorem receiveClass_hsReady (b : Buffer) (s : State) : receiveClass .hsReady b s =
    hsReply .hsReady (fun s => emitEvt (.hsReadyToAcquire (byteAt b 5)) (writeHs .readyToAcquire 0 s)) s := rfl

theorem receiveClass_hsZero (b : Buffer) (s : State) : receiveClass .hsZero b s =
    hsReply .hsZero (fun s => raise (.hsAbnormal .allZeros) (writeHs .abnormal 0 s)) s := rfl

theorem receiveClass_hsFail (b : Buffer) (s : State) : receiveClass .hsFail b s =
    hsReply .hsFail (fun s => raise (.hsAbnormal .failSignal) (writeHs .abnormal 0 s)) s := rfl

/-- Settles O21: a handshake reply ends the handshake when one is awaited, and is unsolicited when none is. -/
theorem handshakeRepliesMoveOnlyAwaitingReply : Obligations.HandshakeRepliesMoveOnlyAwaitingReply := by
  intro b s
  have hready : exec (.rxHsReady b) s = _ := exec_classRow .hsReady b s
  have hzero : exec (.rxHsZero b) s = _ := exec_classRow .hsZero b s
  have hfail : exec (.rxHsFail b) s = _ := exec_classRow .hsFail b s
  rw [hready, hzero, hfail, receiveClass_hsReady, receiveClass_hsZero, receiveClass_hsFail]
  refine ⟨fun hs => ?awaiting, fun hs => ?held, rfl⟩
  case awaiting =>
    rw [hsReply_awaiting _ _ s hs, hsReply_awaiting _ _ s hs, hsReply_awaiting _ _ s hs]
    exact ⟨rfl, rfl, rfl⟩
  case held =>
    rw [hsReply_held _ _ s hs, hsReply_held _ _ s hs, hsReply_held _ _ s hs]
    exact ⟨rfl, rfl, rfl⟩

section
variable {b b' : Buffer} (hbytes : ∀ i, i < 10 → byteAt b i = byteAt b' i)
include hbytes

theorem allBytes_congr_ten {a c : Nat} (v : Byte) (hc : c ≤ 10) : allBytes b a c v ↔ allBytes b' a c v := by
  refine forall_congr' fun i => forall_congr' fun _ => forall_congr' fun hi => ?_
  rw [hbytes i (by omega)]

/-- Whether a buffer is a handshake reply, and which, is in its first ten bytes (rule R74). -/
theorem classBytes_congr_ten {m : Mode} {c : RxClass} (hc : c = .hsReady ∨ c = .hsZero ∨ c = .hsFormat) :
    classBytes b m c ↔ classBytes b' m c := by
  have hbyte (a e : Nat) (v : Byte) (he : e ≤ 10) := allBytes_congr_ten hbytes (a := a) v he
  rcases hc with rfl | rfl | rfl <;> simp (disch := decide) only [classBytes, hbyte]

/-- What a handshake reply does is in its first ten bytes: the status byte, or the bytes reported (rules R90, R91). -/
theorem receiveClass_congr_ten {c : RxClass} (hl : b.length = 138) (hl' : b'.length = 138)
    (hc : c = .hsReady ∨ c = .hsZero ∨ c = .hsFormat) (s : State) : receiveClass c b s = receiveClass c b' s := by
  rcases hc with rfl | rfl | rfl
  · rw [receiveClass, receiveClass, hsReadyReply, hsReadyReply, hbytes 5 (by decide)]
  · rfl
  · rw [receiveClass, receiveClass, slice_congr b b' 5 10 (by omega) (by omega) fun i _ hi => hbytes i hi]

end

/-- A buffer whose first five bytes are 0x11 is a handshake reply (rule R74). -/
theorem handshakeClass_of_ones {b : Buffer} (m : Mode) (hl : b.length = 138) (hones : allBytes b 0 5 0x11#8) :
    classify b m = .hsReady ∨ classify b m = .hsZero ∨ classify b m = .hsFormat := by
  by_cases hzero : allBytes b 5 10 0x00#8
  · exact .inr (.inl (classify_of_classBytes hl ⟨hones, hzero⟩))
  · by_cases hready : allBytes b 5 10 0x22#8
    · exact .inl (classify_of_classBytes hl ⟨hones, hready⟩)
    · exact .inr (.inr (classify_of_classBytes hl ⟨hones, hzero, hready⟩))

/-- Settles O29: both buffers have the one class, and its processing reads the first ten bytes only. -/
theorem handshakeReplyIsItsFirstTenBytes : Obligations.HandshakeReplyIsItsFirstTenBytes := by
  intro b b' s hl hl' hbytes hones
  have hc := handshakeClass_of_ones s.mode hl hones
  have hclass : hasClass b s.mode (classify b s.mode) := ⟨hl, rfl⟩
  have hclass' : hasClass b' s.mode (classify b s.mode) :=
    ⟨hl', classify_of_classBytes hl' ((classBytes_congr_ten hbytes hc).1 (classBytes_classify s.mode hl))⟩
  rw [exec_rx, exec_rx, receive_of_class hclass, receive_of_class hclass', receiveClass_congr_ten hbytes hl hl' hc]

/-! EB90 replies. -/

/-- The data classes are processed alike, each with the offset of its CRC field (rule R78). -/
theorem receiveClass_of_data {c : RxClass} (hc : isDataClass c = true) (b : Buffer) (s : State) :
    receiveClass c b s = eb90Data c b (crcOffset c) s := by
  cases c with
  | dataShort => rfl
  | dataZero => rfl
  | dataFull => rfl
  | _ => cases hc

theorem eb90Data_of_unset {s : State} (hm : s.mode = .unset) (c : RxClass) (b : Buffer) (k : Nat) :
    eb90Data c b k s = afterError .modeUnset s := by
  rw [eb90Data, hm]; rfl

theorem eb90Data_of_active {s : State} {m : AcqMode} (hm : s.mode = .active m) (c : RxClass) (b : Buffer) (k : Nat) :
    eb90Data c b k s = eb90Reply (replyInfo c b k)
      (fun s => emitEvt (.dataDecoded (replyInfo c b k) (decodeChannels b m).length) (emitData (decodeChannels b m) s)) s := by
  rw [eb90Data, hm]

/-- An EB90 reply past the mode check, whatever it does once accepted. -/
theorem eb90Reply_of_receive {c : RxClass} {b : Buffer} {s : State} (hp : passesModeCheck c s.mode) :
    ∃ accept, receiveClass c b s = eb90Reply (replyInfo c b (crcOffset c)) accept s ∧
      (c = .ack → ∀ t, accept t = afterEvent (.ackAccepted (replyInfo c b (crcOffset c))) t) ∧
      (c ≠ .ack → ∀ m, s.mode = .active m → ∀ t, accept t = emitData (decodeChannels b m)
        (afterEvent (.dataDecoded (replyInfo c b (crcOffset c)) (decodeChannels b m).length) t)) := by
  by_cases hack : c = .ack
  · subst hack
    exact ⟨_, rfl, fun _ _ => rfl, fun h => absurd rfl h⟩
  · rcases hp with hp | ⟨hdata, hmode⟩
    · exact absurd hp hack
    · cases hm : s.mode with
      | unset => exact absurd hm hmode
      | active m =>
        refine ⟨_, (receiveClass_of_data hdata b s).trans (eb90Data_of_active hm c b _), fun h => absurd h hack, ?_⟩
        rintro - m' hm' t
        cases hm'
        rfl

/-- Settles O31: the mode check, then the outcomes of a reply's checks. -/
theorem eb90ReplyOutcomes : Obligations.Eb90ReplyOutcomes := by
  intro c b s hc k info notes codeFails
  refine ⟨exec_rx_of_class, fun hack hm => ?unset, fun hmode => ?checks⟩
  case unset =>
    have hdata : isDataClass c = true := hc.resolve_left hack
    rw [exec_classRow, receiveClass_of_data hdata, eb90Data_of_unset hm]
  case checks =>
    have hp : passesModeCheck c s.mode := by
      by_cases hack : c = .ack
      · exact .inl hack
      · exact .inr ⟨hc.resolve_left hack, hmode.resolve_left hack⟩
    obtain ⟨accept, hreply, hacked, hdecoded⟩ := eb90Reply_of_receive (b := b) hp
    obtain ⟨hcode, hcrc, hseq, haccept⟩ := eb90Reply_outcomes info accept s
    have hexec {t : State} (h : eb90Reply info accept s = t) : exec (classRow c b) s = .next t := by
      rw [exec_classRow, hreply]
      exact congrArg _ h
    refine ⟨fun h => hexec (hcode h), fun h1 h => hexec (hcrc h1 h), fun h1 h2 h => hexec (hseq h1 h2 h),
      fun h1 h2 h3 hack => hexec ?_, fun m h1 h2 h3 hack hm => hexec ?_⟩
    · rw [haccept h1 h2 h3, hacked hack, ← afterReply_append]; rfl
    · rw [haccept h1 h2 h3, hdecoded hack m hm, ← afterReply_append]; rfl

/-! The CRC check. -/

/-- The CRC field of an all-zero-tail reply is zero. -/
theorem be16_of_zeros {b : Buffer} {i : Nat} (h0 : byteAt b i = 0x00#8) (h1 : byteAt b (i + 1) = 0x00#8) :
    be16 b i = 0x0000#16 := by
  rw [be16, h0, h1]; rfl

theorem zeroTail_of_class {b : Buffer} {m : Mode} (h : hasClass b m .dataZero) : allBytes b 9 138 0x00#8 := by
  obtain ⟨-, htail⟩ := (classify_eq_iff h.1 .dataZero).1 h.2
  exact htail

/-- Settles O34: the CRC field is zero, so the check fails unless the ack code was rejected before it. -/
theorem strictCrcRejectsZeroTail : Obligations.StrictCrcRejectsZeroTail := by
  intro b s hclass hmode hcheck hcrc
  have htail := zeroTail_of_class hclass
  have hfield : be16 b 136 = 0x0000#16 := be16_of_zeros (htail 136 (by decide) (by decide)) (htail 137 (by decide) (by decide))
  obtain ⟨hrow, -, hchecks⟩ := eb90ReplyOutcomes .dataZero b s (.inr rfl)
  obtain ⟨hcode, hcrcOut, -⟩ := hchecks (.inr hmode)
  by_cases hfails : codeCounts .dataZero s = true ∧ ackVerdict (byteAt b 5) = .rejected
  · exact ⟨_, [], .code, replyInfo .dataZero b 136, (hrow hclass).trans (hcode hfails), rfl,
      by simp [replyInfo, crcOffset], hfield, fun _ => rfl, absurd hfails⟩
  · have hcrcFails : be16 b 136 ≠ crc16 (slice b 2 136) := hfield ▸ hcrc.symm
    exact ⟨_, noteEvents (codeCounts .dataZero s) (byteAt b 5), .crc, replyInfo .dataZero b 136,
      (hrow hclass).trans (hcrcOut hfails ⟨hcheck, hcrcFails⟩), rfl, by simp [replyInfo, crcOffset], hfield,
      fun h => absurd h hfails, fun _ => rfl⟩

/-! The echo. -/

/-- `s` with other numbers sent before. -/
def withNumbers (n : Word16) (l : Option Word16) (s : State) : State := { s with seq := n, lastSeq := l }

section
variable (n : Word16) (l : Option Word16)

theorem hsReply_withNumbers (c : RxClass) {k : State → State} (hk : ∀ s, k (withNumbers n l s) = withNumbers n l (k s))
    (s : State) : hsReply c k (withNumbers n l s) = withNumbers n l (hsReply c k s) := by
  by_cases hs : s.hsState = .awaitingReply
  · rw [hsReply_awaiting c k s hs, hsReply_awaiting c k (withNumbers n l s) hs, hk]
  · rw [hsReply_held c k s hs, hsReply_held c k (withNumbers n l s) hs]
    rfl

theorem rejection_withNumbers (info : ReplyInfo) {s : State} (hecho : s.params.seqEchoCheck = false) :
    rejection info (withNumbers n l s) = rejection info s := by
  have hecho' : (withNumbers n l s).params.seqEchoCheck = false := hecho
  simp only [rejection, hecho, hecho', Bool.false_eq_true, false_and, if_false]
  rfl

theorem noteAck_withNumbers (info : ReplyInfo) (s : State) :
    noteAck info (setReply (withNumbers n l s)) = withNumbers n l (noteAck info (setReply s)) := by
  rw [noteAck_eq, noteAck_eq]
  rfl

/-- With the echo check off no check of a reply reads the numbers (rule R80). -/
theorem eb90Reply_withNumbers (info : ReplyInfo) {k : State → State}
    (hk : ∀ s, k (withNumbers n l s) = withNumbers n l (k s)) {s : State} (hecho : s.params.seqEchoCheck = false) :
    eb90Reply info k (withNumbers n l s) = withNumbers n l (eb90Reply info k s) := by
  unfold eb90Reply
  rw [rejection_withNumbers n l info hecho, noteAck_withNumbers]
  cases rejection info s with
  | none => exact hk _
  | some r => rfl

theorem receiveClass_withNumbers (c : RxClass) (b : Buffer) {s : State} (hecho : s.params.seqEchoCheck = false) :
    receiveClass c b (withNumbers n l s) = withNumbers n l (receiveClass c b s) := by
  have hdata (hc : isDataClass c = true) :
      receiveClass c b (withNumbers n l s) = withNumbers n l (receiveClass c b s) := by
    rw [receiveClass_of_data hc, receiveClass_of_data hc]
    cases hm : s.mode with
    | unset => rw [eb90Data_of_unset hm, eb90Data_of_unset (s := withNumbers n l s) hm]; rfl
    | active m =>
      rw [eb90Data_of_active hm, eb90Data_of_active (s := withNumbers n l s) hm]
      exact eb90Reply_withNumbers n l _ (fun _ => by rfl) hecho
  cases c with
  | hsReady =>
    rw [receiveClass_hsReady, receiveClass_hsReady]
    exact hsReply_withNumbers n l _ (fun _ => by rfl) s
  | hsZero =>
    rw [receiveClass_hsZero, receiveClass_hsZero]
    exact hsReply_withNumbers n l _ (fun _ => by rfl) s
  | hsFail =>
    rw [receiveClass_hsFail, receiveClass_hsFail]
    exact hsReply_withNumbers n l _ (fun _ => by rfl) s
  | hsFormat => rfl
  | malformed => rfl
  | ack => exact eb90Reply_withNumbers n l _ (fun _ => by rfl) hecho
  | dataShort => exact hdata rfl
  | dataZero => exact hdata rfl
  | dataFull => exact hdata rfl

theorem receive_withNumbers (b : Buffer) {s : State} (hecho : s.params.seqEchoCheck = false) :
    receive b (withNumbers n l s) = withNumbers n l (receive b s) := by
  by_cases hl : b.length = 138
  · rw [receive_of_class (s := s) ⟨hl, rfl⟩, receive_of_class (s := withNumbers n l s) ⟨hl, rfl⟩]
    exact receiveClass_withNumbers n l _ b hecho
  · rw [receive_of_length_ne hl, receive_of_length_ne hl]
    rfl

end

/-- Settles O33: with the check off, receiving commutes with changing the numbers. -/
theorem echoIsReportedNotInterpreted : Obligations.EchoIsReportedNotInterpreted := by
  intro b s t n l hecho h
  rw [exec_rx] at h
  cases h
  exact congrArg _ (receive_withNumbers n l b hecho)

/-! The channel decoder. -/

section
variable {b b' : Buffer} {n : Nat} (hbytes : ∀ i, 8 ≤ i → i < n → byteAt b i = byteAt b' i)
include hbytes

theorem be16_congr {i : Nat} (hlo : 8 ≤ i) (hhi : i + 1 < n) : be16 b i = be16 b' i := by
  rw [be16, be16, hbytes i hlo (by omega), hbytes (i + 1) (by omega) hhi]

theorem be32_congr {i : Nat} (hlo : 8 ≤ i) (hhi : i + 3 < n) : be32 b i = be32 b' i := by
  rw [be32, be32, hbytes i hlo (by omega), hbytes (i + 1) (by omega) (by omega), hbytes (i + 2) (by omega) (by omega),
    hbytes (i + 3) (by omega) hhi]

/-- The first `k` two-byte counts are in the bytes below `8 + 2 * k` (rules R83, R85). -/
theorem map_be16_congr {k : Nat} (hk : 8 + 2 * k ≤ n) :
    (List.range k).map (fun j => (be16 b (8 + 2 * j)).zeroExtend 32) =
      (List.range k).map fun j => (be16 b' (8 + 2 * j)).zeroExtend 32 := by
  refine List.map_congr_left fun j hj => ?_
  have hlt := List.mem_range.1 hj
  rw [be16_congr hbytes (by omega) (by omega)]

/-- The first `k` four-byte words are in the bytes below `8 + 4 * k` (rules R84, R86). -/
theorem map_be32_congr {k : Nat} (hk : 8 + 4 * k ≤ n) :
    (List.range k).map (fun j => be32 b (8 + 4 * j)) = (List.range k).map fun j => be32 b' (8 + 4 * j) := by
  refine List.map_congr_left fun j hj => ?_
  have hlt := List.mem_range.1 hj
  rw [be32_congr hbytes (by omega) (by omega)]

end

/-- Settles O37: each geometry is built from counts that lie in its bytes. -/
theorem decoderReadsOnlyItsBytes : Obligations.DecoderReadsOnlyItsBytes := by
  intro b b' n hbytes
  refine ⟨fun hn => map_be16_congr hbytes hn, fun hn => ?hit, fun hn => map_be32_congr hbytes hn,
    fun hn => map_be16_congr hbytes hn⟩
  case hit =>
    have hwords : hitWords b = hitWords b' := map_be32_congr hbytes hn
    rw [decodeChannels, decodeChannels, decodeHit, decodeHit, hwords]

theorem be32_of_zeros {b : Buffer} {i : Nat} (h1 : byteAt b (i + 1) = 0x00#8) (h2 : byteAt b (i + 2) = 0x00#8)
    (h3 : byteAt b (i + 3) = 0x00#8) : be32 b i = (byteAt b i).zeroExtend 32 <<< 24 := by
  apply BitVec.eq_of_toNat_eq
  have := (byteAt b i).isLt
  rw [toNat_be32, h1, h2, h3]
  simp [BitVec.toNat_shiftLeft, Nat.shiftLeft_eq]
  omega

/-- Settles O38: the tail holds all the bytes of channels 1 to 31 and the last three of channel 0. -/
theorem zeroTailIsChannelZero : Obligations.ZeroTailIsChannelZero := by
  intro b m hclass
  have htail := zeroTail_of_class hclass
  have hzero (i : Nat) (hlo : 9 ≤ i) (hhi : i + 3 < 138) : be32 b i = 0#32 := by
    rw [be32_of_zeros (htail (i + 1) (by omega) (by omega)) (htail (i + 2) (by omega) (by omega))
      (htail (i + 3) (by omega) hhi), htail i hlo (by omega)]
    rfl
  have hfirst : be32 b 8 = (byteAt b 8).zeroExtend 32 <<< 24 :=
    be32_of_zeros (htail 9 (by decide) (by decide)) (htail 10 (by decide) (by decide)) (htail 11 (by decide) (by decide))
  rw [decodeChannels, decodeLong, List.range_succ_eq_map, List.map_cons, List.map_map]
  refine congrArg₂ _ hfirst (List.eq_replicate_iff.2 ⟨by simp, fun v hv => ?_⟩)
  obtain ⟨j, hj, rfl⟩ := List.mem_map.1 hv
  have hlt := List.mem_range.1 hj
  exact hzero (8 + 4 * (j + 1)) (by omega) (by omega)

end Sys2Proof.Machine
end

section
/-! PROOFS. The inbound queue and the step (rules R30 to R32, R49), runs, and the state a run starts from (rule R122). -/

namespace Sys2Proof.Machine

/-! One step. -/

/-- The head of the queue is taken and its instruction runs (rule R31). -/
theorem step_cons {x : Item} {rest : List Item} {i : Instr} {s : State} (hq : s.queue = x :: rest)
    (hi : itemInstr x = .ok i) : step s = exec i (withQueue rest s) := by
  simp only [step, hq, hi]

theorem itemInstr_of_decodeItem {x : Item} {i : Instr} (h : decodeItem x = .ok i) : itemInstr x = .ok i := by
  cases x with
  | rx b => cases h; rfl
  | cmd c => simp only [itemInstr, h]

/-- A datagram runs the class row it decodes to in the state's mode. -/
theorem exec_rx_of_decodeClass {b : Buffer} {s : State} {i : Instr} (h : decodeClass s.mode b = .ok i) :
    exec (.rx b) s = exec i s := by
  obtain ⟨hl, rfl⟩ := decodeClass_cases h
  exact exec_rx_of_class ⟨hl, rfl⟩

/-- The queue item of a well-formed instruction carries one that does the same: the instruction itself, the command that sends
a row's frame (log entry 1), or the datagram of a class row (log entry 9). -/
theorem exec_queueItem (i : Instr) (s : State) (hwf : i.wf = true) (hmode : i.modeOk s.mode = true) :
    ∃ j, itemInstr (queueItem i) = .ok j ∧ exec j s = exec i s := by
  have hdecode := decodeOfEncode i s.mode hwf hmode
  cases i with
  | rxHsZero b => exact ⟨_, rfl, exec_rx_of_decodeClass hdecode⟩
  | rxHsReady b => exact ⟨_, rfl, exec_rx_of_decodeClass hdecode⟩
  | rxHsFormat b => exact ⟨_, rfl, exec_rx_of_decodeClass hdecode⟩
  | rxHsFail b => exact ⟨_, rfl, exec_rx_of_decodeClass hdecode⟩
  | rxDataZero b => exact ⟨_, rfl, exec_rx_of_decodeClass hdecode⟩
  | rxAck b => exact ⟨_, rfl, exec_rx_of_decodeClass hdecode⟩
  | rxDataShort b => exact ⟨_, rfl, exec_rx_of_decodeClass hdecode⟩
  | rxDataFull b => exact ⟨_, rfl, exec_rx_of_decodeClass hdecode⟩
  | rxMalformed b => exact ⟨_, rfl, exec_rx_of_decodeClass hdecode⟩
  | _ => exact ⟨_, rfl, rfl⟩

/-- Settles O46: the item's instruction runs, and it does what the instruction it stands for does. -/
theorem stepRunsTheDecodedInstruction : Obligations.StepRunsTheDecodedInstruction := by
  refine ⟨fun x rest i s hq hi => step_cons hq (itemInstr_of_decodeItem hi), fun i rest s hwf hmode hq => ?_⟩
  obtain ⟨j, hj, hexec⟩ := exec_queueItem i (withQueue rest s) hwf hmode
  exact (step_cons hq hj).trans hexec

/-- Rule R49's table ends at 0x11. -/
theorem decodeCommand_unknown {c : Command} (h : c.op.toNat = 0 ∨ 0x11 < c.op.toNat) :
    decodeCommand c = .error .unknownOperation := by
  unfold decodeCommand
  rcases h with h | h
  · rw [h]; rfl
  · obtain ⟨n, hn⟩ : ∃ n, c.op.toNat = n + 0x12 := ⟨_, (Nat.sub_add_cancel h).symm⟩
    rw [hn]; rfl

/-- A command that does not decode is refused, by the decoder's reason (rule R49). -/
theorem step_refused {c : Command} {rest : List Item} {s : State} {e : DecodeError} (hq : s.queue = .cmd c :: rest)
    (hc : decodeCommand c = .error e) : step s = .refused (refusalOf c e) := by
  simp only [step, hq, itemInstr, decodeItem, hc]

/-- Settles O47: no item, no operation of that number, or not its operands. -/
theorem stepWaitsOrRefuses : Obligations.StepWaitsOrRefuses := by
  refine ⟨fun s hq => ?waits, fun c rest s hq hop => step_refused hq (decodeCommand_unknown hop),
    fun c rest s hq hc => step_refused hq hc⟩
  case waits => rw [step, hq]

/-! Arrivals. -/

theorem datagramCount_eq (q : List Item) : datagramCount q = (q.filter isDatagram).length := by
  induction q with
  | nil => rfl
  | cons x q ih =>
    rw [datagramCount, ih, List.filter_cons]
    cases isDatagram x
    · exact Nat.zero_add _
    · exact Nat.add_comm _ _

/-- The queue is full when it holds `RXQ_DEPTH` datagrams (rule R32). -/
theorem queueFull_iff (s : State) :
    queueFull s = true ↔ ∃ d, s.params.rxqDepth = some d ∧ d ≤ (s.queue.filter isDatagram).length := by
  unfold queueFull
  cases s.params.rxqDepth with
  | none => simp
  | some d => simp [datagramCount_eq]

theorem arriveDatagram_of_full {s : State} (b : Buffer) (h : queueFull s = true) : arriveDatagram b s = s := if_pos h

theorem arriveDatagram_of_room {s : State} (b : Buffer) (h : ¬ queueFull s = true) :
    arriveDatagram b s = { s with queue := s.queue ++ [.rx b] } := if_neg h

/-- Into an unbounded queue every item goes (rule R32). -/
theorem arrive_of_unbounded {s : State} (x : Item) (h : s.params.rxqDepth = none) :
    arrive x s = { s with queue := s.queue ++ [x] } := by
  cases x with
  | cmd c => rfl
  | rx b => exact arriveDatagram_of_room b (by simp [queueFull_iff, h])

theorem arriveAll_of_unbounded (xs : List Item) {s : State} (h : s.params.rxqDepth = none) :
    xs.foldl (fun t x => arrive x t) s = { s with queue := s.queue ++ xs } := by
  induction xs generalizing s with
  | nil => simp
  | cons x xs ih =>
    rw [List.foldl_cons, arrive_of_unbounded x h, ih]
    · simp
    · exact h

/-- Settles O53: whether the queue is full decides about a datagram, and about no command. -/
theorem arrivalsQueueInOrder : Obligations.ArrivalsQueueInOrder := by
  refine ⟨fun _ _ => rfl, fun b s hroom => arriveDatagram_of_room b ?room,
    fun b s hfull => arriveDatagram_of_full b ((queueFull_iff s).2 hfull), fun xs s h => arriveAll_of_unbounded xs h⟩
  case room =>
    rw [queueFull_iff]
    rintro ⟨d, hd, hle⟩
    exact absurd (hroom d hd) (Nat.not_lt.2 hle)

/-! Runs. -/

theorem step_of_runnable {s : State} (h : runnable s) : ∃ t, step s = .next t := by
  cases hq : s.queue with
  | nil => exact ⟨s, stepWaitsOrRefuses.1 s hq⟩
  | cons x rest =>
    obtain ⟨i, hi⟩ := h x (hq ▸ List.mem_cons_self)
    obtain ⟨t, ht, -⟩ := exec_effect i (withQueue rest s)
    exact ⟨t, (step_cons hq hi).trans ht⟩

theorem run_succ_of_step {s u : State} (h : step s = .next u) (k : Nat) :
    Host.Core.run core (k + 1) s = Host.Core.run core k u := by
  have hcore : core.step s = .next u := h
  simp only [Host.Core.run, hcore]

/-- A run's first step, and the rest of it. -/
theorem run_succ_cases {k : Nat} {s t : State} (h : Host.Core.run core (k + 1) s = .next t) :
    ∃ u, step s = .next u ∧ Host.Core.run core k u = .next t := by
  simp only [Host.Core.run] at h
  split at h
  · next u hu => exact ⟨u, hu, h⟩
  · cases h
  · cases h

theorem run_of_runnable (k : Nat) {s : State} (h : runnable s) : ∃ t : State, Host.Core.run core k s = .next t := by
  induction k generalizing s with
  | zero => exact ⟨s, rfl⟩
  | succ k ih =>
    obtain ⟨u, hu⟩ := step_of_runnable h
    rw [run_succ_of_step hu]
    exact ih (step_queue_forall hu h)

theorem run_queue (k : Nat) {s t : State} (h : Host.Core.run core k s = .next t) : t.queue = s.queue.drop k := by
  induction k generalizing s with
  | zero => cases h; rfl
  | succ k ih =>
    obtain ⟨u, hu, hrest⟩ := run_succ_cases h
    rw [ih hrest, step_queue hu, List.drop_drop, Nat.add_comm]

/-- Settles O54: what is queued stays runnable, and each step takes one item. -/
theorem runsTakeItemsInOrder : Obligations.RunsTakeItemsInOrder :=
  ⟨fun k _ h => run_of_runnable k h, fun k _ _ h => run_queue k h⟩

/-! Power-on. -/

/-- Settles O42: the power-on state as it is written, and RESET's registers, which are that state's. -/
theorem powerOnState : Obligations.PowerOnState := ⟨rfl, fun s => ⟨_, exec_reset s, rfl⟩⟩

end Sys2Proof.Machine
end

section
/-! PROOFS. The host's retry and handshake (rules R101, R102, log entry 13) where nothing happens around its operations. -/

namespace Sys2Proof.Machine

/-! The handshake no reply answers. -/

/-- Nothing is queued, and nothing is to happen around the host's operations. -/
structure Quiet (h : HostRun) : Prop where
  queue : h.block.queue = []
  gaps : h.gaps = []

/-- A run of the host at its start, with no gap and no campaign. -/
def startRun (s : State) (script : List Happening) : HostRun :=
  { block := s, script := script, gaps := [], campaign := none, lines := [] }

/-- The host after the end of a wait of length `w`: STAT was read (rule R135), and `rest` is still to happen. -/
def afterWait (w : Nat) (rest : List Happening) (h : HostRun) : HostRun :=
  { h with block := afterEvent (.status (statusOf h.block)) h.block, script := rest, lines := h.lines ++ [.waited w] }

section
variable {h : HostRun} (hquiet : Quiet h)
include hquiet

theorem Quiet.afterWait (w : Nat) (rest : List Happening) : Quiet (afterWait w rest h) :=
  ⟨hquiet.queue, hquiet.gaps⟩

theorem wait_silent {w : Nat} {stop : State → Bool} {rest : List Happening} (hscript : h.script = .elapses :: rest)
    (hstop : stop h.block = false) : wait w stop h = (true, Machine.afterWait w rest h) :=
  wait_elapses hquiet.queue hquiet.gaps hscript hstop

theorem issue_trig : (issue .trig h).2 = { h with block := sendTrigger 0 h.block } := by
  rw [issue_eq (.inr (.inl rfl)) hquiet.queue hquiet.gaps [_] rfl rfl]
  simp [errorOf]

/-- EXPIRE's first trigger in AwaitingReply (rule R93). -/
theorem issue_expire_first (hs : h.block.hsState = .awaitingReply) (ha : h.block.hsAttempt = 0) :
    (issue .expire h).2 = { h with block := sendTrigger 1 h.block } := by
  have he : exec .expire h.block = .next (sendTrigger 1 h.block) := congrArg _ (expireWindow_first _ hs ha)
  rw [issue_eq (.inr (.inr (.inl rfl))) hquiet.queue hquiet.gaps [_] he rfl]
  simp [errorOf]

/-- EXPIRE after the second trigger is the timeout, which the console is told (rules R93, R108). -/
theorem issue_expire_second (hs : h.block.hsState = .awaitingReply) (ha : h.block.hsAttempt ≠ 0) :
    (issue .expire h).2 = { h with
      block := afterError .hsTimeout (writeHs .idle 0 h.block), lines := h.lines ++ [.blockError .hsTimeout] } := by
  have he : exec .expire h.block = .next (afterError .hsTimeout (writeHs .idle 0 h.block)) :=
    congrArg _ (expireWindow_second _ hs ha)
  rw [issue_eq (.inr (.inr (.inl rfl))) hquiet.queue hquiet.gaps [_] he rfl]
  simp [errorOf]

/-- A silent wait of the handshake ends with EXPIRE. -/
theorem handshakeLoop_silent (hp : HostParams) (n : Nat) {rest : List Happening} (hscript : h.script = .elapses :: rest)
    (hs : h.block.hsState = .awaitingReply) :
    handshakeLoop hp (n + 1) h = handshakeLoop hp n (issue .expire (Machine.afterWait hp.hsWindow rest h)).2 := by
  have hover : handshakeOver h.block = false := by rw [handshakeOver, hs]; rfl
  have hover' : handshakeOver (Machine.afterWait hp.hsWindow rest h).block = false := hover
  rw [handshakeLoop, wait_silent hquiet hscript hover]
  simp only [hover', Bool.false_eq_true, if_false]

/-- The first silent wait ends with the trigger sent again. -/
theorem handshakeLoop_resends (hp : HostParams) (n : Nat) {rest : List Happening} (hscript : h.script = .elapses :: rest)
    (hs : h.block.hsState = .awaitingReply) (ha : h.block.hsAttempt = 0) :
    ∃ g, handshakeLoop hp (n + 1) h = handshakeLoop hp n g ∧ Quiet g ∧ g.script = rest ∧
      g.block.hsState = .awaitingReply ∧ g.block.hsAttempt = 1 ∧ g.block.tx = h.block.tx ++ [triggerFrame] ∧
      g.block.seq = h.block.seq := by
  have hwaited := hquiet.afterWait hp.hsWindow rest
  exact ⟨_, (handshakeLoop_silent hquiet hp n hscript hs).trans (congrArg _ (issue_expire_first hwaited hs ha)),
    ⟨hquiet.queue, hquiet.gaps⟩, rfl, rfl, rfl, rfl, rfl⟩

/-- The second silent wait ends the handshake. -/
theorem handshakeLoop_times_out (hp : HostParams) (n : Nat) {rest : List Happening} (hscript : h.script = .elapses :: rest)
    (hs : h.block.hsState = .awaitingReply) (ha : h.block.hsAttempt ≠ 0) :
    ∃ g, handshakeLoop hp (n + 1) h = handshakeLoop hp n g ∧ g.script = rest ∧ g.block.hsState = .idle ∧
      g.block.tx = h.block.tx ∧ g.block.seq = h.block.seq := by
  have hwaited := hquiet.afterWait hp.hsWindow rest
  exact ⟨_, (handshakeLoop_silent hquiet hp n hscript hs).trans (congrArg _ (issue_expire_second hwaited hs ha)),
    rfl, rfl, rfl, rfl⟩

/-- TRIG, then the loop (rule R102). -/
theorem runHandshake_triggers (hp : HostParams) :
    runHandshake hp h = handshakeLoop hp 2 { h with block := sendTrigger 0 h.block } := by
  rw [runHandshake, issue_trig hquiet]

end

/-- Settles O57: TRIG sends the literal, the first silent wait sends it again, the second ends in Idle. -/
theorem silentHandshakeEndsIdle : Obligations.SilentHandshakeEndsIdle := by
  intro hp rest s hq
  have hstart : Quiet (startRun s (.elapses :: .elapses :: rest)) := ⟨hq, rfl⟩
  have htriggered : Quiet (startRun (sendTrigger 0 s) (.elapses :: .elapses :: rest)) := ⟨hq, rfl⟩
  obtain ⟨g, hresends, hquiet, hscript, hs, ha, htx, hseq⟩ := handshakeLoop_resends htriggered hp 1 rfl rfl rfl
  obtain ⟨g', hout, hrest, hidle, htx', hseq'⟩ := handshakeLoop_times_out hquiet hp 0 hscript hs (by simp [ha])
  refine ⟨g', ?_, hrest, ?_, hseq'.trans hseq⟩
  · refine (runHandshake_triggers hstart hp).trans (hresends.trans (hout.trans ?_))
    rw [handshakeLoop, hidle]
  · rw [htx', htx]
    exact List.append_assoc s.tx [triggerFrame] [triggerFrame]

/-! One attempt of a retry. -/

section
variable {hp : HostParams} {a : Builder} {n : Nat} {h h1 h2 : HostRun}

/-- An action that reports an error ends the retry (rule R101). -/
theorem retryLoop_of_refused {e : BlockError} (fuel : Nat) (hissue : issue a.instr h = (some e, h1)) :
    retryLoop hp a (fuel + 1) n h = (.refused e, h1) := by
  rw [retryLoop, hissue]

/-- A wait that is not over leaves the retry running. -/
theorem retryLoop_of_waiting (fuel : Nat) (hissue : issue a.instr h = (none, h1))
    (hwait : wait Config.retryWindowMs State.replyFlag h1 = (false, h2)) :
    retryLoop hp a (fuel + 1) n h = (.running, h2) := by
  rw [retryLoop, hissue]
  simp only [hwait]

/-- A wait that is over: a reply ends the retry, then the cap does, else the action is repeated. -/
theorem retryLoop_of_waited (fuel : Nat) (hissue : issue a.instr h = (none, h1))
    (hwait : wait Config.retryWindowMs State.replyFlag h1 = (true, h2)) :
    retryLoop hp a (fuel + 1) n h =
      if h2.block.replyFlag then (.ok, say .success h2)
      else if hp.retryCap = some (n + 1) then (.gaveUp, say .failure h2)
      else retryLoop hp a fuel (n + 1) (say .failure h2) := by
  rw [retryLoop, hissue]
  simp only [hwait]

end

/-- The frame SETTHR sends for a threshold within its bound. -/
theorem exec_setthr_sends {v : Nat} {s : State} (hv : v ≤ 4095) (hlen : s.params.maxPayloadLen = none)
    (hs : s.seq ≠ 65535#16) : exec (.setthr v) s = .next (afterBuild 0x05#8 (bytes16 (BitVec.ofNat 16 v)) s) := by
  obtain ⟨⟨-, hsend, -⟩, -⟩ := valueBuildersCheckThenSend v s
  exact hsend hv ⟨fun m hm => by simp [hlen] at hm, hs⟩

theorem exec_setthr_exhausted {v : Nat} {s : State} (hv : v ≤ 4095) (hlen : s.params.maxPayloadLen = none)
    (hs : s.seq = 65535#16) : exec (.setthr v) s = .next (afterError (.seqOverflow 65535#16) s) := by
  obtain ⟨⟨-, -, -, hfull⟩, -⟩ := valueBuildersCheckThenSend v s
  exact hfull hv (fun m hm => by simp [hlen] at hm) hs

theorem hostIssues_setthr (v : Nat) : hostIssues (.setthr v) := .inr (.inr (.inr ⟨.setthr v, rfl⟩))

/-- The host after it issued SETTHR and the frame went out. -/
def afterSetthr (v : Nat) (h : HostRun) : HostRun :=
  { h with block := afterBuild 0x05#8 (bytes16 (BitVec.ofNat 16 v)) h.block }

section
variable {v : Nat} {h : HostRun} (hquiet : Quiet h) (hv : v ≤ 4095) (hlen : h.block.params.maxPayloadLen = none)
include hquiet hv hlen

theorem issue_setthr_sends (hs : h.block.seq ≠ 65535#16) : issue (.setthr v) h = (none, afterSetthr v h) := by
  rw [issue_eq (hostIssues_setthr v) hquiet.queue hquiet.gaps [_] (exec_setthr_sends hv hlen hs) rfl]
  simp [errorOf, afterSetthr]

theorem issue_setthr_exhausted (hs : h.block.seq = 65535#16) :
    issue (.setthr v) h = (some (.seqOverflow 65535#16), { h with
      block := afterError (.seqOverflow 65535#16) h.block, lines := h.lines ++ [.blockError (.seqOverflow 65535#16)] }) := by
  rw [issue_eq (hostIssues_setthr v) hquiet.queue hquiet.gaps [_] (exec_setthr_exhausted hv hlen hs) rfl]
  simp [errorOf]

end

theorem wait_of_empty {w : Nat} {stop : State → Bool} {h : HostRun} (hscript : h.script = []) (hstop : stop h.block = false) :
    wait w stop h = (false, h) := by
  simp only [wait, hscript, waitOn, hstop]

/-! Attempts without a reply. -/

/-- The host `k` silent attempts after the block was in state `s`: `k` frames and `k` failures more, no success. -/
structure AfterSilence (s : State) (k : Nat) (h : HostRun) : Prop where
  quiet : Quiet h
  params : h.block.params = s.params
  mode : h.block.mode = s.mode
  seq : h.block.seq.toNat = s.seq.toNat + k
  frames : framesReported h.block.evt = framesReported s.evt + k
  successes : h.lines.count .success = 0
  failures : h.lines.count .failure = k

section
variable {v k : Nat} {s : State} {h : HostRun} (hsilent : AfterSilence s k h)
include hsilent

theorem AfterSilence.seq_ne (hs : s.seq.toNat + k < 65535) : h.block.seq ≠ 65535#16 := by
  intro hseq
  have hnum := hsilent.seq
  rw [hseq] at hnum
  exact absurd hnum hs.ne'

/-- While a number is left the action's frame goes out. -/
theorem AfterSilence.issue (hv : v ≤ 4095) (hlen : s.params.maxPayloadLen = none) (hs : s.seq.toNat + k < 65535) :
    Machine.issue (Builder.setthr v).instr h = (none, afterSetthr v h) :=
  issue_setthr_sends hsilent.quiet hv (by rw [hsilent.params, hlen]) (hsilent.seq_ne hs)

/-- An attempt that no reply answers adds one frame and one failure. -/
theorem AfterSilence.succ (v : Nat) (rest : List Happening) (hs : s.seq.toNat + k < 65535) :
    AfterSilence s (k + 1) (say .failure (afterWait Config.retryWindowMs rest (afterSetthr v h))) := by
  have hne : h.block.seq ≠ 65535#16 := hsilent.seq_ne hs
  refine ⟨⟨hsilent.quiet.queue, hsilent.quiet.gaps⟩, hsilent.params, hsilent.mode, ?seq, ?frames, ?successes, ?failures⟩
  case seq => exact (toNat_seq_succ h.block hne).trans (congrArg (· + 1) hsilent.seq)
  case frames =>
    have hsent : framesReported (afterSetthr v h).block.evt = framesReported h.block.evt + 1 :=
      framesReported_afterBuild _ _ _
    have hstat : framesReported (afterEvent (.status (statusOf (afterSetthr v h).block)) (afterSetthr v h).block).evt =
        framesReported (afterSetthr v h).block.evt := framesReported_append _ _
    exact hstat.trans (hsent.trans (congrArg (· + 1) hsilent.frames))
  case successes => simp [say, afterWait, afterSetthr, hsilent.successes]
  case failures => simp [say, afterWait, afterSetthr, hsilent.failures]

/-- With a number left, an attempt that no reply answers gives up at the cap, and is repeated below it. -/
theorem AfterSilence.attempt (hp : HostParams) (hv : v ≤ 4095) (hlen : s.params.maxPayloadLen = none) (fuel : Nat)
    {rest : List Happening} (hs : s.seq.toNat + k < 65535) (hscript : h.script = .elapses :: rest) :
    ∃ g, AfterSilence s (k + 1) g ∧ g.script = rest ∧ retryLoop hp (.setthr v) (fuel + 1) k h =
      if hp.retryCap = some (k + 1) then (.gaveUp, g) else retryLoop hp (.setthr v) fuel (k + 1) g := by
  have hwait := wait_silent (h := afterSetthr v h) (w := Config.retryWindowMs) (stop := State.replyFlag)
    ⟨hsilent.quiet.queue, hsilent.quiet.gaps⟩ hscript rfl
  exact ⟨_, hsilent.succ v rest hs, rfl, retryLoop_of_waited fuel (hsilent.issue hv hlen hs) hwait⟩

/-- `j` silent attempts below the cap, with a number for each, repeat the action `j` times. -/
theorem AfterSilence.attempts (hp : HostParams) (hv : v ≤ 4095) (hlen : s.params.maxPayloadLen = none) (fuel j : Nat)
    {rest : List Happening} (hs : s.seq.toNat + (k + j) ≤ 65535) (hcap : ∀ c, hp.retryCap = some c → k + j < c)
    (hscript : h.script = List.replicate j Happening.elapses ++ rest) :
    ∃ g, AfterSilence s (k + j) g ∧ g.script = rest ∧
      retryLoop hp (.setthr v) (fuel + j) k h = retryLoop hp (.setthr v) fuel (k + j) g := by
  induction j generalizing k h with
  | zero => exact ⟨h, hsilent, hscript, rfl⟩
  | succ j ih =>
    have hnext : k + (j + 1) = k + 1 + j := by omega
    obtain ⟨g, hg, hrest, hloop⟩ := hsilent.attempt hp hv hlen (fuel + j) (by omega) hscript
    have hbelow : hp.retryCap ≠ some (k + 1) := fun hc => absurd (hcap _ hc) (by omega)
    rw [hnext] at hs hcap ⊢
    obtain ⟨g', hg', hrest', hloop'⟩ := ih hg hs hcap hrest
    exact ⟨g', hg', hrest', hloop.trans ((if_neg hbelow).trans hloop')⟩

end

/-- A retry that begins with nothing queued. -/
theorem afterSilence_startRun {s : State} (hq : s.queue = []) (script : List Happening) :
    AfterSilence s 0 (startRun s script) :=
  ⟨⟨hq, rfl⟩, rfl, rfl, rfl, rfl, rfl, rfl⟩

/-- A retry from its start, over `j` silent waits below the cap, with a number for each. -/
theorem retryUntilAck_attempts {hp : HostParams} {v j : Nat} {s : State} {rest : List Happening} (hq : s.queue = [])
    (hv : v ≤ 4095) (hlen : s.params.maxPayloadLen = none) (hs : s.seq.toNat + j ≤ 65535)
    (hcap : ∀ c, hp.retryCap = some c → j < c) :
    ∃ g, AfterSilence s j g ∧ g.script = rest ∧
      retryUntilAck hp (.setthr v) (startRun s (List.replicate j Happening.elapses ++ rest)) =
        retryLoop hp (.setthr v) (rest.length + 1) j g := by
  have hstart := afterSilence_startRun hq (List.replicate j Happening.elapses ++ rest)
  obtain ⟨g, hg, hrest, hloop⟩ := hstart.attempts hp hv hlen (rest.length + 1) j (by rwa [Nat.zero_add])
    (by rwa [Nat.zero_add]) rfl
  rw [Nat.zero_add] at hg hloop
  refine ⟨g, hg, hrest, Eq.trans ?_ hloop⟩
  have hfuel : (startRun s (List.replicate j Happening.elapses ++ rest)).script.length + 1 = rest.length + 1 + j := by
    simp [startRun]
    omega
  rw [retryUntilAck, hfuel]

/-! The end of a retry. -/

section
variable {hp : HostParams} {v k : Nat} {s : State} {h : HostRun} (hsilent : AfterSilence s k h) (hv : v ≤ 4095)
  (hlen : s.params.maxPayloadLen = none)
include hsilent hv hlen

/-- With the script used up the wait for the next frame's reply goes on (rule R130). -/
theorem AfterSilence.keepsWaiting (fuel : Nat) (hs : s.seq.toNat + k < 65535) (hscript : h.script = []) :
    retryLoop hp (.setthr v) (fuel + 1) k h = (.running, afterSetthr v h) :=
  retryLoop_of_waiting fuel (hsilent.issue hv hlen hs) (wait_of_empty hscript rfl)

/-- With the numbers used up the action is refused (rule R57). -/
theorem AfterSilence.refused (fuel : Nat) (hs : s.seq.toNat + k = 65535) :
    ∃ g, retryLoop hp (.setthr v) (fuel + 1) k h = (.refused (.seqOverflow 65535#16), g) ∧
      framesReported g.block.evt = framesReported s.evt + k := by
  have hseq : h.block.seq = 65535#16 := BitVec.eq_of_toNat_eq (hsilent.seq.trans hs)
  have hissue := issue_setthr_exhausted hsilent.quiet hv (by rw [hsilent.params, hlen]) hseq
  refine ⟨_, retryLoop_of_refused fuel hissue, ?_⟩
  have herr : framesReported (afterError (.seqOverflow 65535#16) h.block).evt = framesReported h.block.evt :=
    framesReported_append _ _
  exact herr.trans hsilent.frames

end

/-- Settles O56: silent attempts add up until the script, the numbers or the cap end them. -/
theorem silentRetryEndsOnlyByCapOrLastNumber : Obligations.SilentRetryEndsOnlyByCapOrLastNumber := by
  intro hp v k s hv hq hlen run
  have hrun {j : Nat} {rest : List Happening} (hk : List.replicate k .elapses = List.replicate j Happening.elapses ++ rest) :
      run = retryUntilAck hp (.setthr v) (startRun s (List.replicate j Happening.elapses ++ rest)) := by rw [← hk]; rfl
  refine ⟨fun hcap hs => ?running, fun hcap hs => ?refused, fun n hcap hpos hn hs => ?gaveUp⟩
  case running =>
    obtain ⟨g, hg, hrest, hloop⟩ := retryUntilAck_attempts (hp := hp) (rest := []) hq hv hlen hs.le (by simp [hcap])
    rw [hrun (List.append_nil _).symm, hloop, hg.keepsWaiting hv hlen _ hs hrest]
    exact ⟨rfl, (framesReported_afterBuild _ _ _).trans (congrArg (· + 1) hg.frames), hg.successes, hg.failures⟩
  case refused =>
    obtain ⟨j, hj⟩ := Nat.exists_eq_add_of_le (Nat.le_of_lt_succ s.seq.isLt)
    obtain ⟨i, rfl⟩ := Nat.exists_eq_add_of_le (show j ≤ k by omega)
    obtain ⟨g, hg, -, hloop⟩ := retryUntilAck_attempts (hp := hp) (rest := List.replicate i .elapses) hq hv hlen hj.ge
      (by simp [hcap])
    obtain ⟨g', hout, hframes⟩ := hg.refused hv hlen (hp := hp) _ hj.symm
    rw [hrun (List.replicate_add _ _ _), hloop, hout, hframes]
    exact ⟨rfl, by omega⟩
  case gaveUp =>
    obtain ⟨j, rfl⟩ := Nat.exists_eq_succ_of_ne_zero (Nat.one_le_iff_ne_zero.1 hpos)
    obtain ⟨i, rfl⟩ := Nat.exists_eq_add_of_le hn
    obtain ⟨g, hg, hrest, hloop⟩ := retryUntilAck_attempts (hp := hp) (j := j) (rest := .elapses :: List.replicate i .elapses)
      hq hv hlen (by omega) (fun c hc => by rw [hcap] at hc; cases hc; omega)
    obtain ⟨g', hg', -, hattempt⟩ := hg.attempt hp hv hlen _ (by omega) hrest
    have hscript : List.replicate (j + 1 + i) Happening.elapses =
        List.replicate j Happening.elapses ++ .elapses :: List.replicate i .elapses := by
      rw [Nat.add_assoc, Nat.add_comm 1 i, List.replicate_add, List.replicate_succ]
    rw [hrun hscript, hloop, hattempt, if_pos hcap]
    exact ⟨rfl, hg'.frames, hg'.successes, hg'.failures⟩

/-! A reply that comes during a wait. -/

theorem waitOn_of_stop {stop : State → Bool} {h : HostRun} (hstop : stop h.block = true) (xs : List Happening) :
    waitOn stop xs h = (true, h) := by
  cases xs with
  | nil => rw [waitOn, hstop]
  | cons x xs => rw [waitOn, if_pos hstop]

theorem waitOn_of_happening {stop : State → Bool} {h : HostRun} {x : Happening} (hx : x ≠ .elapses)
    (hstop : stop h.block = false) (rest : List Happening) :
    waitOn stop (x :: rest) h = waitOn stop rest (happen x { h with script := rest }) := by
  rw [waitOn, if_neg (by simp [hstop]), if_neg hx]

/-- What the block reports does not count as the host's own lines. -/
theorem count_lines_follow {l : HostLine} (hl : ∀ e, l ≠ .blockError e) (t : State) (h : HostRun) :
    (follow t h).lines.count l = h.lines.count l := by
  have hnone : l ∉ (errorsSince h.block.evt.length t).map HostLine.blockError := by
    intro hmem
    obtain ⟨e, -, he⟩ := List.mem_map.1 hmem
    exact hl e he.symm
  rw [follow, List.count_append, List.count_eq_zero_of_not_mem hnone, Nat.add_zero]

/-- An ack that arrives and is taken sets the flag (rule R79), and sends nothing. -/
theorem advance_ack {s : State} {b : Buffer} (hq : s.queue = []) (hroom : s.params.rxqDepth ≠ some 0)
    (hack : hasClass b s.mode .ack) :
    (advance (arriveDatagram b s)).replyFlag = true ∧ (advance (arriveDatagram b s)).queue = [] ∧
      framesReported (advance (arriveDatagram b s)).evt = framesReported s.evt := by
  have hnotFull : ¬ queueFull s = true := by
    rw [queueFull_iff, hq]
    rintro ⟨d, hd, hle⟩
    exact hroom (hd.trans (congrArg some (Nat.le_zero.1 hle)))
  have hqueued : (arriveDatagram b s).queue = [.rx b] := by
    rw [arriveDatagram_of_room b hnotFull, hq]
    rfl
  have hexec := advance_cons hqueued (i := .rx b) rfl
  rw [arriveDatagram_of_room b hnotFull] at hexec ⊢
  obtain ⟨hsets, -, -⟩ := replyFlagFollowsReplies
  obtain ⟨t, ht, hflag⟩ := hsets b (withQueue [] { s with queue := s.queue ++ [.rx b] }) hack.1 (.inl hack.2)
  obtain ⟨-, hkeeps, -⟩ := onlySuccessfulBuildsMoveSeq _ _ _ hexec nofun
  obtain rfl := Host.Outcome.next.inj (ht.symm.trans hexec)
  exact ⟨hflag, (exec_frame hexec).1, (hkeeps rfl rfl).2⟩

theorem arriveDatagram_replyFlag (b : Buffer) (s : State) : (arriveDatagram b s).replyFlag = s.replyFlag := by
  rw [arriveDatagram]
  split <;> rfl

/-- The host when the datagram `b` arrived and was taken during a wait, with `rest` still to happen. -/
def afterTaken (b : Buffer) (rest : List Happening) (h : HostRun) : HostRun :=
  follow (advance (arriveDatagram b h.block)) { h with block := arriveDatagram b h.block, script := rest }

theorem count_lines_afterTaken {l : HostLine} (hl : ∀ e, l ≠ .blockError e) (b : Buffer) (rest : List Happening)
    (h : HostRun) : (afterTaken b rest h).lines.count l = h.lines.count l := count_lines_follow hl _ _

/-- A wait for a reply in which an ack arrives and is taken ends with the flag set. -/
theorem wait_of_ack {h : HostRun} {b : Buffer} {rest : List Happening} (w : Nat) (hquiet : Quiet h)
    (hscript : h.script = .arrives b :: .takes :: rest) (hflag : h.block.replyFlag = false)
    (hroom : h.block.params.rxqDepth ≠ some 0) (hack : hasClass b h.block.mode .ack) :
    ∃ g, wait w State.replyFlag h = (true, g) ∧ g.block.replyFlag = true ∧ g.script = rest ∧
      framesReported g.block.evt = framesReported h.block.evt ∧
      g.lines.count .success = h.lines.count .success ∧ g.lines.count .failure = h.lines.count .failure := by
  obtain ⟨hset, hempty, hframes⟩ := advance_ack hquiet.queue hroom hack
  have harrived : (arriveDatagram b h.block).replyFlag = false := (arriveDatagram_replyFlag b h.block).trans hflag
  have hwait : waitOn State.replyFlag h.script h = (true, afterTaken b rest h) := by
    rw [hscript, waitOn_of_happening (x := .arrives b) nofun hflag, waitOn_of_happening (x := .takes) nofun harrived]
    exact waitOn_of_stop hset rest
  have hstat := issue_stat (h := say (.waited w) (afterTaken b rest h)) hempty hquiet.gaps
  have hevt (t : State) : framesReported (afterEvent (.status (statusOf t)) t).evt = framesReported t.evt :=
    framesReported_append _ _
  refine ⟨afterWait w rest (afterTaken b rest h), ?wait, hset, rfl, (hevt _).trans hframes, ?success, ?failure⟩
  case wait =>
    rw [wait, hwait]
    simp only [hstat]
    rfl
  case success => simp [afterWait, count_lines_afterTaken]
  case failure => simp [afterWait, count_lines_afterTaken]

/-- Settles O55: `k` silent attempts, then one whose frame an ack answers. -/
theorem retryRepeatsUntilAReply : Obligations.RetryRepeatsUntilAReply := by
  intro hp v k b rest s hcap hv hq hlen hroom hs hack
  obtain ⟨g, hg, hscript, hloop⟩ := retryUntilAck_attempts (hp := hp) (rest := .arrives b :: .takes :: rest) hq hv hlen hs.le
    (by simp [hcap])
  obtain ⟨g', hwait, hflag, hrest, hframes, hsuccess, hfailure⟩ := wait_of_ack (h := afterSetthr v g) Config.retryWindowMs
    ⟨hg.quiet.queue, hg.quiet.gaps⟩ hscript rfl (hg.params ▸ hroom) (hg.mode ▸ hack)
  refine ⟨say .success g', hloop.trans ?ends, hrest, ?frames, ?success, ?failure⟩
  case ends => rw [retryLoop_of_waited _ (hg.issue hv hlen hs) hwait, if_pos hflag]
  case frames =>
    exact hframes.trans ((framesReported_afterBuild _ _ _).trans (congrArg (· + 1) hg.frames))
  case success => simp [say, hsuccess, afterSetthr, hg.successes]
  case failure => simp [say, hfailure, afterSetthr, hg.failures]

end Sys2Proof.Machine
end

section
/-! PROOFS. Campaigns (rules R104 to R107, R110, R124, log entries 13, 17): a campaign's steps are the host's moves and the two
writes to the campaign's own record. -/

namespace Sys2Proof.Machine

/-! What a plan does. -/

/-- One move of a campaign: a move of the host, the next step, or a column. -/
inductive CampaignMove : HostRun → HostRun → Prop where
  | host {h h1 : HostRun} (m : HostMove h h1) : CampaignMove h h1
  | goes (i : Nat) (h : HostRun) : CampaignMove h (atStep i h)
  | records (key : Nat) (v : List Word32) (h : HostRun) : CampaignMove h (record key v h)

/-- A chain of campaign moves. -/
def CampaignMoves : HostRun → HostRun → Prop := Relation.ReflTransGen CampaignMove

theorem CampaignMoves.refl (h : HostRun) : CampaignMoves h h := Relation.ReflTransGen.refl

theorem CampaignMoves.trans {h h1 h2 : HostRun} (a : CampaignMoves h h1) (b : CampaignMoves h1 h2) : CampaignMoves h h2 :=
  Relation.ReflTransGen.trans a b

theorem HostMoves.campaignMoves {h h1 : HostRun} (m : HostMoves h h1) : CampaignMoves h h1 :=
  Relation.ReflTransGen.mono (fun _ _ => CampaignMove.host) _ _ m

theorem atStep_moves (i : Nat) (h : HostRun) : CampaignMoves h (atStep i h) := Relation.ReflTransGen.single (.goes i h)

theorem record_moves (key : Nat) (v : List Word32) (h : HostRun) : CampaignMoves h (record key v h) :=
  Relation.ReflTransGen.single (.records key v h)

/-- A step of the S-curve, up to its result. -/
theorem scurveStep_moves {hp : HostParams} {key i : Nat} {h h1 : HostRun} {r : StepResult}
    (e : afterRetry hp (.setthr key) (acquire hp) (atStep i h) = (r, h1)) : HostMoves (atStep i h) h1 := by
  have m := afterRetry_moves hp (.setthr key) (acquire hp) (acquire_moves hp) (atStep i h)
  rwa [e] at m

theorem scurveLoop_moves (hp : HostParams) (step total initial fuel offset : Nat) (h : HostRun) :
    CampaignMoves h (scurveLoop hp step total initial fuel offset h).2 := by
  induction fuel generalizing offset h with
  | zero => exact .refl h
  | succ fuel ih =>
    rw [scurveLoop]
    split
    · split
      · exact .refl h
      · split
        · next e =>
          exact (atStep_moves _ h).trans ((scurveStep_moves e).campaignMoves.trans ((record_moves _ _ _).trans (ih _ _)))
        · next e =>
          exact (atStep_moves _ h).trans ((scurveStep_moves e).campaignMoves.trans (tells_moves _ _).campaignMoves)
        · next e => exact (atStep_moves _ h).trans (scurveStep_moves e).campaignMoves
    · exact .refl h

theorem cycle_moves {hp : HostParams} {i : Nat} {h h1 : HostRun} {r : StepResult} (e : acquire hp (atStep i h) = (r, h1)) :
    HostMoves (atStep i h) h1 := by
  have m := acquire_moves hp (atStep i h)
  rwa [e] at m

theorem delay_moves {w : Nat} {stop : State → Bool} {h h1 : HostRun} {r : Bool} (e : wait w stop h = (r, h1)) :
    HostMoves h h1 := by
  have m := wait_moves w stop h
  rwa [e] at m

theorem periodicLoop_moves (hp : HostParams) (left i : Nat) (h : HostRun) :
    CampaignMoves h (periodicLoop hp left i h).2 := by
  induction left generalizing i h with
  | zero => exact .refl h
  | succ left ih =>
    rw [periodicLoop]
    split
    · exact .refl h
    · split
      · next v _ e =>
        have recorded := (atStep_moves i h).trans ((cycle_moves e).campaignMoves.trans (record_moves i v _))
        split
        · next e2 => exact recorded.trans (delay_moves e2).campaignMoves
        · next e2 => exact recorded.trans ((delay_moves e2).campaignMoves.trans (ih _ _))
      · next e => exact (atStep_moves i h).trans ((cycle_moves e).campaignMoves.trans (tells_moves _ _).campaignMoves)
      · next e => exact (atStep_moves i h).trans (cycle_moves e).campaignMoves

theorem runPlan_moves (hp : HostParams) (plan : Plan) (h : HostRun) : CampaignMoves h (runPlan hp plan h).2 := by
  cases plan with
  | scurve step total initial =>
    rw [runPlan, scurve]
    split
    · exact .refl h
    · exact scurveLoop_moves hp step total initial _ 0 h
  | periodic count => exact periodicLoop_moves hp count 0 h

/-! The mode. -/

theorem CampaignMoves.onlyDatagrams {m : Mode} {h h1 : HostRun} (c : CampaignMoves h h1) (hd : onlyDatagrams m h.block) :
    onlyDatagrams m h1.block := by
  induction c with
  | refl => exact hd
  | tail _ a ih =>
    cases a with
    | host a => exact a.moves.onlyDatagrams ih
    | goes _ _ => exact ih
    | records _ _ _ => exact ih

theorem modeOfNat_modeNumber (m : AcqMode) : modeOfNat (modeNumber m) = some m := by cases m <;> rfl

/-- The snapshot's mode is set before its settings are made, and they keep it (rules R110, R124). -/
theorem applySnapshot_onlyDatagrams (hp : HostParams) (c : Snapshot) {h : HostRun}
    (hd : ∀ x ∈ h.block.queue, isDatagram x = true) :
    onlyDatagrams (.active c.mode) (applySnapshot hp c h).2.block := by
  obtain ⟨rest, hrest, -, hexec, hqueue⟩ := issue_exec (m := h.block.mode) (.inr ⟨modeNumber c.mode, rfl⟩) ⟨hd, rfl⟩
  rw [exec_setmode, selectMode_of_some (modeOfNat_modeNumber c.mode)] at hexec
  refine (applySettings_moves hp c.settings _).onlyDatagrams ⟨hqueue ▸ hrest, ?_⟩
  rw [← Host.Outcome.next.inj hexec]

theorem afterSnapshot_mode (hp : HostParams) (plan : Plan) {m : Mode} {r : RetryResult × HostRun}
    (hd : onlyDatagrams m r.2.block) : (afterSnapshot hp plan r).2.block.mode = m := by
  have hplan := ((runPlan_moves hp plan r.2).onlyDatagrams hd).2
  rcases afterSnapshot_cases (hp := hp) (plan := plan) (r := r) rfl with
    ⟨g, rfl, e⟩ | ⟨_, g, rfl, e⟩ | ⟨g, g1, rfl, he, e⟩ | ⟨g, rfl, -, e⟩
  · rw [e]; exact hd.2
  · rw [e]; exact hd.2
  · rw [e]; rw [he] at hplan; exact hplan
  · rw [e]; exact hplan

theorem runCampaign_of_none (hp : HostParams) (c : Snapshot) {h : HostRun} (hc : h.campaign = none) :
    runCampaign hp c h = afterSnapshot hp c.plan (applySnapshot hp c { h with campaign := some CampaignRun.fresh }) := by
  rw [runCampaign, hc]

/-- Settles O60: the mode is set first, and nothing after it writes it. -/
theorem campaignKeepsItsMode : Obligations.CampaignKeepsItsMode := by
  intro hp c h hc hd
  rw [runCampaign_of_none hp c hc]
  exact afterSnapshot_mode hp c.plan (applySnapshot_onlyDatagrams hp c hd)

/-! The flag. -/

theorem scurveLoop_not_cancelled (hp : HostParams) (step total initial fuel offset : Nat) {h : HostRun} (hu : uncancelled h)
    (history : History) : (scurveLoop hp step total initial fuel offset h).1 ≠ .cancelled history := by
  induction fuel generalizing offset h with
  | zero => exact nofun
  | succ fuel ih =>
    rw [scurveLoop]
    split
    · rw [if_neg (by simp [hu.2])]
      split
      · next e => exact ih _ (uncancelled_record _ _ ((scurveStep_moves e).uncancelled (uncancelled_atStep _ hu)))
      · exact nofun
      · exact nofun
    · exact nofun

theorem periodicLoop_not_cancelled (hp : HostParams) (left i : Nat) {h : HostRun} (hu : uncancelled h) (history : History) :
    (periodicLoop hp left i h).1 ≠ .cancelled history := by
  induction left generalizing i h with
  | zero => exact nofun
  | succ left ih =>
    rw [periodicLoop, if_neg (by simp [hu.2])]
    split
    · next v _ e =>
      have recorded := uncancelled_record i v ((cycle_moves e).uncancelled (uncancelled_atStep i hu))
      split
      · exact nofun
      · next e2 => exact ih _ ((delay_moves e2).uncancelled recorded)
    · exact nofun
    · exact nofun

theorem runPlan_not_cancelled (hp : HostParams) (plan : Plan) {h : HostRun} (hu : uncancelled h) (history : History) :
    (runPlan hp plan h).1 ≠ .cancelled history := by
  cases plan with
  | scurve step total initial =>
    rw [runPlan, scurve]
    split
    · exact nofun
    · exact scurveLoop_not_cancelled hp step total initial _ 0 hu history
  | periodic count => exact periodicLoop_not_cancelled hp count 0 hu history

theorem applySnapshot_uncancelled (hp : HostParams) (c : Snapshot) {h : HostRun} (hu : uncancelled h) :
    uncancelled (applySnapshot hp c h).2 :=
  (applySettings_moves hp c.settings _).uncancelled (issue_uncancelled _ hu)

/-- A campaign that is over is no longer the active one (rule R107). -/
theorem afterSnapshot_ends (hp : HostParams) (plan : Plan) (r : RetryResult × HostRun)
    (hover : (afterSnapshot hp plan r).1 ≠ .running) : (afterSnapshot hp plan r).2.campaign = none := by
  rcases afterSnapshot_cases (hp := hp) (plan := plan) (r := r) rfl with
    ⟨g, -, e⟩ | ⟨_, g, -, e⟩ | ⟨g, g1, -, -, e⟩ | ⟨g, -, -, e⟩
  · exact absurd (by rw [e]) hover
  · rw [e]; rfl
  · exact absurd (by rw [e]) hover
  · rw [e]; rfl

theorem afterSnapshot_not_cancelled (hp : HostParams) (plan : Plan) {r : RetryResult × HostRun} (hu : uncancelled r.2)
    (history : History) : (afterSnapshot hp plan r).1 ≠ .cancelled history := by
  rcases afterSnapshot_cases (hp := hp) (plan := plan) (r := r) rfl with
    ⟨g, -, e⟩ | ⟨_, g, -, e⟩ | ⟨g, g1, -, -, e⟩ | ⟨g, rfl, -, e⟩
  · rw [e]; exact nofun
  · rw [e]; exact nofun
  · rw [e]; exact nofun
  · rw [e]; exact runPlan_not_cancelled hp plan hu history

/-- A campaign starts with its flag down, whatever was requested before (rule R106). -/
theorem uncancelled_start {h : HostRun} (hscript : .cancels ∉ h.script)
    (hgaps : ∀ g ∈ h.gaps, .cancels ∉ g.before ∧ .cancels ∉ g.pending) :
    uncancelled { h with campaign := some CampaignRun.fresh } := by
  refine ⟨?_, rfl⟩
  rintro (hs | ⟨g, hg, hm⟩)
  · exact hscript hs
  · obtain ⟨hbefore, hpending⟩ := hgaps g hg
    exact (List.mem_append.1 hm).elim hbefore hpending

/-- Settles O59: one campaign at a time; its end clears it; and no move raises a flag that no request asks for. -/
theorem campaignsOwnTheirFlag : Obligations.CampaignsOwnTheirFlag := by
  refine ⟨fun hp c h hc => ?refused, fun hp c h hc hover => ?ends, fun hp c h history hc hscript hgaps => ?uncancelled⟩
  case refused =>
    obtain ⟨r, hr⟩ := Option.ne_none_iff_exists'.1 hc
    rw [runCampaign, hr]
  case ends =>
    rw [runCampaign_of_none hp c hc] at hover ⊢
    exact afterSnapshot_ends hp c.plan _ hover
  case uncancelled =>
    rw [runCampaign_of_none hp c hc]
    exact afterSnapshot_not_cancelled hp c.plan (applySnapshot_uncancelled hp c (uncancelled_start hscript hgaps)) history

/-! The columns of an S-curve. -/

/-- The keys of an S-curve from offset `offset` on (rule R104). -/
def keysFrom (step total initial offset : Nat) : List Nat :=
  (List.range ((total - offset + step - 1) / step)).map fun k => initial + offset + k * step

/-- From the start: `initial + k * step` for each step (rule R104). -/
theorem keysFrom_zero (step total initial : Nat) :
    keysFrom step total initial 0 = (List.range ((total + step - 1) / step)).map fun k => initial + k * step := rfl

theorem keysFrom_of_le {step total offset : Nat} (initial : Nat) (hstep : step ≠ 0) (h : total ≤ offset) :
    keysFrom step total initial offset = [] := by
  have hcount : (total - offset + step - 1) / step = 0 := Nat.div_eq_of_lt (by omega)
  rw [keysFrom, hcount]
  rfl

/-- One more step: the key of this offset, and those from the next offset on. -/
theorem keysFrom_of_lt {step total offset : Nat} (initial : Nat) (hstep : step ≠ 0) (h : offset < total) :
    keysFrom step total initial offset = (initial + offset) :: keysFrom step total initial (offset + step) := by
  have hcount : (total - offset + step - 1) / step = (total - (offset + step) + step - 1) / step + 1 := by
    rw [show total - offset + step - 1 = total - offset - 1 + step by omega, Nat.add_div_right _ (Nat.pos_of_ne_zero hstep)]
    congr 1
    by_cases hlast : total ≤ offset + step
    · rw [Nat.div_eq_of_lt (by omega), Nat.div_eq_of_lt (by omega)]
    · congr 1
      omega
  rw [keysFrom, keysFrom, hcount, List.range_succ_eq_map, List.map_cons, List.map_map]
  refine congrArg₂ _ (by omega) (List.map_congr_left fun k _ => ?_)
  simp only [Function.comp_apply, Nat.succ_eq_add_one, Nat.add_mul]
  omega

/-- The columns of an S-curve that completes: those it had, and one for each offset still to come. -/
theorem scurveLoop_keys {hp : HostParams} {step total initial : Nat} (hstep : step ≠ 0) (fuel offset : Nat) {h h' : HostRun}
    {history : History} (hc : h.campaign ≠ none)
    (e : scurveLoop hp step total initial fuel offset h = (.completed history, h')) :
    history.map Prod.fst = (historyOf h).map Prod.fst ++ keysFrom step total initial offset := by
  induction fuel generalizing offset h with
  | zero => cases e
  | succ fuel ih =>
    rw [scurveLoop] at e
    split at e
    · next hlt =>
      split at e
      · cases e
      · split at e
        · next v h1 estep =>
          obtain ⟨hhist, hkept⟩ := (scurveStep_moves estep).historyOf
          have hc1 : h1.campaign ≠ none := hkept (by simpa [atStep] using hc)
          rw [ih _ (by simpa [record] using hc1) e, historyOf_record _ _ _ hc1, hhist, historyOf_atStep,
            keysFrom_of_lt initial hstep hlt]
          simp
        · cases e
        · cases e
    · next hge =>
      cases e
      rw [keysFrom_of_le initial hstep (Nat.le_of_not_lt hge), List.append_nil]

/-- The campaign that its snapshot was applied for is active, with no column yet. -/
theorem applySnapshot_history (hp : HostParams) (c : Snapshot) {h : HostRun} (hc : h.campaign = some CampaignRun.fresh) :
    (applySnapshot hp c h).2.campaign ≠ none ∧ historyOf (applySnapshot hp c h).2 = [] := by
  have hset := issue_history (.setmode (modeNumber c.mode)) h
  have hmade := (applySettings_moves hp c.settings (issue (.setmode (modeNumber c.mode)) h).2).history
  have hhist := hmade.trans hset
  rw [hc] at hhist
  obtain ⟨r, hr, hempty⟩ := Option.map_eq_some_iff.1 hhist
  refine ⟨by rw [applySnapshot, hr]; exact nofun, ?_⟩
  rw [historyOf, applySnapshot, hr]
  exact hempty

theorem runPlan_scurve_completed {hp : HostParams} {step total initial : Nat} {h h' : HostRun} {history : History}
    (hc : h.campaign ≠ none) (hempty : historyOf h = [])
    (e : runPlan hp (.scurve step total initial) h = (.completed history, h')) :
    step ≠ 0 ∧ history.map Prod.fst = keysFrom step total initial 0 := by
  rw [runPlan, scurve] at e
  split at e
  · cases e
  · next hstep =>
    have hkeys := scurveLoop_keys hstep _ _ hc e
    rw [hempty] at hkeys
    exact ⟨hstep, hkeys⟩

/-- Settles O58: a completed campaign ran its whole loop from offset 0 with no column before. -/
theorem completedScurveHasItsColumns : Obligations.CompletedScurveHasItsColumns := by
  intro hp c step total initial h h' history hplan e
  cases hc : h.campaign with
  | some r =>
    rw [runCampaign, hc] at e
    cases e
  | none =>
    rw [runCampaign_of_none hp c hc, hplan] at e
    obtain ⟨hactive, hempty⟩ := applySnapshot_history hp c (h := { h with campaign := some CampaignRun.fresh }) rfl
    rcases afterSnapshot_cases e with ⟨g, -, e1⟩ | ⟨_, g, -, e1⟩ | ⟨g, g1, -, -, e1⟩ | ⟨g, hg, -, e1⟩
    · cases e1
    · cases e1
    · cases e1
    · rw [hg] at hactive hempty
      have hcompleted : (runPlan hp (.scurve step total initial) g).1 = .completed history := (congrArg Prod.fst e1).symm
      obtain ⟨hstep, hkeys⟩ := runPlan_scurve_completed hactive hempty (Prod.ext hcompleted rfl)
      exact ⟨hstep, hkeys.trans (keysFrom_zero step total initial)⟩

end Sys2Proof.Machine
end
